-- ==== Sys2Proof/Word.lean ====
section
/-! DEFINITION. The word and byte types (every register and every command word is 32 bits wide: R20, R70). -/

namespace Sys2Proof

/-- A 32-bit word: a register of the window, a command header, an operand word. -/
abbrev Word := BitVec 32

/-- A byte: the `sym` half of a symbol, the byte an entry appends. -/
abbrev Byte := BitVec 8

end Sys2Proof
end

