-- ==== Sys2Proof/Syntax.lean ====
section
/-! DEFINITION. The commands: one constructor per row of spec/opcode_table.json (R73), with the operands of that row. -/

namespace Sys2Proof

/-- A command of R73. Operand words stand "as written" (R74), so each is a `Word`; a channel index (header bits 23:16)
and a bit count (header bits 15:8) are numbers, which `Instr.WellFormed` bounds by their 8-bit fields. -/
inductive Instr where
  /-- R200: no operation. -/
  | nop
  /-- R102: decompose the binary32 word `x`. -/
  | fdec (x : Word)
  /-- R103: recompose a triple. -/
  | frec (sign exponent mantissa : Word)
  /-- R105: custom correctly-rounded multiply. -/
  | fmul (a b : Word)
  /-- R107: IEEE-754 divide. -/
  | fdiv (x y : Word)
  /-- R109: power of two. -/
  | fpow2 (shift : Word)
  /-- R131: reconstruct the float of the quantized integer `q`. -/
  | recon (q shift a : Word)
  /-- R132: mantissa delta of `x` against `y`. -/
  | resid (x y : Word)
  /-- R134: recover the original sample from `y` and the delta `d`. -/
  | unres (y d : Word)
  /-- R135: per-sample Part B width; `f` is header bit 8 (a_is_one). -/
  | nwidth (f : Bool) (q hb : Word)
  /-- R139: a verbatim word as four symbols. -/
  | packa (x idx : Word)
  /-- R140: a residual of width `w` as masked symbols. -/
  | packb (d w idx : Word)
  /-- R141: four symbols back into a word. -/
  | unpacka (idx : Word)
  /-- R142: masked symbols back into a residual. -/
  | unpackb (idx w : Word)
  /-- R172: clear the dictionary of channel `ch` (0xFF: of every channel). -/
  | dflush (ch : Nat)
  /-- R170: encode `n` symbols from SYM index `base` into the bit stream. -/
  | denc (ch : Nat) (base n : Word)
  /-- R171: decode `n` symbols from the bit stream to SYM index `base`. -/
  | ddec (ch : Nat) (base n : Word)
  /-- R173: snapshot a dictionary. -/
  | dbackup (ch : Nat)
  /-- R174: restore a dictionary from its snapshot. -/
  | dresume (ch : Nat)
  /-- R175: report a dictionary's scalar state. -/
  | dstat (ch : Nat)
  /-- R202: write `n` bits of `v`. -/
  | bwr (n : Nat) (v : Word)
  /-- R203: read `n` bits. -/
  | brd (n : Nat)
  /-- R204: pad the write position to a byte boundary. -/
  | balignw
  /-- R205: skip the read position to a byte boundary. -/
  | balignr
  /-- R206: set the write position. -/
  | setwp (pos : Word)
  /-- R207: set the read position. -/
  | setrp (pos : Word)
  deriving DecidableEq, Repr

end Sys2Proof
end

