-- ==== Sys2Proof/WellFormed.lean ====
section
/-! DEFINITION. Which commands have an encoding: the channel index and the bit count fit their 8-bit header fields (R70).
Every operand word is encodable. A value that fits its field and is out of the range a command's rule allows (a channel
`≥ NCH`, a bit count outside 1..32) IS well formed: it raises the exception that rule names (R74). -/

namespace Sys2Proof

/-- The command has an encoding (R70, R71). -/
def Instr.WellFormed : Instr → Bool
  | .dflush ch => ch < 256
  | .denc ch _ _ => ch < 256
  | .ddec ch _ _ => ch < 256
  | .dbackup ch => ch < 256
  | .dresume ch => ch < 256
  | .dstat ch => ch < 256
  | .bwr n _ => n < 256
  | .brd n => n < 256
  | .nop => true
  | .fdec _ => true
  | .frec _ _ _ => true
  | .fmul _ _ => true
  | .fdiv _ _ => true
  | .fpow2 _ => true
  | .recon _ _ _ => true
  | .resid _ _ => true
  | .unres _ _ => true
  | .nwidth _ _ _ => true
  | .packa _ _ => true
  | .packb _ _ _ => true
  | .unpacka _ => true
  | .unpackb _ _ => true
  | .balignw => true
  | .balignr => true
  | .setwp _ => true
  | .setrp _ => true

end Sys2Proof
end

