-- ==== Sys2Proof/Decode.lean ====
section
/-! DEFINITION. The command encoding of 30_encoding.md (R70 to R75): the opcode map, decoding (total on any list of words,
rejecting by name), the encoder, and the host's view of one opcode-table word. -/

namespace Sys2Proof

/-- The rows of the opcode map R73, by mnemonic. -/
inductive Op where
  | nop | fdec | frec | fmul | fdiv | fpow2
  | recon | resid | unres | nwidth | packa | packb | unpacka | unpackb
  | dflush | denc | ddec | dbackup | dresume | dstat
  | bwr | brd | balignw | balignr | setwp | setrp
  deriving DecidableEq, Repr

/-- The command formats of R71. -/
inductive Format where
  | f0 | f1 | f2 | f3 | fc0 | fc2 | fn0 | fn1 | ff2
  deriving DecidableEq, Repr

/-- The header bits a format shows as `0` (R71), as a mask. The opcode bits 31:24 are never among them. -/
def Format.zeroMask : Format → Word
  | .f0 => 0x00FFFFFF#32
  | .f1 => 0x00FFFFFF#32
  | .f2 => 0x00FFFFFF#32
  | .f3 => 0x00FFFFFF#32
  | .fc0 => 0x0000FFFF#32
  | .fc2 => 0x0000FFFF#32
  | .fn0 => 0x00FF00FF#32
  | .fn1 => 0x00FF00FF#32
  | .ff2 => 0x00FFFEFF#32

/-- The number of operand words of a format (R71). -/
def Format.operandWords : Format → Nat
  | .f0 => 0
  | .f1 => 1
  | .f2 => 2
  | .f3 => 3
  | .fc0 => 0
  | .fc2 => 2
  | .fn0 => 0
  | .fn1 => 1
  | .ff2 => 2

/-- The OPC column of R73. -/
def Op.code : Op → Nat
  | .nop => 0x00
  | .fdec => 0x10
  | .frec => 0x11
  | .fmul => 0x12
  | .fdiv => 0x13
  | .fpow2 => 0x14
  | .recon => 0x20
  | .resid => 0x21
  | .unres => 0x22
  | .nwidth => 0x23
  | .packa => 0x24
  | .packb => 0x25
  | .unpacka => 0x26
  | .unpackb => 0x27
  | .dflush => 0x30
  | .denc => 0x31
  | .ddec => 0x32
  | .dbackup => 0x33
  | .dresume => 0x34
  | .dstat => 0x35
  | .bwr => 0x40
  | .brd => 0x41
  | .balignw => 0x42
  | .balignr => 0x43
  | .setwp => 0x44
  | .setrp => 0x45

/-- The format column of R73. -/
def Op.format : Op → Format
  | .nop => .f0
  | .fdec => .f1
  | .frec => .f3
  | .fmul => .f2
  | .fdiv => .f2
  | .fpow2 => .f1
  | .recon => .f3
  | .resid => .f2
  | .unres => .f2
  | .nwidth => .ff2
  | .packa => .f2
  | .packb => .f3
  | .unpacka => .f1
  | .unpackb => .f2
  | .dflush => .fc0
  | .denc => .fc2
  | .ddec => .fc2
  | .dbackup => .fc0
  | .dresume => .fc0
  | .dstat => .fc0
  | .bwr => .fn1
  | .brd => .fn0
  | .balignw => .f0
  | .balignr => .f0
  | .setwp => .f1
  | .setrp => .f1

/-- Every row of R73, in the table's order. -/
def Op.all : List Op :=
  [.nop, .fdec, .frec, .fmul, .fdiv, .fpow2,
    .recon, .resid, .unres, .nwidth, .packa, .packb, .unpacka, .unpackb,
    .dflush, .denc, .ddec, .dbackup, .dresume, .dstat,
    .bwr, .brd, .balignw, .balignr, .setwp, .setrp]

/-- The row of R73 with the given OPC value; `none` for a reserved value (R75). -/
def Op.ofCode (n : Nat) : Option Op := Op.all.find? fun o => o.code == n

/-- Header bits 31:24, OPC (R70). -/
def headerOpc (h : Word) : Nat := (h.extractLsb' 24 8).toNat

/-- Header bits 23:16, CH (R70). -/
def headerCh (h : Word) : Nat := (h.extractLsb' 16 8).toNat

/-- Header bits 15:8, N (R70). -/
def headerN (h : Word) : Nat := (h.extractLsb' 8 8).toNat

/-- Header bit 8, the NWIDTH flag f (R71, format FF2). -/
def headerF (h : Word) : Bool := h.getLsbD 8

/-- The header check of R72: the row of R73 whose OPC the header holds, if no bit its format shows as `0` is 1. -/
def headerOp (h : Word) : Option Op :=
  match Op.ofCode (headerOpc h) with
  | none => none
  | some o => if h &&& o.format.zeroMask = 0#32 then some o else none

/-- "The length of a command is known from its header alone" (R72): the number of words of the command with header `h`;
an illegal header is taken alone. -/
def commandLength (h : Word) : Nat :=
  match headerOp h with
  | none => 1
  | some o => 1 + o.format.operandWords

/-- What reading a command from the front of a word stream gives (R72). -/
inductive Decoded where
  /-- A whole command, and the words after it. -/
  | ok (i : Instr) (rest : List Word)
  /-- The stream ends before the header or before the last operand word: the engine waits. -/
  | incomplete
  /-- The header is reserved or has a must-be-zero bit set (ILLEGAL_CMD, R75); no operand is consumed. -/
  | illegal (header : Word)
  deriving DecidableEq, Repr

/-- A command of one operand word OPA. -/
def take1 (f : Word → Instr) : List Word → Decoded
  | a :: rest => .ok (f a) rest
  | [] => .incomplete

/-- A command of two operand words OPA, OPB. -/
def take2 (f : Word → Word → Instr) : List Word → Decoded
  | a :: b :: rest => .ok (f a b) rest
  | _ => .incomplete

/-- A command of three operand words OPA, OPB, OPC. -/
def take3 (f : Word → Word → Word → Instr) : List Word → Decoded
  | a :: b :: c :: rest => .ok (f a b c) rest
  | _ => .incomplete

/-- The operand words of a command whose header passed the header check: "named OPA, OPB, OPC in the order they follow
the header" (R70, R73). -/
def decodeOperands (o : Op) (h : Word) (ops : List Word) : Decoded :=
  match o with
  | .nop => .ok .nop ops
  | .fdec => take1 .fdec ops
  | .frec => take3 .frec ops
  | .fmul => take2 .fmul ops
  | .fdiv => take2 .fdiv ops
  | .fpow2 => take1 .fpow2 ops
  | .recon => take3 .recon ops
  | .resid => take2 .resid ops
  | .unres => take2 .unres ops
  | .nwidth => take2 (.nwidth (headerF h)) ops
  | .packa => take2 .packa ops
  | .packb => take3 .packb ops
  | .unpacka => take1 .unpacka ops
  | .unpackb => take2 .unpackb ops
  | .dflush => .ok (.dflush (headerCh h)) ops
  | .denc => take2 (.denc (headerCh h)) ops
  | .ddec => take2 (.ddec (headerCh h)) ops
  | .dbackup => .ok (.dbackup (headerCh h)) ops
  | .dresume => .ok (.dresume (headerCh h)) ops
  | .dstat => .ok (.dstat (headerCh h)) ops
  | .bwr => take1 (.bwr (headerN h)) ops
  | .brd => .ok (.brd (headerN h)) ops
  | .balignw => .ok .balignw ops
  | .balignr => .ok .balignr ops
  | .setwp => take1 .setwp ops
  | .setrp => take1 .setrp ops

/-- Reads one command from the front of a word stream (R72): the header is checked first, so an illegal header is
rejected whatever follows it. -/
def decode : List Word → Decoded
  | [] => .incomplete
  | h :: ops =>
    match headerOp h with
    | none => .illegal h
    | some o => decodeOperands o h ops

/-- The row of R73 a command belongs to. -/
def Instr.op : Instr → Op
  | .nop => .nop
  | .fdec _ => .fdec
  | .frec _ _ _ => .frec
  | .fmul _ _ => .fmul
  | .fdiv _ _ => .fdiv
  | .fpow2 _ => .fpow2
  | .recon _ _ _ => .recon
  | .resid _ _ => .resid
  | .unres _ _ => .unres
  | .nwidth _ _ _ => .nwidth
  | .packa _ _ => .packa
  | .packb _ _ _ => .packb
  | .unpacka _ => .unpacka
  | .unpackb _ _ => .unpackb
  | .dflush _ => .dflush
  | .denc _ _ _ => .denc
  | .ddec _ _ _ => .ddec
  | .dbackup _ => .dbackup
  | .dresume _ => .dresume
  | .dstat _ => .dstat
  | .bwr _ _ => .bwr
  | .brd _ => .brd
  | .balignw => .balignw
  | .balignr => .balignr
  | .setwp _ => .setwp
  | .setrp _ => .setrp

/-- A header word from its fields (R70); bits 7:0 are zero. -/
def mkHeader (opc ch n : Nat) : Word :=
  BitVec.ofNat 8 opc ++ BitVec.ofNat 8 ch ++ BitVec.ofNat 8 n ++ 0#8

/-- The CH field of a command's header: 0 for every command that is no MDC command (R70). -/
def Instr.chField : Instr → Nat
  | .dflush ch => ch
  | .denc ch _ _ => ch
  | .ddec ch _ _ => ch
  | .dbackup ch => ch
  | .dresume ch => ch
  | .dstat ch => ch
  | .nop => 0
  | .fdec _ => 0
  | .frec _ _ _ => 0
  | .fmul _ _ => 0
  | .fdiv _ _ => 0
  | .fpow2 _ => 0
  | .recon _ _ _ => 0
  | .resid _ _ => 0
  | .unres _ _ => 0
  | .nwidth _ _ _ => 0
  | .packa _ _ => 0
  | .packb _ _ _ => 0
  | .unpacka _ => 0
  | .unpackb _ _ => 0
  | .bwr _ _ => 0
  | .brd _ => 0
  | .balignw => 0
  | .balignr => 0
  | .setwp _ => 0
  | .setrp _ => 0

/-- The N field of a command's header: the bit count of BWR and BRD, the flag of NWIDTH in its bit 0, else 0 (R70). -/
def Instr.nField : Instr → Nat
  | .bwr n _ => n
  | .brd n => n
  | .nwidth f _ _ => f.toNat
  | .nop => 0
  | .fdec _ => 0
  | .frec _ _ _ => 0
  | .fmul _ _ => 0
  | .fdiv _ _ => 0
  | .fpow2 _ => 0
  | .recon _ _ _ => 0
  | .resid _ _ => 0
  | .unres _ _ => 0
  | .packa _ _ => 0
  | .packb _ _ _ => 0
  | .unpacka _ => 0
  | .unpackb _ _ => 0
  | .dflush _ => 0
  | .denc _ _ _ => 0
  | .ddec _ _ _ => 0
  | .dbackup _ => 0
  | .dresume _ => 0
  | .dstat _ => 0
  | .balignw => 0
  | .balignr => 0
  | .setwp _ => 0
  | .setrp _ => 0

/-- A command's header word (R70); this is what an exception of the command records in ERRINFO (R226). -/
def Instr.header (i : Instr) : Word := mkHeader i.op.code i.chField i.nField

/-- A command's operand words, in the order they follow the header (R73). -/
def Instr.operands : Instr → List Word
  | .nop => []
  | .fdec x => [x]
  | .frec sg e m => [sg, e, m]
  | .fmul a b => [a, b]
  | .fdiv x y => [x, y]
  | .fpow2 sh => [sh]
  | .recon q sh a => [q, sh, a]
  | .resid x y => [x, y]
  | .unres y d => [y, d]
  | .nwidth _ q hb => [q, hb]
  | .packa x idx => [x, idx]
  | .packb d w idx => [d, w, idx]
  | .unpacka idx => [idx]
  | .unpackb idx w => [idx, w]
  | .dflush _ => []
  | .denc _ base n => [base, n]
  | .ddec _ base n => [base, n]
  | .dbackup _ => []
  | .dresume _ => []
  | .dstat _ => []
  | .bwr _ v => [v]
  | .brd _ => []
  | .balignw => []
  | .balignr => []
  | .setwp p => [p]
  | .setrp p => [p]

/-- The words of a command (R70). -/
def encode (i : Instr) : List Word := i.header :: i.operands

/-- The four words (the longest command has a header and three operand words, R70) held by the low `nbits` bits of `w`,
the first word in the least significant bits; every bit above `nbits` is zero. -/
def tableWords (nbits w : Nat) : List Word :=
  let v := w % 2 ^ nbits
  [BitVec.ofNat 32 v, BitVec.ofNat 32 (v / 2 ^ 32), BitVec.ofNat 32 (v / 2 ^ 64), BitVec.ofNat 32 (v / 2 ^ 96)]

/-- The command the decoder reads from an opcode-table word (operand words above `nbits` are zero). -/
def decodeTableWord (nbits w : Nat) : Option Instr :=
  match decode (tableWords nbits w) with
  | .ok i _ => some i
  | .incomplete => none
  | .illegal _ => none

end Sys2Proof
end

