-- ==== Sys2Proof/Config.lean ====
section
/-! DEFINITION. What is fixed for a machine: the parameters every implementation shares (R3), the parameters an
implementation states (R4), the identification value (R22), and the free values the spec leaves open (93, "any value"). -/

namespace Sys2Proof

namespace Config

/-- `CODE_BITS_INIT` (R3): the code width of a flushed dictionary. -/
def codeBitsInit : Nat := 9

/-- `CODE_BITS_MAX` (R3): the largest code width. -/
def codeBitsMax : Nat := 15

/-- `FIRST_CODE` (R3): the first string code. -/
def firstCode : Nat := 258

/-- `CAND_BOUND` (R3): how many matching children of one trie node the encoder explores. -/
def candBound : Nat := 4

/-- The FLUSH control code (R161, K5). -/
def flushCode : Nat := 256

/-- The FREEZE control code (R161, K5). -/
def freezeCode : Nat := 257

/-- The constant of the ID register (R22): "MLZ" and the interface revision 1. -/
def idValue : Word := 0x4D4C5A01#32

/-- The free value the spec calls "a draw" (R7's conventions in 93: `any value`). Draw number `k` of a run is `draw k`:
nothing constrains it. FREE VALUE, assumption 5. -/
opaque draw : Nat → Word

end Config

/-- The parameters of R4, which the source does not fix: "a model takes each as an argument". -/
structure Params where
  /-- `NCH`: dictionary instances, one per channel. -/
  nch : Nat
  /-- `SYM_DEPTH`: entries of the symbol memory. -/
  symDepth : Nat
  /-- `BIT_BYTES`: bytes of the bit memory. -/
  bitBytes : Nat
  /-- `FIFO_DEPTH`: words the command FIFO holds. -/
  fifoDepth : Nat
  /-- `BASE`: host address of the register window. -/
  base : Nat
  deriving DecidableEq, Repr

namespace Params

/-- The ranges R4 gives the parameters. -/
abbrev valid (p : Params) : Prop :=
  (1 ≤ p.nch ∧ p.nch ≤ 255) ∧ (1 ≤ p.symDepth ∧ p.symDepth ≤ 65536) ∧
    (1 ≤ p.bitBytes ∧ p.bitBytes ≤ 1048576) ∧ 4 ≤ p.fifoDepth ∧ p.base % 2 ^ 21 = 0

/-- The number of bit positions of the bit memory, `8 × BIT_BYTES`. -/
def bitLen (p : Params) : Nat := 8 * p.bitBytes

/-- The parameter values of the conventions of 95_test_vectors.md, with `BASE = 2^21`.
DESIGN CHOICE, assumption 1 (safe): every claim quantifies over `params`; only `State.reset` names these. -/
def standard : Params :=
  { nch := 4, symDepth := 1024, bitBytes := 256, fifoDepth := 64, base := 0x200000 }

end Params

end Sys2Proof
end

