-- ==== Sys2Proof/Machine/State.lean ====
section
/-! DEFINITION. The state of the MLZ-FPU block as plain data (10_state.md), the reasons a step can stop, and the state
after reset (R250). -/

namespace Sys2Proof.Machine

/-- The exception causes of R220. The FIFO_OVERFLOW cause is raised by a host write (R222), every other by a command. -/
inductive Cause where
  | illegalCmd | badChan | badOperand | symRange | bitRange | config | fifoOverflow
  | fduDomain
  | rcuDomain | rcuOrder | rcuRange
  | mdcCorrupt | mdcPoisoned | mdcNoSnap
  deriving DecidableEq, Repr

/-- One entry of a R228 fault log: the cause, and what ERRINFO and ERRSEQ received. -/
structure ExcRecord where
  cause : Cause
  info : Word
  seq : Word
  deriving DecidableEq, Repr

/-- A memory: (address, value) cells. The form is canonical: addresses strictly rise (`Memory.wf`). An address that is
not listed is unwritten and has no value (R37), so no cell can equal what an unlisted address reads as. -/
abbrev Memory (α : Type) := List (Nat × α)

/-- An entry of the symbol memory (R35): `sym: u8` and the mask width `width: u4`. -/
structure Sym where
  sym : Byte
  width : BitVec 4
  deriving DecidableEq, Repr

/-- A dictionary entry record (R31): parent code, appended byte, match length. -/
structure Entry where
  parent : Nat
  sym : Byte
  len : Nat
  deriving DecidableEq, Repr

/-- The fields ENT, NEXT, W and FRZ of a dictionary instance (R31). `ent` lists the codes that hold a record; every
other code is EMPTY. A snapshot (R33) is a copy of the same four fields. -/
structure Dict where
  ent : Memory Entry
  next : Nat
  w : Nat
  frz : Bool
  deriving DecidableEq, Repr

/-- The dictionary a flush leaves (R164, R31): every ENT EMPTY, NEXT = 258, W = 9, FRZ = 0. -/
def Dict.fresh : Dict := { ent := [], next := Config.firstCode, w := Config.codeBitsInit, frz := false }

/-- A dictionary instance `D[c]` with its POISON flag (R31, R167). -/
inductive Channel where
  /-- POISON = 0. -/
  | live (d : Dict)
  /-- POISON = 1: "the other fields of D[c] are unspecified (a model gives them no value)" (R167). -/
  | poisoned
  deriving DecidableEq, Repr

/-- What acts next. The block has two agents, a host and an engine (R2), and a reset input (R250): the agenda of the
state says in which order they act. Nothing constrains an agenda, so a claim about every state covers every
interleaving. -/
inductive Turn where
  /-- The host reads the 32-bit word at a host address (R7 `MemRead`). -/
  | hostRead (addr : Nat)
  /-- The host writes the 32-bit word at a host address (R7 `MemWrite`). -/
  | hostWrite (addr : Nat) (v : Word)
  /-- The platform asserts the reset input (R250). -/
  | resetInput
  /-- The engine assembles the next command and starts it: the command is then executing (R72), and a host turn that
  follows acts while it executes. -/
  | engineBegin
  /-- The engine ends the executing command; with none executing, it assembles the next command and runs it. -/
  | engineRun
  deriving DecidableEq, Repr

/-- The state of the machine: everything 10_state.md gives the block, and the model's own fields at the end. -/
structure State where
  /-- The implementation parameters (R4). No step changes them. -/
  params : Params
  /-- CTRL.IE_ERR (R23). -/
  ieErr : Bool
  /-- CTRL.IE_IDLE (R23). -/
  ieIdle : Bool
  /-- CFG.INTRES (R25), held as written. -/
  intres : BitVec 5
  /-- STATUS.ERR and STATUS.CAUSE (R24): `none` is ERR = 0 with CAUSE = 0, `some c` is ERR = 1 with the code of `c`. -/
  err : Option Cause
  /-- ERRINFO (R26). -/
  errinfo : Word
  /-- ERRSEQ (R26). -/
  errseq : Word
  /-- WPTR (R28): the bit-memory write position. -/
  wptr : Word
  /-- RPTR (R28): the bit-memory read position. -/
  rptr : Word
  /-- RES0 (R29). -/
  res0 : Word
  /-- RES1 (R29). -/
  res1 : Word
  /-- RES2 (R29). -/
  res2 : Word
  /-- RES3 (R29). -/
  res3 : Word
  /-- CMDCNT (R30): commands completed without an exception, modulo 2^32. -/
  cmdcnt : Word
  /-- `D[c]` for c = 0, 1, … (R31). -/
  dict : List Channel
  /-- `SNAP[c]` for c = 0, 1, … (R33): `none` is INVALID. -/
  snap : List (Option Dict)
  /-- The symbol memory SYM (R35), by entry index. -/
  sym : Memory Sym
  /-- The bit memory BIT (R36), by bit position: the engine accesses it one bit at a time (R55). -/
  bit : Memory Bool
  /-- The command FIFO (R38), oldest word first. -/
  fifo : List Word
  /-- The command assembler (R38): the words taken so far of a command whose operands are not all there. -/
  assembler : List Word
  /-- The command that is executing (R24, R72), when a host turn can come before its end. -/
  running : Option Instr
  /-- The fault log of R228, oldest record first. The model's record: "no later step clears" it. -/
  log : List ExcRecord
  /-- MODEL'S OWN: how many draws (free values, `Config.draw`) the run has used. -/
  draws : Nat
  /-- MODEL'S OWN: what the host's latest read returned. -/
  rdata : Word
  /-- MODEL'S OWN: the turns to come; when it is empty the engine acts. -/
  agenda : List Turn
  deriving DecidableEq, Repr

/-- Why the machine stops. None of these is an exception of the hardware (those are states with ERR = 1). -/
inductive Fault where
  /-- R37's model fault READ_UNWRITTEN: an engine read (by DENC, UNPACKA, UNPACKB, DDEC or BRD) of a SYM entry or a BIT
  bit that nothing has written since reset. Safe: the hardware goes on with whatever the memory holds. -/
  | readUnwritten
  /-- R52, U13 (`stuck`): a host turn at an address that is no multiple of 4. Safe: the spec has no such move. -/
  | hostMisaligned
  /-- R60, U8 (`stuck`): a host write to CFG, SYM or BIT while STATUS.IDLE = 0. Safe: the spec has no such move. -/
  | hostWriteBusy
  /-- A host turn outside the 2^21 bytes at BASE that the block decodes (R20). Safe: no access of this block. -/
  | hostOutsideWindow
  deriving DecidableEq, Repr

/-- Why a command has no meaning in this model. -/
inductive Refusal where
  /-- Raised by an arm of `exec` whose command has no meaning yet; no arm uses it now. Safe. -/
  | notModelled (mnemonic : String)
  deriving DecidableEq, Repr

/-- The outcome of a step or of a command. -/
abbrev Result := Host.Outcome State Fault Refusal

/-- The state after the reset input (R250), for a machine with parameters `p`; SYM and BIT are unwritten (R37). -/
def State.initial (p : Params) : State :=
  { params := p
    ieErr := false, ieIdle := false
    intres := 24#5
    err := none
    errinfo := 0#32, errseq := 0#32
    wptr := 0#32, rptr := 0#32
    res0 := 0#32, res1 := 0#32, res2 := 0#32, res3 := 0#32
    cmdcnt := 0#32
    dict := List.replicate p.nch (.live Dict.fresh)
    snap := List.replicate p.nch none
    sym := [], bit := []
    fifo := [], assembler := [], running := none
    log := []
    draws := 0, rdata := 0#32, agenda := [] }

/-- The machine right after reset (R250), at the parameter values of 95_test_vectors.md (assumption 1). -/
def State.reset : State := State.initial Params.standard

end Sys2Proof.Machine
end

