-- ==== Sys2Proof/Machine/Flags.lean ====
section
/-! DEFINITION. The flags of the block: it has no condition flags (R39); STATUS (R24), the cause codes (R220) and the
interrupt output (R227) are computed here from the state. -/

namespace Sys2Proof.Machine

/-- The code of a cause, STATUS.CAUSE (R220). -/
def Cause.code : Cause → BitVec 8
  | .illegalCmd => 0x01#8
  | .badChan => 0x02#8
  | .badOperand => 0x03#8
  | .symRange => 0x04#8
  | .bitRange => 0x05#8
  | .config => 0x06#8
  | .fifoOverflow => 0x07#8
  | .fduDomain => 0x10#8
  | .rcuDomain => 0x20#8
  | .rcuOrder => 0x21#8
  | .rcuRange => 0x22#8
  | .mdcCorrupt => 0x30#8
  | .mdcPoisoned => 0x31#8
  | .mdcNoSnap => 0x32#8

/-- STATUS.IDLE (R24, R72): no command is executing or being assembled, and the command FIFO holds no word. -/
def State.idle (s : State) : Bool := s.running.isNone && s.assembler.isEmpty && s.fifo.isEmpty

/-- STATUS.FULL (R24): the command FIFO holds FIFO_DEPTH words. -/
def State.full (s : State) : Bool := s.params.fifoDepth ≤ s.fifo.length

/-- STATUS.CAUSE (R24): 0 while ERR = 0. -/
def State.causeCode (s : State) : BitVec 8 :=
  match s.err with
  | none => 0#8
  | some c => c.code

/-- The STATUS word (R24). -/
def State.statusWord (s : State) : Word :=
  0#16 ++ s.causeCode ++ 0#5 ++ BitVec.ofBool s.full ++ BitVec.ofBool s.err.isSome ++ BitVec.ofBool s.idle

/-- The CTRL word as the host reads it (R23): the action bits read 0. -/
def State.ctrlWord (s : State) : Word := 0#30 ++ BitVec.ofBool s.ieIdle ++ BitVec.ofBool s.ieErr

/-- The CFG word as the host reads it (R25). -/
def State.cfgWord (s : State) : Word := 0#27 ++ s.intres

/-- The interrupt output IRQ (R227). -/
def State.irq (s : State) : Bool := (s.ieErr && s.err.isSome) || (s.ieIdle && s.idle)

end Sys2Proof.Machine
end

