-- ==== Sys2Proof/Machine/Operands.lean ====
section
/-! DEFINITION. The operand forms of R74 and the value functions the commands share: integers as bits, bit fields,
binary32 words as triples (R8, R100, R101), masked bytes, residual symbols (R138). -/

namespace Sys2Proof.Machine

/-! ### Integers and bits (R6) -/

/-- `bitlen(v)` of R6: the number of bits of the shortest binary representation. -/
def bitlen (v : Nat) : Nat := if v = 0 then 0 else Nat.log2 v + 1

/-- `ceil_div(a, b)` of R6. -/
def ceilDiv (a b : Nat) : Nat := (a + b - 1) / b

/-- Rounds `n / d` to the nearest integer, ties to even (`round_half_even` of R106). -/
def roundHalfEven (n d : Nat) : Nat :=
  let q := n / d
  let r := n % d
  if d < 2 * r ∨ (2 * r = d ∧ q % 2 = 1) then q + 1 else q

/-- The `n` low bits of `v`, most significant first (R53, R201). -/
def bitsMsb (n v : Nat) : List Bool := (List.range n).map fun j => v.testBit (n - 1 - j)

/-- The `n` low bits of `v`, least significant first (R165). -/
def bitsLsb (n v : Nat) : List Bool := (List.range n).map fun j => v.testBit j

/-- The number a list of bits stands for, most significant first (R201 `getbits`). -/
def valMsb (bs : List Bool) : Nat := bs.foldl (fun a b => 2 * a + b.toNat) 0

/-- The number a list of bits stands for, least significant first (R166). -/
def valLsb : List Bool → Nat
  | [] => 0
  | b :: bs => b.toNat + 2 * valLsb bs

/-- `top_w(b) = b >> (8 - w)` (glossary, R168). -/
def topBits (w : Nat) (b : Byte) : Nat := b.toNat / 2 ^ (8 - w)

/-! ### binary32 words and decomposed triples (R8) -/

/-- A Float32Value (R8): sign, exponent, mantissa. -/
structure Triple where
  sign : Bool
  exp : Int
  mant : Nat
  deriving DecidableEq, Repr

/-- The sign bit, bit 31 (R8). -/
def signBit (x : Word) : Bool := x.getLsbD 31

/-- The biased exponent field E, bits 30:23 (R8). -/
def expField (x : Word) : Nat := (x.extractLsb' 23 8).toNat

/-- The fraction field F, bits 22:0 (R8). -/
def fracField (x : Word) : Nat := (x.extractLsb' 0 23).toNat

/-- The binary32 word `{s, E, F}` (R8). -/
def packWord (s : Bool) (e f : Nat) : Word := BitVec.ofBool s ++ BitVec.ofNat 8 e ++ BitVec.ofNat 23 f

/-- `decompose` (R100). -/
def decompose (x : Word) : Triple :=
  if expField x = 0 then { sign := signBit x, exp := -127, mant := fracField x }
  else if expField x = 255 then { sign := signBit x, exp := 128, mant := fracField x }
  else { sign := signBit x, exp := (expField x : Int) - 127, mant := 2 ^ 23 + fracField x }

/-- The exponent and mantissa conditions of a legal triple (R101). -/
def legalExpMant (e : Int) (m : Nat) : Bool :=
  (e = -127 ∧ m < 2 ^ 23) ∨ (-126 ≤ e ∧ e ≤ 127 ∧ 2 ^ 23 ≤ m ∧ m < 2 ^ 24) ∨ (e = 128 ∧ m < 2 ^ 23)

/-- `recompose` (R101). Only legal triples have one; every caller checks or makes a legal triple. -/
def recompose (t : Triple) : Word :=
  if t.exp = -127 then packWord t.sign 0 t.mant
  else if t.exp = 128 then packWord t.sign 255 t.mant
  else packWord t.sign (t.exp + 127).toNat t.mant

/-- R104: e = -127 and m = 0. -/
def Triple.isZero (t : Triple) : Bool := t.exp = -127 ∧ t.mant = 0

/-- R104: e = -127 and m ≠ 0. -/
def Triple.isSubnormal (t : Triple) : Bool := t.exp = -127 ∧ t.mant ≠ 0

/-- R104: e = 128. -/
def Triple.isSpecial (t : Triple) : Bool := t.exp = 128

/-- A binary32 word is normal for the RCU when E is in 1..254 (R130). -/
def isNormalWord (x : Word) : Bool := 1 ≤ expField x ∧ expField x ≤ 254

/-- `int_to_binary32(q)` for |q| < 2^24 (R130). -/
def intToBinary32 (q : Int) : Word :=
  if q = 0 then 0#32
  else
    let l := bitlen q.natAbs
    recompose { sign := q < 0, exp := (l : Int) - 1, mant := q.natAbs * 2 ^ (24 - l) }

/-- A sign as a result word (`zext_32(s)`, R102, R105). -/
def signWord (s : Bool) : Word := BitVec.ofNat 32 s.toNat

/-! ### Residual symbols (R138) -/

/-- `hb(D)` (R130): the number of low-order bytes that hold `d`. -/
def highestByte (d : Nat) : Nat :=
  if d = 0 then 0 else if d < 2 ^ 8 then 1 else if d < 2 ^ 16 then 2 else 3

/-- `nsym(W)` (R138). -/
def nsym (w : Nat) : Nat := ceilDiv w 8

/-- The symbols of a residual `d` of width `w`, first to last (R138). -/
def residualSyms (d w : Nat) : List Sym :=
  let n := nsym w
  let r := w - 8 * (n - 1)
  (List.range n).map fun j =>
    if j = 0 then
      { sym := BitVec.ofNat 8 ((d / 2 ^ (8 * (n - 1))) * 2 ^ (8 - r)), width := BitVec.ofNat 4 r }
    else { sym := BitVec.ofNat 8 (d / 2 ^ (8 * (n - 1 - j))), width := 8#4 }

/-- The four symbols of a verbatim word, big-endian, every width 8 (R139). -/
def wordSyms (x : Word) : List Sym :=
  [{ sym := x.extractLsb' 24 8, width := 8#4 }, { sym := x.extractLsb' 16 8, width := 8#4 },
    { sym := x.extractLsb' 8 8, width := 8#4 }, { sym := x.extractLsb' 0 8, width := 8#4 }]

/-- The residual of width `w` that a list of symbol bytes stands for (R142): the top `r` bits of the first byte, then
whole bytes. -/
def residualOfBytes (w : Nat) : List Byte → Nat
  | [] => 0
  | b :: bs => bs.foldl (fun d c => d * 2 ^ 8 + c.toNat) (b.toNat / 2 ^ (8 - (w - 8 * (nsym w - 1))))

end Sys2Proof.Machine
end

