-- ==== Sys2Proof/Machine/Ops.lean ====
section
/-! DEFINITION. The named operations over memories and registers, completing a command, taking an exception (R226) and
returning from one (R230), and reset (R250). -/

namespace Sys2Proof.Machine

/-! ### Memories (R37, R55) -/

/-- The canonical form: addresses strictly rise. -/
abbrev Memory.wf {α : Type} (m : Memory α) : Prop := m.Pairwise fun a b => a.1 < b.1

/-- The value at an address; `none` where nothing has been written (R37). -/
def Memory.read {α : Type} : Memory α → Nat → Option α
  | [], _ => none
  | (a, v) :: m, k => if a = k then some v else Memory.read m k

/-- Stores a value at an address and keeps the canonical form. -/
def Memory.write {α : Type} : Memory α → Nat → α → Memory α
  | [], k, v => [(k, v)]
  | (a, x) :: m, k, v =>
    if k < a then (k, v) :: (a, x) :: m
    else if k = a then (k, v) :: m
    else (a, x) :: Memory.write m k v

/-- Stores a list of values at consecutive addresses from `k`. -/
def Memory.writeList {α : Type} : Memory α → Nat → List α → Memory α
  | m, _, [] => m
  | m, k, v :: vs => Memory.writeList (m.write k v) (k + 1) vs

/-- Reads `n` consecutive addresses from `k`; `none` when one of them is unwritten. -/
def Memory.readList {α : Type} (m : Memory α) : Nat → Nat → Option (List α)
  | _, 0 => some []
  | k, n + 1 =>
    match m.read k with
    | none => none
    | some v => (Memory.readList m (k + 1) n).map (v :: ·)

/-- Makes the `n` addresses from `k` unwritten (U4). -/
def Memory.eraseRange {α : Type} (m : Memory α) (k n : Nat) : Memory α := m.filter fun c => c.1 < k || k + n ≤ c.1

/-- Makes every address from `k` on unwritten (U5). -/
def Memory.eraseFrom {α : Type} (m : Memory α) (k : Nat) : Memory α := m.filter fun c => c.1 < k

/-! ### Registers -/

/-- `RES[0] <- v` (R7). -/
def State.setRes0 (s : State) (v : Word) : State := { s with res0 := v }

/-- `RES[1] <- v` (R7). -/
def State.setRes1 (s : State) (v : Word) : State := { s with res1 := v }

/-- `RES[2] <- v` (R7). -/
def State.setRes2 (s : State) (v : Word) : State := { s with res2 := v }

/-- `RES[3] <- v` (R7). -/
def State.setRes3 (s : State) (v : Word) : State := { s with res3 := v }

/-- `WPTR <- v` (R28). -/
def State.setWptr (s : State) (v : Word) : State := { s with wptr := v }

/-- `RPTR <- v` (R28). -/
def State.setRptr (s : State) (v : Word) : State := { s with rptr := v }

/-- Replaces the symbol memory. -/
def State.setSym (s : State) (m : Memory Sym) : State := { s with sym := m }

/-- Replaces the bit memory. -/
def State.setBit (s : State) (m : Memory Bool) : State := { s with bit := m }

/-- `D[c] <- ch` (R31). -/
def State.setDict (s : State) (c : Nat) (ch : Channel) : State := { s with dict := s.dict.set c ch }

/-- `SNAP[c] <- d` (R33). -/
def State.setSnap (s : State) (c : Nat) (d : Option Dict) : State := { s with snap := s.snap.set c d }

/-- Uses `n` draws (free values). -/
def State.useDraws (s : State) (n : Nat) : State := { s with draws := s.draws + n }

/-- CMDCNT counts a completed command, modulo 2^32 (R30). -/
def State.count (s : State) : State := { s with cmdcnt := s.cmdcnt + 1#32 }

/-- `D[c]`. A channel below NCH has an instance (the length of `dict` is NCH, `State.Inv`). -/
def State.channel (s : State) (c : Nat) : Channel := s.dict.getD c (.live Dict.fresh)

/-- `SNAP[c]`; `none` is INVALID. -/
def State.snapshot (s : State) (c : Nat) : Option Dict := s.snap.getD c none

/-- The number of bit positions of the bit memory. -/
def State.bitLen (s : State) : Nat := s.params.bitLen

/-! ### Ending a command -/

/-- A command completes without an exception (R30). -/
def complete (s : State) : Result := .next s.count

/-- Exception entry (R226), when ERR = 0: ERR, CAUSE, ERRINFO and ERRSEQ are written, the FIFO and the assembler are
discarded, the fault log grows (R228). While ERR = 1 no second exception is recorded (R222, R224). -/
def State.takeException (s : State) (c : Cause) (info : Word) : State :=
  if s.err.isSome then s
  else
    { s with
      err := some c
      errinfo := info
      errseq := s.cmdcnt
      fifo := []
      assembler := []
      log := s.log ++ [{ cause := c, info := info, seq := s.cmdcnt }] }

/-- The command `i` raises the cause `c` in the state `s`: it is not counted, and ERRINFO receives its header (R225,
R226). -/
def raise (i : Instr) (c : Cause) (s : State) : Result := .next (s.takeException c i.header)

/-- Return from an exception, the action of CTRL.CLRERR (R230). -/
def State.clearError (s : State) : State := { s with err := none }

/-! ### Reset (R250) -/

/-- The effect of a reset on everything but SYM and BIT, which the caller gives. The fault log is not cleared (R228);
the parameters and the model's own fields stay. -/
def State.afterReset (s : State) (sym : Memory Sym) (bit : Memory Bool) : State :=
  { State.initial s.params with
    sym := sym
    bit := bit
    log := s.log
    draws := s.draws
    rdata := s.rdata
    agenda := s.agenda }

/-- The reset input (R250): SYM and BIT are unwritten. -/
def State.resetInput (s : State) : State := s.afterReset [] []

/-- CTRL.SOFTRESET (R250): SYM and BIT stay when it is written while IDLE = 1; otherwise the command is abandoned and
SYM and BIT are unwritten (for IDLE = 0 with no command executing, assumption 8). -/
def State.softReset (s : State) : State := if s.idle then s.afterReset s.sym s.bit else s.afterReset [] []

end Sys2Proof.Machine
end

