-- ==== Sys2Proof/Machine/BitPort.lean ====
section
/-! DEFINITION. The bit port (43_bitio.md): NOP, BWR, BRD, BALIGNW, BALIGNR, SETWP, SETRP. -/

namespace Sys2Proof.Machine

/-- `(8 - (p mod 8)) mod 8` (R204, R205): the bits from `p` to the next byte boundary. -/
def padBits (p : Nat) : Nat := (8 - p % 8) % 8

/-- NOP (R200): "writes nothing except that CMDCNT counts it". -/
def execNop (s : State) : Result := complete s

/-- BWR (R202). -/
def execBwr (n : Nat) (v : Word) (s : State) : Result :=
  if n < 1 ∨ 32 < n then raise (.bwr n v) .badOperand s
  else if s.bitLen < s.wptr.toNat + n then raise (.bwr n v) .bitRange s
  else
    complete ((s.setBit (s.bit.writeList s.wptr.toNat (bitsMsb n v.toNat))).setWptr
      (BitVec.ofNat 32 (s.wptr.toNat + n)))

/-- BRD (R203). An unwritten bit is the model fault of R37. -/
def execBrd (n : Nat) (s : State) : Result :=
  if n < 1 ∨ 32 < n then raise (.brd n) .badOperand s
  else if s.bitLen < s.rptr.toNat + n then raise (.brd n) .bitRange s
  else
    match s.bit.readList s.rptr.toNat n with
    | none => .fault .readUnwritten
    | some bs =>
      complete ((s.setRes0 (BitVec.ofNat 32 (valMsb bs))).setRptr (BitVec.ofNat 32 (s.rptr.toNat + n)))

/-- BALIGNW (R204). -/
def execBalignw (s : State) : Result :=
  let k := padBits s.wptr.toNat
  if s.bitLen < s.wptr.toNat + k then raise .balignw .bitRange s
  else
    complete (((s.setBit (s.bit.writeList s.wptr.toNat (bitsMsb k 0))).setWptr
      (BitVec.ofNat 32 (s.wptr.toNat + k))).setRes0 (BitVec.ofNat 32 k))

/-- BALIGNR (R205): the skipped bits are not read. -/
def execBalignr (s : State) : Result :=
  let k := padBits s.rptr.toNat
  complete ((s.setRptr (BitVec.ofNat 32 (s.rptr.toNat + k))).setRes0 (BitVec.ofNat 32 k))

/-- SETWP (R206). -/
def execSetwp (pos : Word) (s : State) : Result :=
  if s.bitLen < pos.toNat then raise (.setwp pos) .bitRange s
  else complete (s.setWptr pos)

/-- SETRP (R207). -/
def execSetrp (pos : Word) (s : State) : Result :=
  if s.bitLen < pos.toNat then raise (.setrp pos) .bitRange s
  else complete (s.setRptr pos)

end Sys2Proof.Machine
end

