-- ==== Sys2Proof/Machine/Mdc.lean ====
section
/-! DEFINITION. The MDC (42_mdc.md): codes and dictionary primitives (R160 to R169) and the commands DFLUSH, DENC, DDEC,
DBACKUP, DRESUME, DSTAT. -/

namespace Sys2Proof.Machine

/-! ### Dictionary primitives -/

/-- `len(v)` (R160): 1 for a literal, the record's length for a string code. -/
def Dict.codeLen (d : Dict) (v : Nat) : Nat :=
  match d.ent.read v with
  | none => 1
  | some e => e.len

/-- Walks the parent links of a code (R162), at most `fuel` of them. -/
def expandFrom (ent : Memory Entry) : Nat → Nat → Option (List Byte)
  | 0, v => if v < 256 then some [BitVec.ofNat 8 v] else none
  | fuel + 1, v =>
    if v < 256 then some [BitVec.ofNat 8 v]
    else
      match ent.read v with
      | none => none
      | some e => (expandFrom ent fuel e.parent).map fun bs => bs ++ [e.sym]

/-- `expansion(v)` (R162). A parent is a smaller code (R32), so `v` links are enough. `none` for a code that is neither
a literal nor a string code with a record, which R32 rules out where R162 is used. -/
def Dict.expansion (d : Dict) (v : Nat) : Option (List Byte) := expandFrom d.ent v v

/-- `create(c, p, b)` (R163). -/
def Dict.create (d : Dict) (p : Nat) (b : Byte) : Dict :=
  { d with ent := d.ent.write d.next { parent := p, sym := b, len := d.codeLen p + 1 }, next := d.next + 1 }

/-- The BUMP code of the current width, `2^W - 1` (R161). -/
def Dict.bumpCode (d : Dict) : Nat := 2 ^ d.w - 1

/-- `emit` (R165): the bits of a code at the current width, least significant bit first. -/
def Dict.emit (d : Dict) (v : Nat) : List Bool := bitsLsb d.w v

/-! ### Encoder -/

/-- The candidates of R168 for one symbol below a node: the matching children in ascending order, the first
`CAND_BOUND` of them. -/
def candidates (ent : Memory Entry) (node : Nat) (x : Sym) : List Nat :=
  ((ent.filter fun c => c.2.parent == node && topBits x.width.toNat c.2.sym == topBits x.width.toNat x.sym).map
    fun c => c.1).take Config.candBound

/-- `explore(node, depth)` of R168 over the symbols that follow; `best` is (best_code, best_len). -/
def explore (ent : Memory Entry) : List Sym → Nat → Nat → Nat × Nat → Nat × Nat
  | [], _, _, best => best
  | x :: xs, node, depth, best =>
    (candidates ent node x).foldl
      (fun b k => explore ent xs k (depth + 1) (if b.2 < depth + 1 then (k, depth + 1) else b)) best

/-- `match` of R168 for the input symbol `x` and the symbols after it: (best_code, best_len). -/
def longestMatch (ent : Memory Entry) (x : Sym) (xs : List Sym) : Nat × Nat :=
  explore ent xs x.sym.toNat 1 (x.sym.toNat, 1)

/-- The encoder growth rule (R169), for `NEXT == 2^W - 1`: the control code it emits, and the dictionary after it. -/
def Dict.grow (d : Dict) : List Bool × Dict :=
  if d.next = d.bumpCode then
    if d.w < Config.codeBitsMax then (d.emit d.bumpCode, { d with w := d.w + 1 })
    else (d.emit Config.flushCode, Dict.fresh)
  else ([], d)

/-- `create`, then the growth rule (R170). -/
def Dict.createAndGrow (d : Dict) (code : Nat) (b : Byte) : List Bool × Dict := (d.create code b).grow

/-- What the encoder does with `NEXT == 2^W - 1` before it creates an entry, which only a DDEC leaves so: the growth rule that
is due comes first, so that the entry has a code of the wider dictionary; after FLUSH, which forgets the previous code, none is
made. R170's `create` at `2^W - 1` would leave the ranges of R31, R32 and C7 (DEDUCED, assumption 13). -/
def Dict.learnFull (d : Dict) (code : Nat) (b : Byte) : List Bool × Dict :=
  if d.w < Config.codeBitsMax then
    let r := d.grow.2.createAndGrow code b
    (d.grow.1 ++ r.1, r.2)
  else d.grow

/-- What the encoder does between two codes of a call (R170): with FRZ = 0 it creates an entry and applies the growth
rule. -/
def Dict.learn (d : Dict) (code : Nat) (b : Byte) : List Bool × Dict :=
  if d.frz then ([], d)
  else if d.next = d.bumpCode then d.learnFull code b
  else d.createAndGrow code b

/-- The loop of R170 over the symbols still to encode: the bits emitted and the dictionary after. Each code covers at
least one symbol, so as many rounds as symbols are enough. -/
def encodeSyms : Nat → List Sym → Dict → List Bool × Dict
  | 0, _, d => ([], d)
  | _ + 1, [], d => ([], d)
  | fuel + 1, x :: xs, d =>
    let m := longestMatch d.ent x xs
    match (x :: xs).drop m.2 with
    | [] => (d.emit m.1, d)
    | y :: ys =>
      let g := d.learn m.1 y.sym
      let r := encodeSyms fuel (y :: ys) g.2
      (d.emit m.1 ++ g.1 ++ r.1, r.2)

/-- The code sequence of a DENC call over the symbols `xs` (R170). -/
def Dict.encode (d : Dict) (xs : List Sym) : List Bool × Dict := encodeSyms xs.length xs d

/-- Why the reading of R170's symbols stops: an unwritten entry (R37), or a width outside 1..8. -/
inductive SymStop where
  | unwritten
  | badWidth
  deriving DecidableEq, Repr

/-- The symbols DENC reads, in order, with the width check of R170. -/
def readSymbols (m : Memory Sym) : Nat → Nat → Except SymStop (List Sym)
  | _, 0 => .ok []
  | i, n + 1 =>
    match m.read i with
    | none => .error .unwritten
    | some x =>
      if 1 ≤ x.width.toNat ∧ x.width.toNat ≤ 8 then
        match readSymbols m (i + 1) n with
        | .error e => .error e
        | .ok xs => .ok (x :: xs)
      else .error .badWidth

/-! ### Decoder -/

/-- The local variables of R171, with the dictionary: the read position, the previous code, the bytes out so far. -/
structure Decoding where
  p : Nat
  d : Dict
  prev : Option Nat
  out : List Byte
  deriving DecidableEq, Repr

/-- How the loop of R171 ends. -/
inductive DecodeEnd where
  /-- `n` symbols are out. -/
  | done (t : Decoding)
  /-- A fatal error (R167) with its cause. -/
  | fatal (c : Cause)
  /-- An unwritten bit was read (R37). -/
  | unwritten
  deriving DecidableEq, Repr

/-- The bytes a literal or string code stands for in R171, with the `v == NEXT` case; `none` is MDC_CORRUPT. -/
def codeBytes (d : Dict) (prev : Option Nat) (v : Nat) : Option (List Byte) :=
  if v < 256 then some [BitVec.ofNat 8 v]
  else if Config.firstCode ≤ v ∧ v < d.next then d.expansion v
  else if v = d.next ∧ d.frz = false then
    match prev with
    | none => none
    | some q =>
      match d.expansion q with
      | none => none
      | some bs => some (bs ++ [bs.headD 0#8])
  else none

/-- The entry the decoder creates after a code whose bytes are `bs` (R171); `none` is MDC_CORRUPT. -/
def decoderLearn (d : Dict) (prev : Option Nat) (bs : List Byte) : Option Dict :=
  match prev with
  | none => some d
  | some q =>
    if d.frz then some d
    else if d.bumpCode ≤ d.next then none
    else some (d.create q (bs.headD 0#8))

/-- The body of R171's loop after `readcode`, for the code `v`; `none` is MDC_CORRUPT. -/
def applyCode (n : Nat) (t : Decoding) (v : Nat) : Option Decoding :=
  if v = Config.flushCode ∨ (t.d.w = Config.codeBitsMax ∧ v = 32767) then
    some { t with d := Dict.fresh, prev := none }
  else if v = Config.freezeCode then some { t with d := { t.d with frz := true } }
  else if t.d.w < Config.codeBitsMax ∧ v = t.d.bumpCode then some { t with d := { t.d with w := t.d.w + 1 } }
  else
    match codeBytes t.d t.prev v with
    | none => none
    | some bs =>
      if n < t.out.length + bs.length then none
      else
        match decoderLearn t.d t.prev bs with
        | none => none
        | some d => some { t with d := d, prev := some v, out := t.out ++ bs }

/-- The loop of R171. `limit` is the number of bit positions; a code has at least one bit, so after `limit + 1` codes
the read position is past the end and `readcode` raises BIT_RANGE (R166). -/
def decodeLoop (bit : Memory Bool) (limit n : Nat) : Nat → Decoding → DecodeEnd
  | 0, _ => .fatal .bitRange
  | fuel + 1, t =>
    if n ≤ t.out.length then .done t
    else if limit < t.p + t.d.w then .fatal .bitRange
    else
      match bit.readList t.p t.d.w with
      | none => .unwritten
      | some bs =>
        match applyCode n { t with p := t.p + t.d.w } (valLsb bs) with
        | none => .fatal .mdcCorrupt
        | some t' => decodeLoop bit limit n fuel t'

/-- The decoding of a DDEC call of `n` symbols from position `p` (R171). -/
def decodeSyms (bit : Memory Bool) (limit n p : Nat) (d : Dict) : DecodeEnd :=
  decodeLoop bit limit n (limit + 1) { p := p, d := d, prev := none, out := [] }

/-! ### Commands -/

/-- DFLUSH (R172). -/
def execDflush (c : Nat) (s : State) : Result :=
  if c = 0xFF then complete { s with dict := s.dict.map fun _ => .live Dict.fresh }
  else if s.params.nch ≤ c then raise (.dflush c) .badChan s
  else complete (s.setDict c (.live Dict.fresh))

/-- The end of DENC after its code sequence is known (R170): BIT_RANGE leaves the bits from WPTR on unwritten (U5). -/
def encodeEnd (i : Instr) (c : Nat) (s : State) (r : List Bool × Dict) : Result :=
  if s.bitLen < s.wptr.toNat + r.1.length then raise i .bitRange (s.setBit (s.bit.eraseFrom s.wptr.toNat))
  else
    complete ((((s.setDict c (.live r.2)).setBit (s.bit.writeList s.wptr.toNat r.1)).setRes0
      (BitVec.ofNat 32 r.1.length)).setWptr (BitVec.ofNat 32 (s.wptr.toNat + r.1.length)))

/-- DENC (R170). -/
def execDenc (c : Nat) (base n : Word) (s : State) : Result :=
  if s.params.nch ≤ c then raise (.denc c base n) .badChan s
  else
    match s.channel c with
    | .poisoned => raise (.denc c base n) .mdcPoisoned s
    | .live d =>
      if s.params.symDepth < base.toNat + n.toNat then raise (.denc c base n) .symRange s
      else
        match readSymbols s.sym base.toNat n.toNat with
        | .error .unwritten => .fault .readUnwritten
        | .error .badWidth => raise (.denc c base n) .badOperand s
        | .ok xs => encodeEnd (.denc c base n) c s (d.encode xs)

/-- The end of DDEC (R171): a fatal error poisons the dictionary and leaves the destination entries unwritten
(R167, U4); every symbol written has width 8. -/
def decodeEnd (i : Instr) (c : Nat) (base n : Nat) (s : State) : DecodeEnd → Result
  | .unwritten => .fault .readUnwritten
  | .fatal cause => raise i cause ((s.setDict c .poisoned).setSym (s.sym.eraseRange base n))
  | .done t =>
    complete ((((s.setDict c (.live t.d)).setSym
      (s.sym.writeList base (t.out.map fun b => { sym := b, width := 8#4 }))).setRes0
      (BitVec.ofNat 32 (t.p - s.rptr.toNat))).setRptr (BitVec.ofNat 32 t.p))

/-- DDEC (R171). -/
def execDdec (c : Nat) (base n : Word) (s : State) : Result :=
  if s.params.nch ≤ c then raise (.ddec c base n) .badChan s
  else
    match s.channel c with
    | .poisoned => raise (.ddec c base n) .mdcPoisoned s
    | .live d =>
      if s.params.symDepth < base.toNat + n.toNat then raise (.ddec c base n) .symRange s
      else decodeEnd (.ddec c base n) c base.toNat n.toNat s (decodeSyms s.bit s.bitLen n.toNat s.rptr.toNat d)

/-- DBACKUP (R173). -/
def execDbackup (c : Nat) (s : State) : Result :=
  if s.params.nch ≤ c then raise (.dbackup c) .badChan s
  else
    match s.channel c with
    | .poisoned => raise (.dbackup c) .mdcPoisoned s
    | .live d => complete (s.setSnap c (some d))

/-- DRESUME (R174). -/
def execDresume (c : Nat) (s : State) : Result :=
  if s.params.nch ≤ c then raise (.dresume c) .badChan s
  else
    match s.snapshot c with
    | none => raise (.dresume c) .mdcNoSnap s
    | some d => complete (s.setDict c (.live d))

/-- RES2 of DSTAT (R175): FRZ, POISON and "the snapshot is valid" in bits 0, 1 and 2. -/
def statFlags (frz poison snap : Bool) : Word :=
  0#29 ++ BitVec.ofBool snap ++ BitVec.ofBool poison ++ BitVec.ofBool frz

/-- DSTAT (R175). On a poisoned channel RES0, RES1, RES3 and bit 0 of RES2 are draws (U6). -/
def execDstat (c : Nat) (s : State) : Result :=
  if s.params.nch ≤ c then raise (.dstat c) .badChan s
  else
    match s.channel c with
    | .live d =>
      complete ((((s.setRes0 (BitVec.ofNat 32 d.next)).setRes1 (BitVec.ofNat 32 d.w)).setRes2
        (statFlags d.frz false (s.snapshot c).isSome)).setRes3 (BitVec.ofNat 32 d.bumpCode))
    | .poisoned =>
      complete (((((s.setRes0 (Config.draw s.draws)).setRes1 (Config.draw (s.draws + 1))).setRes2
        (statFlags ((Config.draw (s.draws + 2)).getLsbD 0) true (s.snapshot c).isSome)).setRes3
        (Config.draw (s.draws + 3))).useDraws 4)

end Sys2Proof.Machine
end

