-- ==== Sys2Proof/Machine/Fdu.lean ====
section
/-! DEFINITION. The FDU (40_fdu.md): the functions R104, R106 and R108 and the commands FDEC, FREC, FMUL, FDIV, FPOW2. -/

namespace Sys2Proof.Machine

/-- The rounded product of two normal triples, or `none` where the exponent leaves -126..127 (R104). -/
def multiplyNormal (a b : Triple) : Option Triple :=
  let p := a.mant * b.mant
  let n := bitlen p
  let cut := n - 24
  let m := roundHalfEven p (2 ^ cut)
  let e := a.exp + b.exp + ((n : Int) - 47)
  let me := if m = 2 ^ 24 then (2 ^ 23, e + 1) else (m, e)
  if me.2 < -126 ∨ 127 < me.2 then none
  else some { sign := a.sign ^^ b.sign, exp := me.2, mant := me.1 }

/-- `multiply` (R104); `none` is DOMAIN. -/
def multiply (a b : Triple) : Option Triple :=
  if a.isSpecial ∨ a.isSubnormal ∨ b.isSpecial ∨ b.isSubnormal then none
  else if a.isZero ∨ b.isZero then some { sign := a.sign ^^ b.sign, exp := -127, mant := 0 }
  else multiplyNormal a b

/-- The integer `m` of a finite word's absolute value `m × 2^(e-150)` (R8): F for E = 0, else 2^23 + F. -/
def magnitude (x : Word) : Nat := if expField x = 0 then fracField x else 2 ^ 23 + fracField x

/-- The exponent `e` of a finite word's absolute value `magnitude × 2^(e-150)` (R8): 1 for E = 0, else E. -/
def scaleExp (x : Word) : Nat := if expField x = 0 then 1 else expField x

/-- `floor(log2 (n / d))` for positive `n` and `d` (R106). -/
def floorLog2 (n d : Nat) : Int :=
  let t : Int := (bitlen n : Int) - (bitlen d : Int)
  if d * 2 ^ t.toNat ≤ n * 2 ^ (-t).toNat then t else t - 1

/-- The part of R106 after `q`: the word of sign `s` nearest to `n / d`, for positive `d`. -/
def divideRatio (s : Bool) (n d : Nat) : Word :=
  if n = 0 then packWord s 0 0
  else
    let e := max (floorLog2 n d) (-126)
    let k := roundHalfEven (n * 2 ^ (23 - e).toNat) (d * 2 ^ (e - 23).toNat)
    let ke := if k = 2 ^ 24 then (2 ^ 23, e + 1) else (k, e)
    if 127 < ke.2 then packWord s 255 0
    else if ke.1 < 2 ^ 23 then packWord s 0 ke.1
    else packWord s (ke.2 + 127).toNat ke.1

/-- `divide` (R106); `none` is DOMAIN. The exact quotient `|val(x)| / |val(y)|` is the ratio of two integers. -/
def divide (x y : Word) : Option Word :=
  if expField x = 255 ∨ expField y = 255 then none
  else if y.extractLsb' 0 31 = 0#31 then none
  else
    some (divideRatio (signBit x ^^ signBit y)
      (magnitude x * 2 ^ (scaleExp x - scaleExp y)) (magnitude y * 2 ^ (scaleExp y - scaleExp x)))

/-- `power_of_two` (R108). -/
def powerOfTwo (shift : Int) : Word :=
  if -126 ≤ shift ∧ shift ≤ 127 then packWord false (shift + 127).toNat 0
  else if -149 ≤ shift ∧ shift ≤ -127 then packWord false 0 (2 ^ (shift + 149).toNat)
  else if 127 < shift then 0x7F800000#32
  else 0x00000000#32

/-- FDEC (R102). -/
def execFdec (x : Word) (s : State) : Result :=
  let t := decompose x
  complete (((s.setRes0 (signWord t.sign)).setRes1 (BitVec.ofInt 32 t.exp)).setRes2 (BitVec.ofNat 32 t.mant))

/-- FREC (R103). -/
def execFrec (sign exponent mantissa : Word) (s : State) : Result :=
  if 1 < sign.toNat ∨ legalExpMant exponent.toInt mantissa.toNat = false then
    raise (.frec sign exponent mantissa) .fduDomain s
  else
    complete (s.setRes0 (recompose { sign := sign.getLsbD 0, exp := exponent.toInt, mant := mantissa.toNat }))

/-- FMUL (R105). -/
def execFmul (a b : Word) (s : State) : Result :=
  match multiply (decompose a) (decompose b) with
  | none => raise (.fmul a b) .fduDomain s
  | some t =>
    complete ((((s.setRes0 (recompose t)).setRes1 (signWord t.sign)).setRes2 (BitVec.ofInt 32 t.exp)).setRes3
      (BitVec.ofNat 32 t.mant))

/-- FDIV (R107). -/
def execFdiv (x y : Word) (s : State) : Result :=
  match divide x y with
  | none => raise (.fdiv x y) .fduDomain s
  | some r => complete (s.setRes0 r)

/-- FPOW2 (R109). -/
def execFpow2 (shift : Word) (s : State) : Result :=
  complete (s.setRes0 (powerOfTwo shift.toInt))

end Sys2Proof.Machine
end

