-- ==== Sys2Proof/Machine/Rcu.lean ====
section
/-! DEFINITION. The RCU (41_rcu.md): RECON, RESID, UNRES, NWIDTH, PACKA, PACKB, UNPACKA, UNPACKB. -/

namespace Sys2Proof.Machine

/-- The reconstruction of R131 after its checks: q, the scale exponent shift + 1 - IntRes, and a; `none` is DOMAIN of
one of its two multiplications. -/
def reconstruct (q e : Int) (a : Word) : Option Word :=
  match multiply (decompose (intToBinary32 q)) (decompose (powerOfTwo e)) with
  | none => none
  | some t =>
    match multiply t (decompose a) with
    | none => none
    | some y => some (recompose y)

/-- RECON (R131). -/
def execRecon (q shift a : Word) (s : State) : Result :=
  let ir := s.intres.toNat
  if ¬ (1 ≤ ir ∧ ir ≤ 24) then raise (.recon q shift a) .config s
  else if 255 < shift.toNat then raise (.recon q shift a) .badOperand s
  else if q.toInt < -2 ^ (ir - 1) ∨ 2 ^ (ir - 1) - 1 < q.toInt then raise (.recon q shift a) .rcuRange s
  else if isNormalWord a = false then raise (.recon q shift a) .rcuDomain s
  else
    match reconstruct q.toInt ((shift.toNat : Int) + 1 - ir) a with
    | none => raise (.recon q shift a) .rcuDomain s
    | some y => complete (s.setRes0 y)

/-- The mantissa difference `(mx << d) - my` of R132, for the exponent difference `d`. -/
def mantissaDelta (x y : Triple) : Int := (x.mant * 2 ^ (x.exp - y.exp).toNat : Nat) - (y.mant : Int)

/-- RESID (R132). -/
def execResid (x y : Word) (s : State) : Result :=
  let tx := decompose x
  let ty := decompose y
  if isNormalWord x = false ∨ isNormalWord y = false then raise (.resid x y) .rcuDomain s
  else if tx.sign ≠ ty.sign then raise (.resid x y) .rcuOrder s
  else if tx.exp - ty.exp < 0 then raise (.resid x y) .rcuOrder s
  else if mantissaDelta tx ty < 0 then raise (.resid x y) .rcuOrder s
  else if 2 ^ 24 ≤ mantissaDelta tx ty then raise (.resid x y) .rcuRange s
  else
    let d := (mantissaDelta tx ty).toNat
    complete (((s.setRes0 (BitVec.ofNat 32 d)).setRes1 (BitVec.ofNat 32 (tx.exp - ty.exp).toNat)).setRes2
      (BitVec.ofNat 32 (highestByte d)))

/-- UNRES (R134). -/
def execUnres (y d : Word) (s : State) : Result :=
  let ty := decompose y
  let t := ty.mant + d.toNat
  if isNormalWord y = false then raise (.unres y d) .rcuDomain s
  else if 2 ^ 24 ≤ d.toNat then raise (.unres y d) .rcuRange s
  else if t < 2 ^ 24 then
    complete (s.setRes0 (recompose { sign := ty.sign, exp := ty.exp, mant := t }))
  else if t % 2 = 1 then raise (.unres y d) .rcuRange s
  else if 127 < ty.exp + 1 then raise (.unres y d) .rcuRange s
  else complete (s.setRes0 (recompose { sign := ty.sign, exp := ty.exp + 1, mant := t / 2 }))

/-- NWIDTH (R135). -/
def execNwidth (f : Bool) (q hb : Word) (s : State) : Result :=
  let l := bitlen q.toInt.natAbs
  if q.toInt = 0 ∨ 2 ^ 24 ≤ q.toInt.natAbs then raise (.nwidth f q hb) .rcuRange s
  else if 3 < hb.toNat then raise (.nwidth f q hb) .badOperand s
  else complete (s.setRes0 (BitVec.ofNat 32 (if f then min (8 * hb.toNat) (24 - l) else 8 * hb.toNat)))

/-- PACKA (R139). -/
def execPacka (x idx : Word) (s : State) : Result :=
  if s.params.symDepth < idx.toNat + 4 then raise (.packa x idx) .symRange s
  else
    complete ((s.setSym (s.sym.writeList idx.toNat (wordSyms x))).setRes0 (BitVec.ofNat 32 (idx.toNat + 4)))

/-- PACKB (R140). -/
def execPackb (d w idx : Word) (s : State) : Result :=
  if 24 < w.toNat then raise (.packb d w idx) .badOperand s
  else if 2 ^ w.toNat ≤ d.toNat then raise (.packb d w idx) .rcuRange s
  else if s.params.symDepth < idx.toNat + nsym w.toNat then raise (.packb d w idx) .symRange s
  else
    complete ((s.setSym (s.sym.writeList idx.toNat (residualSyms d.toNat w.toNat))).setRes0
      (BitVec.ofNat 32 (idx.toNat + nsym w.toNat)))

/-- UNPACKA (R141); the width fields are not used. An unwritten entry is the model fault of R37. -/
def execUnpacka (idx : Word) (s : State) : Result :=
  if s.params.symDepth < idx.toNat + 4 then raise (.unpacka idx) .symRange s
  else
    match s.sym.readList idx.toNat 4 with
    | none => .fault .readUnwritten
    | some es =>
      complete ((s.setRes0 (BitVec.ofNat 32 (es.foldl (fun v e => v * 2 ^ 8 + e.sym.toNat) 0))).setRes1
        (BitVec.ofNat 32 (idx.toNat + 4)))

/-- UNPACKB (R142); the width fields are not used. An unwritten entry is the model fault of R37. -/
def execUnpackb (idx w : Word) (s : State) : Result :=
  if 24 < w.toNat then raise (.unpackb idx w) .badOperand s
  else if s.params.symDepth < idx.toNat + nsym w.toNat then raise (.unpackb idx w) .symRange s
  else
    match s.sym.readList idx.toNat (nsym w.toNat) with
    | none => .fault .readUnwritten
    | some es =>
      complete ((s.setRes0 (BitVec.ofNat 32 (residualOfBytes w.toNat (es.map Sym.sym)))).setRes1
        (BitVec.ofNat 32 (idx.toNat + nsym w.toNat)))

end Sys2Proof.Machine
end

