-- ==== Sys2Proof/Machine/Dispatch.lean ====
section
/-! DEFINITION. One arm per command: which definition is its meaning. -/

namespace Sys2Proof.Machine

/-- The meaning of a command (R50: one atomic step of the engine). -/
def exec (i : Instr) (s : State) : Host.Outcome State Fault Refusal :=
  match i with
  | .nop => Sys2Proof.Machine.execNop s
  | .fdec x => Sys2Proof.Machine.execFdec x s
  | .frec sg e m => Sys2Proof.Machine.execFrec sg e m s
  | .fmul a b => Sys2Proof.Machine.execFmul a b s
  | .fdiv x y => Sys2Proof.Machine.execFdiv x y s
  | .fpow2 sh => Sys2Proof.Machine.execFpow2 sh s
  | .recon q sh a => Sys2Proof.Machine.execRecon q sh a s
  | .resid x y => Sys2Proof.Machine.execResid x y s
  | .unres y d => Sys2Proof.Machine.execUnres y d s
  | .nwidth f q hb => Sys2Proof.Machine.execNwidth f q hb s
  | .packa x idx => Sys2Proof.Machine.execPacka x idx s
  | .packb d w idx => Sys2Proof.Machine.execPackb d w idx s
  | .unpacka idx => Sys2Proof.Machine.execUnpacka idx s
  | .unpackb idx w => Sys2Proof.Machine.execUnpackb idx w s
  | .dflush c => Sys2Proof.Machine.execDflush c s
  | .denc c base n => Sys2Proof.Machine.execDenc c base n s
  | .ddec c base n => Sys2Proof.Machine.execDdec c base n s
  | .dbackup c => Sys2Proof.Machine.execDbackup c s
  | .dresume c => Sys2Proof.Machine.execDresume c s
  | .dstat c => Sys2Proof.Machine.execDstat c s
  | .bwr n v => Sys2Proof.Machine.execBwr n v s
  | .brd n => Sys2Proof.Machine.execBrd n s
  | .balignw => Sys2Proof.Machine.execBalignw s
  | .balignr => Sys2Proof.Machine.execBalignr s
  | .setwp p => Sys2Proof.Machine.execSetwp p s
  | .setrp p => Sys2Proof.Machine.execSetrp p s

end Sys2Proof.Machine
end

