-- ==== Sys2Proof/Machine/HostPort.lean ====
section
/-! DEFINITION. The host's window (10_state.md R20 to R30, R35, R36; 20_memory.md R52 to R60): what a host address
names, what a read returns, what a write does, and FIFO_OVERFLOW (R222). -/

namespace Sys2Proof.Machine

/-- The registers of R20's table. -/
inductive Reg where
  | id | ctrl | status | cfg | errinfo | errseq | cmd | wptr | rptr | res0 | res1 | res2 | res3 | cmdcnt
  | reserved
  deriving DecidableEq, Repr

/-- What an offset of the window names (R20). -/
inductive Target where
  /-- A register of offsets 0x000..0xFFC. -/
  | reg (r : Reg)
  /-- Entry `i` of the symbol memory (R35). -/
  | sym (i : Nat)
  /-- The word of bytes 4j..4j+3 of the bit memory (R36). -/
  | bits (j : Nat)
  /-- A reserved offset, or one past the end of a memory: reads 0, ignores writes (R21). -/
  | hole
  deriving DecidableEq, Repr

/-- The register at an offset below 0x1000 (R20). -/
def regAt (off : Nat) : Reg :=
  if off = 0x000 then .id
  else if off = 0x004 then .ctrl
  else if off = 0x008 then .status
  else if off = 0x00C then .cfg
  else if off = 0x010 then .errinfo
  else if off = 0x014 then .errseq
  else if off = 0x018 then .cmd
  else if off = 0x01C then .wptr
  else if off = 0x020 then .rptr
  else if off = 0x024 then .res0
  else if off = 0x028 then .res1
  else if off = 0x02C then .res2
  else if off = 0x030 then .res3
  else if off = 0x034 then .cmdcnt
  else .reserved

/-- What a 4-aligned offset of the window names (R20, R21, R35, R36). -/
def targetAt (p : Params) (off : Nat) : Target :=
  if off < 0x1000 then .reg (regAt off)
  else if 0x10000 ≤ off ∧ off < 0x50000 then
    if (off - 0x10000) / 4 < p.symDepth then .sym ((off - 0x10000) / 4) else .hole
  else if 0x100000 ≤ off ∧ off < 0x200000 then
    if off - 0x100000 < p.bitBytes then .bits ((off - 0x100000) / 4) else .hole
  else .hole

/-- The host word of a symbol entry (R35); the low 12 bits of `free` stand for an unwritten entry (R37). -/
def symWord (e : Option Sym) (free : Word) : Word :=
  match e with
  | some x => 0#20 ++ x.width ++ x.sym
  | none => 0#20 ++ free.extractLsb' 0 12

/-- Bit `t` of the stream in a host word: stream bit `32j + t` is word bit `31 - t` (R36, R53, R54). A position past the
end of the bit memory reads 0 (R21); an unwritten one is the same bit of `free` (R37). -/
def bitWordBit (s : State) (j : Nat) (free : Word) (t : Nat) : Bool :=
  if s.bitLen ≤ 32 * j + t then false
  else
    match s.bit.read (32 * j + t) with
    | some b => b
    | none => free.getLsbD (31 - t)

/-- The host word at bit-memory offset 4j (R36). -/
def bitWord (s : State) (j : Nat) (free : Word) : Word :=
  BitVec.ofNat 32 (valMsb ((List.range 32).map (bitWordBit s j free)))

/-- The register value when STATUS.IDLE = 1, else `free` (R59). -/
def whenIdle (s : State) (v free : Word) : Word := if s.idle then v else free

/-- What a host read of a register returns (R20 to R30); RES0..3, WPTR, RPTR and CMDCNT are arbitrary while the engine is
not idle (R59). -/
def readReg (s : State) (free : Word) : Reg → Word
  | .id => Config.idValue
  | .ctrl => s.ctrlWord
  | .status => s.statusWord
  | .cfg => s.cfgWord
  | .errinfo => s.errinfo
  | .errseq => s.errseq
  | .cmd => 0#32
  | .wptr => whenIdle s s.wptr free
  | .rptr => whenIdle s s.rptr free
  | .res0 => whenIdle s s.res0 free
  | .res1 => whenIdle s s.res1 free
  | .res2 => whenIdle s s.res2 free
  | .res3 => whenIdle s s.res3 free
  | .cmdcnt => whenIdle s s.cmdcnt free
  | .reserved => 0#32

/-- What a host read returns; `free` is the draw of the read. -/
def readTarget (s : State) (free : Word) : Target → Word
  | .reg r => readReg s free r
  | .sym i => whenIdle s (symWord (s.sym.read i) free) free
  | .bits j => whenIdle s (bitWord s j free) free
  | .hole => 0#32

/-- A host write to CMD (R27): ignored while ERR = 1, FIFO_OVERFLOW when the FIFO is full (R222), else pushed. -/
def State.pushCommand (s : State) (v : Word) : State :=
  if s.err.isSome then s
  else if s.full then s.takeException .fifoOverflow v
  else { s with fifo := s.fifo ++ [v] }

/-- A host write to CTRL (R23): SOFTRESET alone wins; CLRERR is the return of R230; the IE bits are stored. -/
def State.writeCtrl (s : State) (v : Word) : State :=
  if v.getLsbD 9 then s.softReset
  else
    let s1 := if v.getLsbD 8 then s.clearError else s
    { s1 with ieErr := v.getLsbD 0, ieIdle := v.getLsbD 1 }

/-- The symbol a host word stores (R35): bits 31:12 are ignored. -/
def wordSym (v : Word) : Sym := { sym := v.extractLsb' 0 8, width := v.extractLsb' 8 4 }

/-- The bits a host word stores at bit-memory offset 4j (R36, R54), less those past the end of the memory (R21). -/
def writeBitWord (s : State) (j : Nat) (v : Word) : Memory Bool :=
  s.bit.writeList (32 * j) ((bitsMsb 32 v.toNat).take (s.bitLen - 32 * j))

/-- A host write to CFG, SYM or BIT, which the host must not make while STATUS.IDLE = 0 (R60, U8). -/
def storeIdle (s s' : State) : Result := if s.idle then .next s' else .fault .hostWriteBusy

/-- What a host write to a register does (R20 to R30, R57). -/
def writeReg (s : State) (v : Word) : Reg → Result
  | .ctrl => .next (s.writeCtrl v)
  | .cfg => storeIdle s { s with intres := v.extractLsb' 0 5 }
  | .cmd => .next (s.pushCommand v)
  | .id => .next s
  | .status => .next s
  | .errinfo => .next s
  | .errseq => .next s
  | .wptr => .next s
  | .rptr => .next s
  | .res0 => .next s
  | .res1 => .next s
  | .res2 => .next s
  | .res3 => .next s
  | .cmdcnt => .next s
  | .reserved => .next s

/-- What a host write does. -/
def writeTarget (s : State) (v : Word) : Target → Result
  | .reg r => writeReg s v r
  | .sym i => storeIdle s (s.setSym (s.sym.write i (wordSym v)))
  | .bits j => storeIdle s (s.setBit (writeBitWord s j v))
  | .hole => .next s

/-- Checks that a host address is one of the block's moves (R20, R52) and hands on what it names. -/
def withTarget (s : State) (addr : Nat) (k : Target → Result) : Result :=
  if addr % 4 ≠ 0 then .fault .hostMisaligned
  else if addr < s.params.base ∨ s.params.base + 2 ^ 21 ≤ addr then .fault .hostOutsideWindow
  else k (targetAt s.params (addr - s.params.base))

/-- A host read (R7 `MemRead`): no side effect on the block (R57); the value goes to the model's `rdata`. -/
def hostRead (addr : Nat) (s : State) : Result :=
  withTarget s addr fun t => .next { s with rdata := readTarget s (Config.draw s.draws) t, draws := s.draws + 1 }

/-- A host write (R7 `MemWrite`). -/
def hostWrite (addr : Nat) (v : Word) (s : State) : Result :=
  withTarget s addr fun t => writeTarget s v t

end Sys2Proof.Machine
end

