-- ==== Sys2Proof/Machine/Engine.lean ====
section
/-! DEFINITION. The engine: command assembly (R72), running a command (R50), halting (R226); and the turns of the two
agents. -/

namespace Sys2Proof.Machine

/-- What the engine reads as its next command: the words it has taken, then the FIFO's, oldest first (R38, R72). -/
def fetch (s : State) : Decoded := decode (s.assembler ++ s.fifo)

/-- The state after the words of a whole command are taken. -/
def State.takeWords (s : State) (rest : List Word) : State := { s with assembler := [], fifo := rest }

/-- The engine takes what the FIFO holds and waits for the missing operand words (R72). -/
def State.waitWords (s : State) : State := { s with assembler := s.assembler ++ s.fifo, fifo := [] }

/-- ILLEGAL_CMD at the header `h` (R72, R75, R226). -/
def illegalHeader (h : Word) (s : State) : Result := .next (s.takeException .illegalCmd h)

/-- The engine assembles a command and, when it is whole, does `k` with it. It takes no header while ERR = 1 (R226). -/
def assemble (k : Instr → State → Result) (s : State) : Result :=
  if s.err.isSome then .next s
  else
    match fetch s with
    | .ok i rest => k i (s.takeWords rest)
    | .incomplete => .next s.waitWords
    | .illegal h => illegalHeader h s

/-- The engine's step: it ends the executing command if there is one, else assembles and runs the next one (R50).
With no whole command to run it waits (R251). -/
def engineRun (s : State) : Result :=
  match s.running with
  | some i => exec i { s with running := none }
  | none => assemble exec s

/-- The engine starts the next command without ending it (R72: STATUS.IDLE stays 0 until the command ends). While a
command executes it starts no other (R50). -/
def engineBegin (s : State) : Result :=
  match s.running with
  | some _ => .next s
  | none => assemble (fun i t => .next { t with running := some i }) s

/-- One turn of an agent. -/
def takeTurn (t : Turn) (s : State) : Result :=
  match t with
  | .hostRead addr => hostRead addr s
  | .hostWrite addr v => hostWrite addr v s
  | .resetInput => .next s.resetInput
  | .engineBegin => engineBegin s
  | .engineRun => engineRun s

/-- One step of the block: the next turn of the agenda, or the engine's own when the agenda is empty. -/
def nextTurn (s : State) : Result :=
  match s.agenda with
  | [] => engineRun s
  | t :: ts => takeTurn t { s with agenda := ts }

/-- Stores a command where the engine fetches its next one. -/
def State.withCommandWords (s : State) (ws : List Word) : State :=
  { s with agenda := [], running := none, err := none, assembler := [], fifo := ws }

/-- The words of the one command held by the low `nbits` bits of `w` (the bits above are zero). -/
def commandWords (nbits w : Nat) : List Word :=
  match tableWords nbits w with
  | [] => []
  | h :: ops => h :: ops.take (commandLength h - 1)

end Sys2Proof.Machine
end

