-- ==== Sys2Proof/Machine/Step.lean ====
section
/-! DEFINITION. One step of the machine, and the placing of one command for it. -/

namespace Sys2Proof.Machine

/-- One step (Machine/Engine.lean `nextTurn`). -/
def step (s : State) : Host.Outcome State Fault Refusal := nextTurn s

/-- `s` with the command held by the low `nbits` bits of `w` (zeros above) as the only content of the command FIFO, and
the engine ready to take it: no turn pending, no command executing or half assembled, ERR = 0 (R226). -/
def State.withFetchWord (s : State) (nbits w : Nat) : State := s.withCommandWords (commandWords nbits w)

end Sys2Proof.Machine
end

