-- ==== Sys2Proof/Machine/Run.lean ====
section
/-! DEFINITION. A run of the block, its end, and what is observed there (R259). -/

namespace Sys2Proof.Machine

/-- The turn is a host write to CMD (R27). -/
def Turn.writesCommand (p : Params) : Turn → Bool
  | .hostWrite addr _ => addr == p.base + 0x018
  | .hostRead _ => false
  | .resetInput => false
  | .engineBegin => false
  | .engineRun => false

/-- The host's last CMD write is over: no turn to come is one. -/
def State.commandsSent (s : State) : Bool := s.agenda.all fun t => !t.writesCommand s.params

/-- A state in which a run can end: "after the host's last CMD write", with STATUS.IDLE = 1 (R259). -/
def State.ended (s : State) : Bool := s.commandsSent && s.idle

/-- The end of the run from `s` (R259): the FIRST such state, if it comes within `n` steps; `none` if it does not, or if the
run stops at a fault before it. The turns still on its agenda are not part of the run. -/
def endOfRun : Nat → State → Option State
  | 0, s => if s.ended then some s else none
  | n + 1, s =>
    if s.ended then some s
    else
      match step s with
      | .next t => endOfRun n t
      | .fault _ => none
      | .refused _ => none

/-- What R259 observes at the end of a run. -/
structure Observation where
  /-- The registers of R20's table, by offset, as the host reads them while idle. -/
  registers : List (Nat × Word)
  /-- SYM; an entry that is not listed is unwritten, and its contents are not observed. -/
  sym : Memory Sym
  /-- BIT; a bit that is not listed is unwritten, and its contents are not observed. -/
  bit : Memory Bool
  /-- The fault log (R228). -/
  log : List ExcRecord
  deriving DecidableEq, Repr

/-- The observation of R259: "the host-readable state (registers, SYM, BIT) together with the model's fault log". -/
def State.observation (s : State) : Observation :=
  { registers :=
      [(0x000, Config.idValue), (0x004, s.ctrlWord), (0x008, s.statusWord), (0x00C, s.cfgWord), (0x010, s.errinfo),
        (0x014, s.errseq), (0x018, 0#32), (0x01C, s.wptr), (0x020, s.rptr), (0x024, s.res0), (0x028, s.res1),
        (0x02C, s.res2), (0x030, s.res3), (0x034, s.cmdcnt)]
    sym := s.sym
    bit := s.bit
    log := s.log }

/-- What a run from `s` shows at its end, if it ends within `n` steps. -/
def observeRun (n : Nat) (s : State) : Option Observation := (endOfRun n s).map State.observation

end Sys2Proof.Machine
end

