-- ==== Sys2Proof/Safety.lean ====
section
/-! DEFINITION. The terms claims are stated in: the invariant of the machine, what a run without exceptions
is, the rational value of a binary32 word, "nearest, ties to even", and R168 and R171 as relations. -/

namespace Sys2Proof.Machine

/-- What R32 says of the entries of a dictionary, with R31's range of W. -/
structure Dict.Records (d : Dict) : Prop where
  ent_wf : d.ent.wf
  first_le_next : Config.firstCode ≤ d.next
  w_lower : Config.codeBitsInit ≤ d.w
  w_upper : d.w ≤ Config.codeBitsMax
  /-- "ENT[k] is a record exactly when 258 ≤ k < NEXT" -/
  record_iff : ∀ k, (d.ent.read k).isSome ↔ Config.firstCode ≤ k ∧ k < d.next
  /-- "parent < k and parent is a literal (0..255) or a string code with a record, and len = 1 + len(parent)" -/
  record : ∀ k e, d.ent.read k = some e →
    e.parent < k ∧ (e.parent < 256 ∨ (d.ent.read e.parent).isSome) ∧ e.len = 1 + d.codeLen e.parent

/-- The invariants R32 gives a dictionary, with the ranges of R31: `NEXT ≤ 2^W - 1 ≤ 32767`, so every record has a code of
258..32766. -/
structure Dict.Inv (d : Dict) : Prop extends Dict.Records d where
  /-- "NEXT ≤ 2^W - 1" -/
  next_le : d.next ≤ 2 ^ d.w - 1

/-- The invariant of the machine: what 10_state.md says of every state between two steps. -/
structure State.Inv (s : State) : Prop where
  /-- R4. -/
  params_valid : s.params.valid
  /-- The symbol memory is in canonical form, inside 0..SYM_DEPTH-1 (R35). -/
  sym_wf : s.sym.wf
  sym_bound : ∀ c ∈ s.sym, c.1 < s.params.symDepth
  /-- The bit memory is in canonical form, inside 0..8×BIT_BYTES-1 (R36). -/
  bit_wf : s.bit.wf
  bit_bound : ∀ c ∈ s.bit, c.1 < s.bitLen
  /-- The positions are in 0..8×BIT_BYTES (R28). -/
  wptr_le : s.wptr.toNat ≤ s.bitLen
  rptr_le : s.rptr.toNat ≤ s.bitLen
  /-- One dictionary and one snapshot slot per channel (R31, R33). -/
  dict_length : s.dict.length = s.params.nch
  snap_length : s.snap.length = s.params.nch
  /-- R32, for every dictionary with POISON = 0 and every snapshot. -/
  dict_inv : ∀ d, Channel.live d ∈ s.dict → d.Inv
  snap_inv : ∀ d, some d ∈ s.snap → d.Inv
  /-- R38. -/
  fifo_length : s.fifo.length ≤ s.params.fifoDepth
  /-- The assembler never holds a whole command or an illegal header (R72). -/
  assembler_incomplete : decode s.assembler = .incomplete
  /-- While ERR = 1 nothing waits (R226, R27). -/
  err_empties : s.err.isSome → s.fifo = [] ∧ s.assembler = []
  /-- A command that executes has been assembled whole (R72). -/
  running_assembled : s.running.isSome → s.assembler = []
  running_wf : ∀ i, s.running = some i → i.WellFormed

/-- "no exception recorded" (R228), the premise R228 gives a claim about a command stream. -/
def State.noException (s : State) : Prop := s.log = []

/-- It is the engine's turn, and `ts` are the turns after it: the agenda is empty, so that the engine acts by itself, or
`engineRun` is its first turn. -/
def State.engineActs (s : State) (ts : List Turn) : Prop := (s.agenda = [] ∧ ts = []) ∨ s.agenda = .engineRun :: ts

/-- The absolute value of a finite binary32 word (R8's `val` without its sign). -/
def absVal (x : Word) : ℚ := (magnitude x : ℚ) * (2 : ℚ) ^ ((scaleExp x : ℤ) - 150)

/-- `val(x)` of a finite binary32 word (R8). -/
def wordVal (x : Word) : ℚ := if signBit x then -absVal x else absVal x

/-- The value `m × 2^(e-23)` of a normal mantissa and exponent (R8, R100). -/
def normalVal (m : ℕ) (e : ℤ) : ℚ := (m : ℚ) * (2 : ℚ) ^ (e - 23)

/-- `(m, e)` with a 24-bit mantissa is the value nearest to `x`, ties to even, when the exponent is not bounded. -/
def NearestEven (x : ℚ) (m : ℕ) (e : ℤ) : Prop :=
  (2 ^ 23 ≤ m ∧ m < 2 ^ 24) ∧
    ∀ (m' : ℕ) (e' : ℤ), 2 ^ 23 ≤ m' → m' < 2 ^ 24 →
      |normalVal m e - x| ≤ |normalVal m' e' - x| ∧
        (|normalVal m e - x| = |normalVal m' e' - x| → (m' = m ∧ e' = e) ∨ m % 2 = 0)

/-- The finite word `r` is nearest to the non-negative `q` among the finite binary32 magnitudes, ties to even. -/
def NearestFinite (q : ℚ) (r : Word) : Prop :=
  expField r ≠ 255 ∧
    ∀ z : Word, expField z ≠ 255 →
      |absVal r - q| ≤ |absVal z - q| ∧
        (|absVal r - q| = |absVal z - q| → absVal z = absVal r ∨ fracField r % 2 = 0)

/-! ### The search of R168, as a relation -/

/-- ENT[k] is a record below `node` whose byte agrees with the symbol `y` on its top `width` bits. -/
def MatchingChild (ent : Memory Entry) (node : Nat) (y : Sym) (k : Nat) : Prop :=
  ∃ e, ent.read k = some e ∧ e.parent = node ∧ topBits y.width.toNat e.sym = topBits y.width.toNat y.sym

/-- `k` is one of the first `CAND_BOUND = 4` matching children in ascending order: fewer than four are smaller. -/
def ExploredChild (ent : Memory Entry) (node : Nat) (y : Sym) (k : Nat) : Prop :=
  MatchingChild ent node y k ∧
    ¬ ∃ k0 k1 k2 k3, k0 < k1 ∧ k1 < k2 ∧ k2 < k3 ∧ k3 < k ∧ MatchingChild ent node y k0 ∧
      MatchingChild ent node y k1 ∧ MatchingChild ent node y k2 ∧ MatchingChild ent node y k3

/-- A chain the search explores from `node` over the symbols that follow: the codes visited, in order. -/
def Chain (ent : Memory Entry) : Nat → List Sym → List Nat → Prop
  | _, _, [] => True
  | _, [], _ :: _ => False
  | node, y :: ys, k :: ks => ExploredChild ent node y k ∧ Chain ent k ys ks

/-! ### R171's loop, as a relation -/

/-- `expansion(v)` (R162): the bytes of a literal or of a string code with a record. -/
inductive Expands (d : Dict) : Nat → List Byte → Prop where
  | literal {v : Nat} (h : v < 256) : Expands d v [BitVec.ofNat 8 v]
  | string {k : Nat} {e : Entry} {bs : List Byte} (hk : 258 ≤ k) (he : d.ent.read k = some e)
      (hp : Expands d e.parent bs) : Expands d k (bs ++ [e.sym])

/-- `s` of R171: the bytes of the code `v` when `prev` is the previous code. -/
inductive CodeSymbols (d : Dict) (prev : Option Nat) : Nat → List Byte → Prop where
  /-- A literal, or a string code below NEXT. -/
  | known {v : Nat} {bs : List Byte} (hv : v < 256 ∨ 258 ≤ v ∧ v < d.next) (he : Expands d v bs) :
      CodeSymbols d prev v bs
  /-- `v == NEXT`: the expansion of the previous code and its first byte. -/
  | pending {q : Nat} {b : Byte} {bs : List Byte} (hq : prev = some q) (hf : d.frz = false)
      (he : Expands d q (b :: bs)) : CodeSymbols d prev d.next (b :: bs ++ [b])

/-- The dictionary after a literal or string code whose first byte is `b`. -/
inductive Learns (d : Dict) (prev : Option Nat) (b : Byte) : Dict → Prop where
  | nothing (h : prev = none ∨ d.frz = true) : Learns d prev b d
  /-- The entry (prev, b, len(prev) + 1) at NEXT, below the BUMP code. -/
  | entry {q : Nat} {bs : List Byte} (hq : prev = some q) (hf : d.frz = false) (hn : d.next < 2 ^ d.w - 1)
      (he : Expands d q bs) :
      Learns d prev b
        { ent := d.ent.write d.next { parent := q, sym := b, len := bs.length + 1 }
          next := d.next + 1, w := d.w, frz := d.frz }

/-- The control codes of R161 at the dictionary's width: FLUSH, FREEZE, and `2^W - 1` (BUMP, or FLUSH at W = 15). -/
def IsControl (d : Dict) (v : Nat) : Prop := v = 256 ∨ v = 257 ∨ v = 2 ^ d.w - 1

/-- One round of R171's loop after `readcode` gave `v`, for `n` expected symbols: the locals after it, or `none` for a fatal
MDC_CORRUPT. -/
inductive CodeEffect (n : Nat) (t : Decoding) (v : Nat) : Option Decoding → Prop where
  | flush (h : v = 256 ∨ t.d.w = 15 ∧ v = 32767) :
      CodeEffect n t v (some { t with d := { ent := [], next := 258, w := 9, frz := false }, prev := none })
  | freeze (h : v = 257) : CodeEffect n t v (some { t with d := { t.d with frz := true } })
  | bump (hw : t.d.w < 15) (h : v = 2 ^ t.d.w - 1) : CodeEffect n t v (some { t with d := { t.d with w := t.d.w + 1 } })
  | bytes {bs : List Byte} {d : Dict} (hc : ¬ IsControl t.d v) (hs : CodeSymbols t.d t.prev v bs)
      (hn : t.out.length + bs.length ≤ n) (hl : Learns t.d t.prev (bs.headD 0#8) d) :
      CodeEffect n t v (some { t with d := d, prev := some v, out := t.out ++ bs })
  /-- A code that stands for no bytes: above NEXT, or NEXT with no previous code or while frozen. -/
  | noBytes (hc : ¬ IsControl t.d v) (hs : ∀ bs, ¬ CodeSymbols t.d t.prev v bs) : CodeEffect n t v none
  /-- More bytes than symbols expected. -/
  | overrun {bs : List Byte} (hc : ¬ IsControl t.d v) (hs : CodeSymbols t.d t.prev v bs)
      (hn : n < t.out.length + bs.length) : CodeEffect n t v none
  /-- An entry creation that would reach the BUMP code. -/
  | full {q : Nat} {bs : List Byte} (hc : ¬ IsControl t.d v) (hs : CodeSymbols t.d t.prev v bs) (hq : t.prev = some q)
      (hf : t.d.frz = false) (hn : 2 ^ t.d.w - 1 ≤ t.d.next) : CodeEffect n t v none

/-- The code `v` stands at the read position, written and inside the bit memory, least significant bit first (R166). -/
def CodeAt (bit : Memory Bool) (limit : Nat) (t : Decoding) (v : Nat) : Prop :=
  t.p + t.d.w ≤ limit ∧ v < 2 ^ t.d.w ∧ ∀ j, j < t.d.w → bit.read (t.p + j) = some (v.testBit j)

/-- One round of R171's loop that does not raise: symbols are still expected, and the code read has its effect. -/
def DecodeRound (bit : Memory Bool) (limit n : Nat) (t t' : Decoding) : Prop :=
  t.out.length < n ∧ ∃ v, CodeAt bit limit t v ∧ CodeEffect n { t with p := t.p + t.d.w } v (some t')

end Sys2Proof.Machine
end

