-- ==== Sys2Proof/Certificates/Slice0/Obligations.lean ====
section
/-! DEFINITION. The statements for the provers. -/

open Sys2Proof Sys2Proof.Machine

/-! ### Encoding (30_encoding.md) -/

/-- Decoding the words of an encodable command gives it back, with every operand word, channel index and bit count at
every value the encoding admits, and leaves the words after it (R70, R71, R73). -/
def Obligations.DecodeOfEncodeIsTheCommand : Prop :=
  ∀ (i : Instr) (rest : List Word), i.WellFormed → decode (encode i ++ rest) = .ok i rest

/-- Only the words of a command decode to it (R70, R71, R73): nothing of the words read is ignored. -/
def Obligations.DecodedWordsAreTheEncoding : Prop :=
  ∀ (ws rest : List Word) (i : Instr), decode ws = .ok i rest → i.WellFormed ∧ encode i ++ rest = ws

/-- R75: a header with a reserved OPC value, or with a 1 in a bit its format shows as `0`, raises ILLEGAL_CMD; R72, R226:
no operand is consumed, and the exception entry discards the words that follow. -/
def Obligations.IllegalHeadersRaiseIllegalCmd : Prop :=
  ∀ (s : State) (ts : List Turn) (h : Word) (ops : List Word),
    s.engineActs ts → s.running = none → s.err = none → s.assembler = [] → s.fifo = h :: ops →
    (let o := (h.extractLsb' 24 8).toNat
     ((0x01 ≤ o ∧ o ≤ 0x0F) ∨ (0x15 ≤ o ∧ o ≤ 0x1F) ∨ (0x28 ≤ o ∧ o ≤ 0x2F) ∨ (0x36 ≤ o ∧ o ≤ 0x3F) ∨ 0x46 ≤ o) ∨
     (o ∈ [0x00, 0x10, 0x11, 0x12, 0x13, 0x14, 0x20, 0x21, 0x22, 0x24, 0x25, 0x26, 0x27, 0x42, 0x43, 0x44, 0x45] ∧
        h.extractLsb' 0 24 ≠ 0#24) ∨
     (o ∈ [0x30, 0x31, 0x32, 0x33, 0x34, 0x35] ∧ h.extractLsb' 0 16 ≠ 0#16) ∨
     (o ∈ [0x40, 0x41] ∧ (h.extractLsb' 16 8 ≠ 0#8 ∨ h.extractLsb' 0 8 ≠ 0#8)) ∨
     (o = 0x23 ∧ (h.extractLsb' 9 15 ≠ 0#15 ∨ h.extractLsb' 0 8 ≠ 0#8))) →
    step s = .next { s with
      agenda := ts, err := some .illegalCmd, errinfo := h, errseq := s.cmdcnt, fifo := [], assembler := []
      log := s.log ++ [{ cause := .illegalCmd, info := h, seq := s.cmdcnt }] }

/-- Words written out from R71, R73 and R76 decode to the commands they stand for, one or more per family. -/
def Obligations.WrittenOutWordsDecode : Prop :=
  decode [0x31000000#32, 0x00000000#32, 0x0000000C#32] = .ok (.denc 0 0#32 12#32) [] ∧
  decode [0x10000000#32, 0x3FC00000#32] = .ok (.fdec 0x3FC00000#32) [] ∧
  decode [0x11000000#32, 1#32, 0xFFFFFF81#32, 2#32] = .ok (.frec 1#32 0xFFFFFF81#32 2#32) [] ∧
  decode [0x23000100#32, 0x00200000#32, 1#32] = .ok (.nwidth true 0x00200000#32 1#32) [] ∧
  decode [0x23000000#32, 5#32, 4#32, 7#32] = .ok (.nwidth false 5#32 4#32) [7#32] ∧
  decode [0x30FF0000#32] = .ok (.dflush 255) [] ∧
  decode [0x40002000#32, 0x41424344#32] = .ok (.bwr 32 0x41424344#32) [] ∧
  decode [0x41000300#32] = .ok (.brd 3) [] ∧
  decode [0x00000001#32] = .illegal 0x00000001#32 ∧
  decode [0x12000000#32, 0x3F800000#32] = .incomplete

/-! ### The engine -/

/-- A step runs the fetched command (R50, R72): when it is the engine's turn (the agenda is empty, or `engineRun` is its first
turn), no command is executing, ERR = 0, and the words taken so far with those of the FIFO begin with a whole command, the
step is that command's meaning at the state whose FIFO holds the words after it and whose agenda the turns after this one. -/
def Obligations.StepRunsTheFetchedCommand : Prop :=
  ∀ (s : State) (ts : List Turn) (i : Instr) (rest : List Word),
    s.engineActs ts → s.running = none → s.err = none → decode (s.assembler ++ s.fifo) = .ok i rest →
    step s = exec i { s with agenda := ts, assembler := [], fifo := rest }

/-- The engine's other steps. A command that executes ends with its meaning. While ERR = 1 the engine takes no header (R226);
with nothing to take it waits (R251). That a command can be started and left executing, with STATUS.IDLE = 0, and that its
effects come at its end, is the model's form of R50 and R24 (the turn `engineBegin`: assumption 2); that turn starts no second
command, and where there is no whole command to start it does what the engine's turn does. That with operand words missing the
engine moves all the words of the FIFO into the assembler is the model's reading of R38 (assumption 18): R72 says only that it
waits, with STATUS.IDLE = 0. -/
def Obligations.EngineStartsWaitsAndHalts : Prop :=
  ∀ (s : State) (ts : List Turn),
    (let assembles := s.engineActs ts ∨ s.agenda = .engineBegin :: ts
     (∀ i, s.engineActs ts → s.running = some i → step s = exec i { s with agenda := ts, running := none }) ∧
     (∀ i, s.agenda = .engineBegin :: ts → s.running = some i → step s = .next { s with agenda := ts }) ∧
     (∀ i rest, s.agenda = .engineBegin :: ts → s.running = none → s.err = none →
       decode (s.assembler ++ s.fifo) = .ok i rest →
       ∃ t, step s = .next t ∧ t = { s with agenda := ts, assembler := [], fifo := rest, running := some i } ∧
         t.idle = false) ∧
     (∀ h, s.agenda = .engineBegin :: ts → s.running = none → s.err = none →
       decode (s.assembler ++ s.fifo) = .illegal h →
       step s = .next ({ s with agenda := ts }.takeException .illegalCmd h)) ∧
     (assembles → s.running = none → s.err = none →
       s.assembler ++ s.fifo ≠ [] → decode (s.assembler ++ s.fifo) = .incomplete →
       ∃ t, step s = .next t ∧ t = { s with agenda := ts, assembler := s.assembler ++ s.fifo, fifo := [] } ∧
         t.idle = false) ∧
     (assembles → s.running = none → s.err ≠ none → step s = .next { s with agenda := ts }) ∧
     (assembles → s.idle = true → step s = .next { s with agenda := ts }))

/-! ### FDU (40_fdu.md) -/

/-- R102 with R100: FDEC gives the sign, the unbiased exponent (sentinels -127 and 128) and the mantissa. -/
def Obligations.FdecGivesSignExponentMantissa : Prop :=
  ∀ (x : Word) (s : State),
    (let e := (x.extractLsb' 23 8).toNat
     let f := (x.extractLsb' 0 23).toNat
     exec (.fdec x) s = .next { s with
       res0 := if x.getLsbD 31 then 1#32 else 0#32
       res1 := if e = 0 then 0xFFFFFF81#32 else if e = 255 then 0x00000080#32 else BitVec.ofNat 32 e - 127#32
       res2 := BitVec.ofNat 32 (if e = 0 ∨ e = 255 then f else 2 ^ 23 + f)
       cmdcnt := s.cmdcnt + 1#32 })

/-- R103 with R101: FREC gives the word of a legal triple, and raises FDU_DOMAIN for any other. -/
def Obligations.FrecRecomposesLegalTriples : Prop :=
  ∀ (sg e m : Word) (s : State),
    (sg.toNat ≤ 1 → e.toInt = -127 → m.toNat < 2 ^ 23 →
      exec (.frec sg e m) s = .next { s with
        res0 := BitVec.ofNat 32 (sg.toNat * 2 ^ 31 + m.toNat), cmdcnt := s.cmdcnt + 1#32 }) ∧
    (sg.toNat ≤ 1 → -126 ≤ e.toInt → e.toInt ≤ 127 → 2 ^ 23 ≤ m.toNat → m.toNat < 2 ^ 24 →
      exec (.frec sg e m) s = .next { s with
        res0 := BitVec.ofNat 32 (sg.toNat * 2 ^ 31 + (e.toInt + 127).toNat * 2 ^ 23 + (m.toNat - 2 ^ 23))
        cmdcnt := s.cmdcnt + 1#32 }) ∧
    (sg.toNat ≤ 1 → e.toInt = 128 → m.toNat < 2 ^ 23 →
      exec (.frec sg e m) s = .next { s with
        res0 := BitVec.ofNat 32 (sg.toNat * 2 ^ 31 + 255 * 2 ^ 23 + m.toNat), cmdcnt := s.cmdcnt + 1#32 }) ∧
    ((1 < sg.toNat ∨
        ¬ ((e.toInt = -127 ∧ m.toNat < 2 ^ 23) ∨
           (-126 ≤ e.toInt ∧ e.toInt ≤ 127 ∧ 2 ^ 23 ≤ m.toNat ∧ m.toNat < 2 ^ 24) ∨
           (e.toInt = 128 ∧ m.toNat < 2 ^ 23))) →
      exec (.frec sg e m) s = .next (s.takeException .fduDomain 0x11000000#32))

/-- R101's derived property at the commands: FREC of the three results of FDEC gives back the word, for every word. -/
def Obligations.FrecInvertsFdec : Prop :=
  ∀ (x : Word) (s t : State), exec (.fdec x) s = .next t →
    exec (.frec t.res0 t.res1 t.res2) t = .next { t with res0 := x, cmdcnt := t.cmdcnt + 1#32 }

/-- R104, R105, R110: for two normal words FMUL's mantissa and exponent are the exact product rounded to nearest, ties to
even. FMUL completes with them when the product rounds into the normal range, that is from `2^-126 - 2^-151` up to but not
including `2^128 - 2^103`; below and above it raises FDU_DOMAIN. -/
def Obligations.FmulRoundsToNearestEven : Prop :=
  ∀ (a b : Word) (s : State),
    1 ≤ expField a → expField a ≤ 254 → 1 ≤ expField b → expField b ≤ 254 →
    (let p : ℚ := absVal a * absVal b
     let low : ℚ := (2 : ℚ) ^ (-126 : ℤ) - (2 : ℚ) ^ (-151 : ℤ)
     let high : ℚ := (2 : ℚ) ^ (128 : ℤ) - (2 : ℚ) ^ (103 : ℤ)
     (low ≤ p → p < high →
       ∃ (m : ℕ) (e : ℤ), NearestEven p m e ∧ -126 ≤ e ∧ e ≤ 127 ∧
         exec (.fmul a b) s = .next { s with
           res0 := BitVec.ofNat 32 ((signBit a ^^ signBit b).toNat * 2 ^ 31 + (e + 127).toNat * 2 ^ 23 + (m - 2 ^ 23))
           res1 := BitVec.ofNat 32 (signBit a ^^ signBit b).toNat
           res2 := BitVec.ofInt 32 e
           res3 := BitVec.ofNat 32 m
           cmdcnt := s.cmdcnt + 1#32 }) ∧
     (p < low ∨ high ≤ p → exec (.fmul a b) s = .next (s.takeException .fduDomain 0x12000000#32)))

/-- R104, R105: FMUL of a zero and a zero or normal word gives the signed zero; an Infinity, NaN or nonzero subnormal
operand raises FDU_DOMAIN. -/
def Obligations.FmulOfZerosAndSpecials : Prop :=
  ∀ (a b : Word) (s : State),
    ((a.extractLsb' 0 31 = 0#31 ∧ (b.extractLsb' 0 31 = 0#31 ∨ (1 ≤ expField b ∧ expField b ≤ 254)) ∨
      b.extractLsb' 0 31 = 0#31 ∧ (1 ≤ expField a ∧ expField a ≤ 254)) →
      exec (.fmul a b) s = .next { s with
        res0 := BitVec.ofNat 32 ((signBit a ^^ signBit b).toNat * 2 ^ 31)
        res1 := BitVec.ofNat 32 (signBit a ^^ signBit b).toNat
        res2 := 0xFFFFFF81#32
        res3 := 0#32
        cmdcnt := s.cmdcnt + 1#32 }) ∧
    ((expField a = 255 ∨ expField b = 255 ∨
        (expField a = 0 ∧ fracField a ≠ 0) ∨ (expField b = 0 ∧ fracField b ≠ 0)) →
      exec (.fmul a b) s = .next (s.takeException .fduDomain 0x12000000#32))

/-- R106, R107: for finite operands and a divisor other than ±0, FDIV completes with the sign XOR and the magnitude
nearest to the exact quotient, ties to even, subnormals included; a quotient that rounds past the largest finite word
gives Infinity. For a NaN or Infinity operand or a ±0 divisor FDIV raises FDU_DOMAIN. -/
def Obligations.FdivRoundsToNearestEvenOrRaises : Prop :=
  ∀ (x y : Word) (s : State),
    (expField x ≠ 255 → expField y ≠ 255 → y.extractLsb' 0 31 ≠ 0#31 →
      ∃ r : Word, exec (.fdiv x y) s = .next { s with res0 := r, cmdcnt := s.cmdcnt + 1#32 } ∧
        signBit r = (signBit x ^^ signBit y) ∧
        (absVal x / absVal y < 2 ^ 128 - 2 ^ 103 → NearestFinite (absVal x / absVal y) r) ∧
        (2 ^ 128 - 2 ^ 103 ≤ absVal x / absVal y → expField r = 255 ∧ fracField r = 0)) ∧
    ((expField x = 255 ∨ expField y = 255 ∨ y.extractLsb' 0 31 = 0#31) →
      exec (.fdiv x y) s = .next (s.takeException .fduDomain 0x13000000#32))

/-- R109 with R108: FPOW2 gives the normal, subnormal or out-of-range word of `2^shift`. -/
def Obligations.Fpow2GivesThePowerOfTwo : Prop :=
  ∀ (sh : Word) (s : State), exec (.fpow2 sh) s = .next { s with
    res0 :=
      if -126 ≤ sh.toInt ∧ sh.toInt ≤ 127 then BitVec.ofNat 32 ((sh.toInt + 127).toNat * 2 ^ 23)
      else if -149 ≤ sh.toInt ∧ sh.toInt ≤ -127 then BitVec.ofNat 32 (2 ^ (sh.toInt + 149).toNat)
      else if 127 < sh.toInt then 0x7F800000#32
      else 0#32
    cmdcnt := s.cmdcnt + 1#32 }

/-! ### RCU (41_rcu.md) -/

/-- R131: the checks of RECON in order, and its result by the two multiplications. -/
def Obligations.ReconChecksThenMultipliesTwice : Prop :=
  ∀ (q sh a : Word) (s : State),
    (let ir := s.intres.toNat
     let inRange := -2 ^ (ir - 1) ≤ q.toInt ∧ q.toInt ≤ 2 ^ (ir - 1) - 1
     let normal := 1 ≤ expField a ∧ expField a ≤ 254
     let first := multiply (decompose (intToBinary32 q.toInt)) (decompose (powerOfTwo (sh.toNat + 1 - ir)))
     ((ir = 0 ∨ 24 < ir) → exec (.recon q sh a) s = .next (s.takeException .config 0x20000000#32)) ∧
     (1 ≤ ir → ir ≤ 24 → 255 < sh.toNat →
       exec (.recon q sh a) s = .next (s.takeException .badOperand 0x20000000#32)) ∧
     (1 ≤ ir → ir ≤ 24 → sh.toNat ≤ 255 → ¬ inRange →
       exec (.recon q sh a) s = .next (s.takeException .rcuRange 0x20000000#32)) ∧
     (1 ≤ ir → ir ≤ 24 → sh.toNat ≤ 255 → inRange →
       (¬ normal ∨ first = none ∨ (∃ t, first = some t ∧ multiply t (decompose a) = none)) →
       exec (.recon q sh a) s = .next (s.takeException .rcuDomain 0x20000000#32)) ∧
     (1 ≤ ir → ir ≤ 24 → sh.toNat ≤ 255 → inRange → normal →
       ∀ t y, first = some t → multiply t (decompose a) = some y →
         exec (.recon q sh a) s = .next { s with res0 := recompose y, cmdcnt := s.cmdcnt + 1#32 }))

/-- R131's corner cases: RECON completes for every admitted q, `q = -2^(IR-1)` among them, while the scale exponent
leaves room; with a = 1.0 it gives the scaled integer exactly, and for q = 0 the zero with the sign of a. -/
def Obligations.ReconIsExactForUnitMultiplier : Prop :=
  ∀ (q sh a : Word) (s : State),
    1 ≤ s.intres.toNat → s.intres.toNat ≤ 24 → sh.toNat ≤ 103 →
    -2 ^ (s.intres.toNat - 1) ≤ q.toInt → q.toInt ≤ 2 ^ (s.intres.toNat - 1) - 1 →
    (a = 0x3F800000#32 →
      ∃ r : Word, exec (.recon q sh a) s = .next { s with res0 := r, cmdcnt := s.cmdcnt + 1#32 } ∧
        expField r ≠ 255 ∧
        wordVal r = (q.toInt : ℚ) * (2 : ℚ) ^ ((sh.toNat : ℤ) + 1 - (s.intres.toNat : ℤ))) ∧
    (q = 0#32 → 1 ≤ expField a → expField a ≤ 254 →
      exec (.recon q sh a) s = .next { s with
        res0 := BitVec.ofNat 32 ((signBit a).toNat * 2 ^ 31), cmdcnt := s.cmdcnt + 1#32 })

/-- R132 with R130: RESID gives the mantissa delta, the exponent difference and the byte count, or raises the first
failing check. `mx` and `my` are the 24-bit mantissas of two normal words. -/
def Obligations.ResidGivesTheMantissaDelta : Prop :=
  ∀ (x y : Word) (s : State),
    (let ex := expField x
     let ey := expField y
     let mx : ℤ := 2 ^ 23 + fracField x
     let my : ℤ := 2 ^ 23 + fracField y
     let D : ℤ := mx * 2 ^ (ex - ey) - my
     let normal := 1 ≤ ex ∧ ex ≤ 254 ∧ 1 ≤ ey ∧ ey ≤ 254
     let ordered := signBit x = signBit y ∧ ey ≤ ex ∧ 0 ≤ D
     (¬ normal → exec (.resid x y) s = .next (s.takeException .rcuDomain 0x21000000#32)) ∧
     (normal → ¬ ordered → exec (.resid x y) s = .next (s.takeException .rcuOrder 0x21000000#32)) ∧
     (normal → ordered → 2 ^ 24 ≤ D →
       exec (.resid x y) s = .next (s.takeException .rcuRange 0x21000000#32)) ∧
     (normal → ordered → D < 2 ^ 24 →
       exec (.resid x y) s = .next { s with
         res0 := BitVec.ofInt 32 D
         res1 := BitVec.ofNat 32 (ex - ey)
         res2 := if D = 0 then 0#32 else if D < 2 ^ 8 then 1#32 else if D < 2 ^ 16 then 2#32 else 3#32
         cmdcnt := s.cmdcnt + 1#32 }))

/-- R134: UNRES adds the delta to the mantissa and renormalizes by one bit, or raises the first failing check. -/
def Obligations.UnresAddsTheDelta : Prop :=
  ∀ (y d : Word) (s : State),
    (let e := expField y
     let T := 2 ^ 23 + fracField y + d.toNat
     let sg := (signBit y).toNat * 2 ^ 31
     let normal := 1 ≤ e ∧ e ≤ 254
     (¬ normal → exec (.unres y d) s = .next (s.takeException .rcuDomain 0x22000000#32)) ∧
     (normal → (2 ^ 24 ≤ d.toNat ∨ (2 ^ 24 ≤ T ∧ T % 2 = 1) ∨ (2 ^ 24 ≤ T ∧ e = 254)) →
       exec (.unres y d) s = .next (s.takeException .rcuRange 0x22000000#32)) ∧
     (normal → d.toNat < 2 ^ 24 → T < 2 ^ 24 →
       exec (.unres y d) s = .next { s with
         res0 := BitVec.ofNat 32 (sg + e * 2 ^ 23 + (T - 2 ^ 23)), cmdcnt := s.cmdcnt + 1#32 }) ∧
     (normal → d.toNat < 2 ^ 24 → 2 ^ 24 ≤ T → T % 2 = 0 → e < 254 →
       exec (.unres y d) s = .next { s with
         res0 := BitVec.ofNat 32 (sg + (e + 1) * 2 ^ 23 + (T / 2 - 2 ^ 23)), cmdcnt := s.cmdcnt + 1#32 }))

/-- R134: "For every (x, y) on which RESID does not raise, UNRES(y, RESID(x, y).D) = x". -/
def Obligations.UnresInvertsResid : Prop :=
  ∀ (x y : Word) (s t : State), s.err = none → exec (.resid x y) s = .next t → t.err = none →
    exec (.unres y t.res0) t = .next { t with res0 := x, cmdcnt := t.cmdcnt + 1#32 }

/-- R135: the Part B width of a sample; `L` is the bit length of |q|. -/
def Obligations.NwidthGivesThePartBWidth : Prop :=
  ∀ (f : Bool) (q hb : Word) (s : State) (L : ℕ),
    (let aq := q.toInt.natAbs
     let h := if f then 0x23000100#32 else 0x23000000#32
     ((aq = 0 ∨ 2 ^ 24 ≤ aq) → exec (.nwidth f q hb) s = .next (s.takeException .rcuRange h)) ∧
     (aq ≠ 0 → aq < 2 ^ 24 → 3 < hb.toNat →
       exec (.nwidth f q hb) s = .next (s.takeException .badOperand h)) ∧
     (aq < 2 ^ 24 → hb.toNat ≤ 3 → 1 ≤ L → 2 ^ (L - 1) ≤ aq → aq < 2 ^ L →
       exec (.nwidth f q hb) s = .next { s with
         res0 := BitVec.ofNat 32 (if f then min (8 * hb.toNat) (24 - L) else 8 * hb.toNat)
         cmdcnt := s.cmdcnt + 1#32 }))

/-- R139: PACKA stores the four bytes of the word, most significant first and every width 8, and changes no other entry;
it raises SYM_RANGE when the last entry does not exist. -/
def Obligations.PackaStoresFourSymbols : Prop :=
  ∀ (x idx : Word) (s : State),
    (s.params.symDepth < idx.toNat + 4 →
      exec (.packa x idx) s = .next (s.takeException .symRange 0x24000000#32)) ∧
    (idx.toNat + 4 ≤ s.params.symDepth →
      ∃ m, exec (.packa x idx) s = .next { s with
          sym := m, res0 := BitVec.ofNat 32 (idx.toNat + 4), cmdcnt := s.cmdcnt + 1#32 } ∧
        ∀ a, m.read a =
          if idx.toNat ≤ a ∧ a < idx.toNat + 4 then
            some { sym := BitVec.ofNat 8 (x.toNat / 2 ^ (24 - 8 * (a - idx.toNat))), width := 8#4 }
          else s.sym.read a)

/-- R140 with R138: PACKB stores the `⌈W/8⌉` symbols of the residual, the first with the top `r` bits left-aligned and
width `r`, the others whole bytes of width 8, and changes no other entry; else it raises the first failing check. -/
def Obligations.PackbStoresTheResidualSymbols : Prop :=
  ∀ (d w idx : Word) (s : State),
    (let n := (w.toNat + 7) / 8
     let r := w.toNat - 8 * (n - 1)
     (24 < w.toNat → exec (.packb d w idx) s = .next (s.takeException .badOperand 0x25000000#32)) ∧
     (w.toNat ≤ 24 → 2 ^ w.toNat ≤ d.toNat →
       exec (.packb d w idx) s = .next (s.takeException .rcuRange 0x25000000#32)) ∧
     (w.toNat ≤ 24 → d.toNat < 2 ^ w.toNat → s.params.symDepth < idx.toNat + n →
       exec (.packb d w idx) s = .next (s.takeException .symRange 0x25000000#32)) ∧
     (w.toNat ≤ 24 → d.toNat < 2 ^ w.toNat → idx.toNat + n ≤ s.params.symDepth →
       ∃ m, exec (.packb d w idx) s = .next { s with
           sym := m, res0 := BitVec.ofNat 32 (idx.toNat + n), cmdcnt := s.cmdcnt + 1#32 } ∧
         ∀ a, m.read a =
           if idx.toNat ≤ a ∧ a < idx.toNat + n then
             if a = idx.toNat then
               some { sym := BitVec.ofNat 8 (d.toNat / 2 ^ (8 * (n - 1)) * 2 ^ (8 - r)), width := BitVec.ofNat 4 r }
             else some { sym := BitVec.ofNat 8 (d.toNat / 2 ^ (8 * (n - 1 - (a - idx.toNat)))), width := 8#4 }
           else s.sym.read a))

/-- R141, R142, R37: UNPACKA and UNPACKB of written entries complete and change no memory; an unwritten entry among those
they read is the model fault READ_UNWRITTEN; an entry past the end raises SYM_RANGE, a width above 24 BAD_OPERAND. -/
def Obligations.UnpackReadsWrittenEntries : Prop :=
  (∀ (idx : Word) (s : State),
    (s.params.symDepth < idx.toNat + 4 →
      exec (.unpacka idx) s = .next (s.takeException .symRange 0x26000000#32)) ∧
    (idx.toNat + 4 ≤ s.params.symDepth → (∃ j, j < 4 ∧ s.sym.read (idx.toNat + j) = none) →
      exec (.unpacka idx) s = .fault .readUnwritten) ∧
    (∀ e0 e1 e2 e3 : Sym, idx.toNat + 4 ≤ s.params.symDepth →
      s.sym.read idx.toNat = some e0 → s.sym.read (idx.toNat + 1) = some e1 →
      s.sym.read (idx.toNat + 2) = some e2 → s.sym.read (idx.toNat + 3) = some e3 →
      exec (.unpacka idx) s = .next { s with
        res0 := e0.sym ++ e1.sym ++ e2.sym ++ e3.sym
        res1 := BitVec.ofNat 32 (idx.toNat + 4)
        cmdcnt := s.cmdcnt + 1#32 })) ∧
  (∀ (idx w : Word) (s : State),
    (let n := (w.toNat + 7) / 8
     (24 < w.toNat → exec (.unpackb idx w) s = .next (s.takeException .badOperand 0x27000000#32)) ∧
     (w.toNat ≤ 24 → s.params.symDepth < idx.toNat + n →
       exec (.unpackb idx w) s = .next (s.takeException .symRange 0x27000000#32)) ∧
     (w.toNat ≤ 24 → idx.toNat + n ≤ s.params.symDepth → (∃ j, j < n ∧ s.sym.read (idx.toNat + j) = none) →
       exec (.unpackb idx w) s = .fault .readUnwritten) ∧
     (w.toNat ≤ 24 → idx.toNat + n ≤ s.params.symDepth → (∀ j, j < n → s.sym.read (idx.toNat + j) ≠ none) →
       ∃ v : Word, v.toNat < 2 ^ w.toNat ∧ exec (.unpackb idx w) s = .next { s with
         res0 := v, res1 := BitVec.ofNat 32 (idx.toNat + n), cmdcnt := s.cmdcnt + 1#32 })))

/-- R139, R141 (S1, the Part A half): UNPACKA after PACKA gives the word back bit for bit. R142: UNPACKB after PACKB gives
the residual back, "and it still returns D when each symbol's byte is replaced by any byte with the same top `width` bits".
`u` is any state whose entries agree so with those PACKB left. -/
def Obligations.UnpackInvertsPack : Prop :=
  (∀ (x idx : Word) (s t : State), s.err = none → exec (.packa x idx) s = .next t → t.err = none →
    exec (.unpacka idx) t = .next { t with
      res0 := x, res1 := BitVec.ofNat 32 (idx.toNat + 4), cmdcnt := t.cmdcnt + 1#32 }) ∧
  (∀ (d w idx : Word) (s t u : State), s.err = none → exec (.packb d w idx) s = .next t → t.err = none →
    u.params = t.params →
    (∀ j, j < (w.toNat + 7) / 8 → ∃ x y : Sym,
      t.sym.read (idx.toNat + j) = some x ∧ u.sym.read (idx.toNat + j) = some y ∧
      topBits x.width.toNat y.sym = topBits x.width.toNat x.sym) →
    exec (.unpackb idx w) u = .next { u with
      res0 := d, res1 := BitVec.ofNat 32 (idx.toNat + (w.toNat + 7) / 8), cmdcnt := u.cmdcnt + 1#32 })

/-! ### MDC (42_mdc.md) -/

/-- R172 with R164: DFLUSH leaves a fresh dictionary in the channel, or in every channel for 0xFF, poisoned ones
included, and keeps the snapshots; a channel that does not exist raises BAD_CHAN. -/
def Obligations.DflushLeavesFreshDictionaries : Prop :=
  ∀ (c : Nat) (s : State),
    (c = 255 → ∃ ds, exec (.dflush c) s = .next { s with dict := ds, cmdcnt := s.cmdcnt + 1#32 } ∧
      ds.length = s.dict.length ∧
      ∀ k, k < s.dict.length → ds[k]? = some (.live { ent := [], next := 258, w := 9, frz := false })) ∧
    (c ≠ 255 → c < s.params.nch → exec (.dflush c) s = .next { s with
      dict := s.dict.set c (.live { ent := [], next := 258, w := 9, frz := false }), cmdcnt := s.cmdcnt + 1#32 }) ∧
    (c ≠ 255 → s.params.nch ≤ c →
      exec (.dflush c) s = .next (s.takeException .badChan (Instr.dflush c).header))

/-- R173: DBACKUP copies the dictionary of a channel that is not poisoned into its snapshot slot. R174: DRESUME puts the
snapshot back, clears the poison and keeps the snapshot valid; with none it raises MDC_NOSNAP. -/
def Obligations.DbackupAndDresumeCopyTheDictionary : Prop :=
  ∀ (c : Nat) (s : State),
    ((s.params.nch ≤ c → exec (.dbackup c) s = .next (s.takeException .badChan (Instr.dbackup c).header)) ∧
      (c < s.params.nch → s.dict[c]? = some .poisoned →
        exec (.dbackup c) s = .next (s.takeException .mdcPoisoned (Instr.dbackup c).header)) ∧
      (∀ d, c < s.params.nch → s.dict[c]? = some (.live d) →
        exec (.dbackup c) s = .next { s with snap := s.snap.set c (some d), cmdcnt := s.cmdcnt + 1#32 })) ∧
    ((s.params.nch ≤ c → exec (.dresume c) s = .next (s.takeException .badChan (Instr.dresume c).header)) ∧
      (c < s.params.nch → s.snap[c]? = some none →
        exec (.dresume c) s = .next (s.takeException .mdcNoSnap (Instr.dresume c).header)) ∧
      (∀ d, c < s.params.nch → s.snap[c]? = some (some d) →
        exec (.dresume c) s = .next { s with dict := s.dict.set c (.live d), cmdcnt := s.cmdcnt + 1#32 }))

/-- R175: DSTAT reports NEXT, W, FRZ/POISON/snapshot and the BUMP code; on a poisoned channel only POISON and the
snapshot bit of RES2 are fixed, whatever the draws are. -/
def Obligations.DstatReportsTheScalars : Prop :=
  ∀ (c : Nat) (s : State),
    (s.params.nch ≤ c → exec (.dstat c) s = .next (s.takeException .badChan (Instr.dstat c).header)) ∧
    (∀ d sn, c < s.params.nch → s.dict[c]? = some (.live d) → s.snap[c]? = some sn →
      exec (.dstat c) s = .next { s with
        res0 := BitVec.ofNat 32 d.next
        res1 := BitVec.ofNat 32 d.w
        res2 := BitVec.ofNat 32 (d.frz.toNat + 4 * sn.isSome.toNat)
        res3 := BitVec.ofNat 32 (2 ^ d.w - 1)
        cmdcnt := s.cmdcnt + 1#32 }) ∧
    (∀ sn, c < s.params.nch → s.dict[c]? = some .poisoned → s.snap[c]? = some sn →
      ∃ (r0 r1 r3 : Word) (b : Bool) (k : Nat), exec (.dstat c) s = .next { s with
        res0 := r0, res1 := r1, res3 := r3
        res2 := BitVec.ofNat 32 (b.toNat + 2 + 4 * sn.isSome.toNat)
        draws := k
        cmdcnt := s.cmdcnt + 1#32 })

/-- R168: the match is the literal of the first symbol or the last code of a chain below it, its length one more than the
chain's; no explored chain is longer, and among chains of equal length it is the first of the depth-first order, that is the
least in the lexicographic order of their codes. `Chain` explores at each node the first four matching children
(`ExploredChild`), matching being agreement on the symbol's top `width` bits. -/
def Obligations.MatchIsTheFirstLongestChain : Prop :=
  ∀ (d : Dict) (x : Sym) (xs : List Sym), d.Inv →
    ∃ path, Chain d.ent x.sym.toNat xs path ∧
      longestMatch d.ent x xs = (path.getLastD x.sym.toNat, path.length + 1) ∧
      ∀ path', Chain d.ent x.sym.toNat xs path' →
        path'.length < path.length ∨
          (path'.length = path.length ∧ (path' = path ∨ List.Lex (· < ·) path path'))

/-- R170, R163, R165, R169: the code sequence of DENC, code by code. Each code is that of R168's match, `W` bits least
significant first; the last one covers the last symbol. Between two codes, unless FRZ = 1, the entry (code, next byte) of
length `L + 1` is made at NEXT, and when NEXT has then reached `2^W - 1` the control code follows at the width before it:
BUMP and a wider code below `W = 15`, FLUSH and an empty dictionary at `W = 15`. The case in which NEXT was `2^W - 1` before
the entry is the model's reading (assumption 13). -/
def Obligations.EncodingEmitsMatchesAndGrows : Prop :=
  ∀ (d : Dict) (x : Sym) (xs : List Sym), d.Inv →
    (let k := (longestMatch d.ent x xs).1
     let L := (longestMatch d.ent x xs).2
     let bits := fun (w v : Nat) => (List.range w).map fun j => v.testBit j
     d.encode [] = ([], d) ∧ 1 ≤ L ∧ L ≤ xs.length + 1 ∧
     (L = xs.length + 1 → d.encode (x :: xs) = (bits d.w k, d)) ∧
     (∀ y ys, (x :: xs).drop L = y :: ys →
       let goesOn := fun (control : List Bool) (e : Dict) =>
         d.encode (x :: xs) = (bits d.w k ++ control ++ (e.encode (y :: ys)).1, (e.encode (y :: ys)).2)
       let made := fun (w : Nat) =>
         ({ ent := d.ent.write d.next { parent := k, sym := y.sym, len := L + 1 }
            next := d.next + 1, w := w, frz := false } : Dict)
       (d.frz = true → goesOn [] d) ∧
       (d.frz = false → d.next + 1 < 2 ^ d.w - 1 → goesOn [] (made d.w)) ∧
       (d.frz = false → 2 ^ d.w - 1 ≤ d.next + 1 → d.w < 15 → goesOn (bits d.w (2 ^ d.w - 1)) (made (d.w + 1))) ∧
       (d.frz = false → 2 ^ d.w - 1 ≤ d.next + 1 → d.w = 15 →
         goesOn (bits 15 256) { ent := [], next := 258, w := 9, frz := false })))

/-- R170: with its symbols written and of width 1..8 and room for the code sequence, DENC completes: the codes stand at
WPTR, no other bit changes, the dictionary is the encoder's, RES0 and WPTR count the bits. -/
def Obligations.DencWritesTheCodeSequence : Prop :=
  ∀ (s : State) (c : Nat) (base n : Word) (d : Dict) (xs : List Sym),
    c < s.params.nch → s.dict[c]? = some (.live d) → base.toNat + n.toNat ≤ s.params.symDepth →
    xs.length = n.toNat → (∀ j, j < n.toNat → s.sym.read (base.toNat + j) = xs[j]?) →
    (∀ x ∈ xs, 1 ≤ x.width.toNat ∧ x.width.toNat ≤ 8) →
    s.wptr.toNat + (d.encode xs).1.length ≤ s.bitLen →
    ∃ m, exec (.denc c base n) s = .next { s with
        dict := s.dict.set c (.live (d.encode xs).2)
        bit := m
        res0 := BitVec.ofNat 32 (d.encode xs).1.length
        wptr := BitVec.ofNat 32 (s.wptr.toNat + (d.encode xs).1.length)
        cmdcnt := s.cmdcnt + 1#32 } ∧
      ∀ p, m.read p =
        if s.wptr.toNat ≤ p ∧ p < s.wptr.toNat + (d.encode xs).1.length then (d.encode xs).1[p - s.wptr.toNat]?
        else s.bit.read p

/-- R170's corner cases with R165: n = 0 writes nothing and gives RES0 = 0; n = 1 emits the one literal at the current
width, least significant bit first, and creates no entry. -/
def Obligations.DencOfAtMostOneSymbol : Prop :=
  ∀ (s : State) (c : Nat) (base n : Word) (d : Dict),
    s.params.valid → s.wptr.toNat ≤ s.bitLen → c < s.params.nch → s.dict[c]? = some (.live d) →
    base.toNat + n.toNat ≤ s.params.symDepth →
    (n = 0#32 → exec (.denc c base n) s = .next { s with res0 := 0#32, cmdcnt := s.cmdcnt + 1#32 }) ∧
    (∀ x : Sym, n = 1#32 → s.sym.read base.toNat = some x → 1 ≤ x.width.toNat → x.width.toNat ≤ 8 →
      s.wptr.toNat + d.w ≤ s.bitLen →
      ∃ m, exec (.denc c base n) s = .next { s with
          bit := m, res0 := BitVec.ofNat 32 d.w, wptr := BitVec.ofNat 32 (s.wptr.toNat + d.w)
          cmdcnt := s.cmdcnt + 1#32 } ∧
        ∀ p, m.read p =
          if s.wptr.toNat ≤ p ∧ p < s.wptr.toNat + d.w then some (x.sym.toNat.testBit (p - s.wptr.toNat))
          else s.bit.read p)

/-- R170, R223: the checks of DENC in order; BIT_RANGE leaves the dictionary, WPTR and RES0. Three readings of the model are in
it: the bits from WPTR on, which R170 calls unspecified, are unwritten (U5 of 93), also when ERR was 1 before (assumption 11);
and which of an unwritten symbol (READ_UNWRITTEN, R37) and a bad width stops the command is the order of its reads
(assumption 19). -/
def Obligations.DencChecksInOrder : Prop :=
  ∀ (s : State) (c : Nat) (base n : Word),
    (let h := (Instr.denc c base n).header
     (s.params.nch ≤ c → exec (.denc c base n) s = .next (s.takeException .badChan h)) ∧
     (c < s.params.nch → s.dict[c]? = some .poisoned →
       exec (.denc c base n) s = .next (s.takeException .mdcPoisoned h)) ∧
     (∀ d, c < s.params.nch → s.dict[c]? = some (.live d) → s.params.symDepth < base.toNat + n.toNat →
       exec (.denc c base n) s = .next (s.takeException .symRange h)) ∧
     (∀ d j x, c < s.params.nch → s.dict[c]? = some (.live d) → base.toNat + n.toNat ≤ s.params.symDepth →
       j < n.toNat → s.sym.read (base.toNat + j) = some x → ¬ (1 ≤ x.width.toNat ∧ x.width.toNat ≤ 8) →
       (∀ k, k < j → s.sym.read (base.toNat + k) ≠ none) →
       exec (.denc c base n) s = .next (s.takeException .badOperand h)) ∧
     (∀ d j, c < s.params.nch → s.dict[c]? = some (.live d) → base.toNat + n.toNat ≤ s.params.symDepth →
       j < n.toNat → s.sym.read (base.toNat + j) = none →
       (∀ k, k < j → ∃ x, s.sym.read (base.toNat + k) = some x ∧ 1 ≤ x.width.toNat ∧ x.width.toNat ≤ 8) →
       exec (.denc c base n) s = .fault .readUnwritten) ∧
     (∀ d xs, c < s.params.nch → s.dict[c]? = some (.live d) → base.toNat + n.toNat ≤ s.params.symDepth →
       xs.length = n.toNat → (∀ j, j < n.toNat → s.sym.read (base.toNat + j) = xs[j]?) →
       (∀ x ∈ xs, 1 ≤ x.width.toNat ∧ x.width.toNat ≤ 8) →
       s.bitLen < s.wptr.toNat + (d.encode xs).1.length →
       ∃ m, exec (.denc c base n) s = .next ({ s with bit := m }.takeException .bitRange h) ∧
         ∀ p, m.read p = if p < s.wptr.toNat then s.bit.read p else none))

/-- R171: DDEC of one literal code, and DDEC of no symbol, complete: the byte goes to SYM[base] with width 8, RES0 and RPTR
count the bits, the dictionary is unchanged. -/
def Obligations.DdecOfAtMostOneLiteral : Prop :=
  ∀ (s : State) (c : Nat) (base n : Word) (d : Dict),
    s.params.valid → s.rptr.toNat ≤ s.bitLen → c < s.params.nch → s.dict[c]? = some (.live d) → 9 ≤ d.w →
    base.toNat + n.toNat ≤ s.params.symDepth →
    (n = 0#32 → exec (.ddec c base n) s = .next { s with res0 := 0#32, cmdcnt := s.cmdcnt + 1#32 }) ∧
    (∀ b : Byte, n = 1#32 → s.rptr.toNat + d.w ≤ s.bitLen →
      (∀ j, j < d.w → s.bit.read (s.rptr.toNat + j) = some (b.toNat.testBit j)) →
      ∃ m, exec (.ddec c base n) s = .next { s with
          sym := m, res0 := BitVec.ofNat 32 d.w, rptr := BitVec.ofNat 32 (s.rptr.toNat + d.w)
          cmdcnt := s.cmdcnt + 1#32 } ∧
        ∀ a, m.read a = if a = base.toNat then some { sym := b, width := 8#4 } else s.sym.read a)

/-- R171, R161: the control codes before a literal: FLUSH (256, and 32767 at width 15) clears the dictionary and returns to
width 9, FREEZE (257) sets FRZ, BUMP (2^W - 1 below width 15) widens the code that follows by one bit; each completes and
writes no symbol of its own. -/
def Obligations.DdecAppliesControlCodes : Prop :=
  ∀ (s : State) (c : Nat) (base : Word) (d d' : Dict) (v : Nat) (b : Byte),
    s.params.valid → c < s.params.nch → s.dict[c]? = some (.live d) → 9 ≤ d.w → base.toNat + 1 ≤ s.params.symDepth →
    ((v = 256 ∨ (d.w = 15 ∧ v = 32767)) ∧ d' = { ent := [], next := 258, w := 9, frz := false } ∨
      v = 257 ∧ d' = { d with frz := true } ∨
      d.w < 15 ∧ v = 2 ^ d.w - 1 ∧ d' = { d with w := d.w + 1 }) →
    s.rptr.toNat + d.w + d'.w ≤ s.bitLen →
    (∀ j, j < d.w → s.bit.read (s.rptr.toNat + j) = some (v.testBit j)) →
    (∀ j, j < d'.w → s.bit.read (s.rptr.toNat + d.w + j) = some (b.toNat.testBit j)) →
    ∃ m, exec (.ddec c base 1#32) s = .next { s with
        dict := s.dict.set c (.live d')
        sym := m
        res0 := BitVec.ofNat 32 (d.w + d'.w)
        rptr := BitVec.ofNat 32 (s.rptr.toNat + d.w + d'.w)
        cmdcnt := s.cmdcnt + 1#32 } ∧
      ∀ a, m.read a = if a = base.toNat then some { sym := b, width := 8#4 } else s.sym.read a

/-- R171 with R166, R162, R163, R167: DDEC is the loop of R171. Whatever codes it has read (`DecodeRound`, `CodeEffect`: the
bytes of literals and string codes, the code equal to NEXT, the entries made, the control codes), it then
* completes when exactly `n` symbols are out: they stand at base..base+n-1 with width 8, every other entry reads as before, the
  dictionary is the loop's, RES0 and RPTR count the bits;
* ends with MDC_CORRUPT on a code with the effect `none`: no bytes, more bytes than symbols expected, or an entry at the BUMP
  code; and with BIT_RANGE on a code that would cross the end of the bit memory: the channel is poisoned, the destination
  entries are unwritten (U4 of 93), also when ERR was 1 before (assumption 11);
* is the model fault READ_UNWRITTEN (R37) on a code with an unwritten bit. -/
def Obligations.DdecFollowsItsCodes : Prop :=
  ∀ (s : State) (c : Nat) (base n : Word) (d : Dict) (t : Decoding),
    c < s.params.nch → s.dict[c]? = some (.live d) → d.Inv → base.toNat + n.toNat ≤ s.params.symDepth →
    Relation.ReflTransGen (DecodeRound s.bit s.bitLen n.toNat) { p := s.rptr.toNat, d := d, prev := none, out := [] } t →
    (let poisonedBy := fun (cause : Cause) =>
       ∃ m, exec (.ddec c base n) s =
           .next ({ s with dict := s.dict.set c .poisoned, sym := m }.takeException cause
             (Instr.ddec c base n).header) ∧
         ∀ a, m.read a = if base.toNat ≤ a ∧ a < base.toNat + n.toNat then none else s.sym.read a
     (t.out.length = n.toNat →
       ∃ m, exec (.ddec c base n) s = .next { s with
           dict := s.dict.set c (.live t.d)
           sym := m
           res0 := BitVec.ofNat 32 (t.p - s.rptr.toNat)
           rptr := BitVec.ofNat 32 t.p
           cmdcnt := s.cmdcnt + 1#32 } ∧
         ∀ a, m.read a =
           if base.toNat ≤ a ∧ a < base.toNat + n.toNat then
             t.out[a - base.toNat]?.map fun b => { sym := b, width := 8#4 }
           else s.sym.read a) ∧
     (∀ v, t.out.length < n.toNat → CodeAt s.bit s.bitLen t v →
       CodeEffect n.toNat { t with p := t.p + t.d.w } v none → poisonedBy .mdcCorrupt) ∧
     (t.out.length < n.toNat → s.bitLen < t.p + t.d.w → poisonedBy .bitRange) ∧
     (∀ j, t.out.length < n.toNat → t.p + t.d.w ≤ s.bitLen → j < t.d.w → s.bit.read (t.p + j) = none →
       exec (.ddec c base n) s = .fault .readUnwritten))

/-- R167, R225, U4 of 93: every DDEC that ends with MDC_CORRUPT or BIT_RANGE, from ERR = 0, is fatal: its channel is poisoned,
its destination entries are unwritten, and nothing else changes but the exception registers, the FIFO and the log. It so ends
on a first code that is no control code and not below NEXT (MDC_CORRUPT), and on a first code that would cross the end of the
bit memory (BIT_RANGE); later codes are those of `DdecFollowsItsCodes`. These two clauses hold also when ERR was 1 before
(assumption 11). -/
def Obligations.DdecFatalErrorsPoison : Prop :=
  (∀ (s t : State) (c : Nat) (base n : Word), s.err = none → exec (.ddec c base n) s = .next t →
    (t.err = some .mdcCorrupt ∨ t.err = some .bitRange) →
    ∃ cause m, t = { s with dict := s.dict.set c .poisoned, sym := m }.takeException cause (Instr.ddec c base n).header ∧
      ∀ a, m.read a = if base.toNat ≤ a ∧ a < base.toNat + n.toNat then none else s.sym.read a) ∧
  (∀ (s : State) (c : Nat) (base n : Word) (d : Dict),
    c < s.params.nch → s.dict[c]? = some (.live d) → d.Inv → base.toNat + n.toNat ≤ s.params.symDepth → n ≠ 0#32 →
    (let poisonedBy := fun (cause : Cause) =>
       ∃ m, exec (.ddec c base n) s =
           .next ({ s with dict := s.dict.set c .poisoned, sym := m }.takeException cause
             (Instr.ddec c base n).header) ∧
         ∀ a, m.read a = if base.toNat ≤ a ∧ a < base.toNat + n.toNat then none else s.sym.read a
     (∀ v, d.next ≤ v → v < 2 ^ d.w - 1 → s.rptr.toNat + d.w ≤ s.bitLen →
       (∀ j, j < d.w → s.bit.read (s.rptr.toNat + j) = some (v.testBit j)) → poisonedBy .mdcCorrupt) ∧
     (s.bitLen < s.rptr.toNat + d.w → poisonedBy .bitRange)))

/-- R167: on a poisoned channel DDEC, as DENC and DBACKUP, raises MDC_POISONED; DDEC's other checks before any read, in
order (R171, R223); a first code with an unwritten bit is the model fault READ_UNWRITTEN (R37). -/
def Obligations.DdecChecksInOrder : Prop :=
  ∀ (s : State) (c : Nat) (base n : Word),
    (let h := (Instr.ddec c base n).header
     (s.params.nch ≤ c → exec (.ddec c base n) s = .next (s.takeException .badChan h)) ∧
     (c < s.params.nch → s.dict[c]? = some .poisoned →
       exec (.ddec c base n) s = .next (s.takeException .mdcPoisoned h)) ∧
     (∀ d, c < s.params.nch → s.dict[c]? = some (.live d) → s.params.symDepth < base.toNat + n.toNat →
       exec (.ddec c base n) s = .next (s.takeException .symRange h)) ∧
     (∀ d j, c < s.params.nch → s.dict[c]? = some (.live d) → base.toNat + n.toNat ≤ s.params.symDepth →
       n ≠ 0#32 → s.rptr.toNat + d.w ≤ s.bitLen → j < d.w → s.bit.read (s.rptr.toNat + j) = none →
       exec (.ddec c base n) s = .fault .readUnwritten))

/-- R176, R177: DENC on one channel, SETRP to where it started, DDEC on another channel with the same dictionary: all three
complete, DDEC consumes exactly DENC's bits, the two dictionaries end equal, and every byte agrees with its input on the
input's top `width` bits. That this holds also where NEXT = 2^W - 1 at the start rests on the model's reading of the growth
rule (assumption 13). -/
def Obligations.DdecInvertsDenc : Prop :=
  ∀ (s : State) (c c' : Nat) (base base' n : Word) (d : Dict) (xs : List Sym),
    s.Inv → c ≠ c' → c < s.params.nch → c' < s.params.nch →
    s.dict[c]? = some (.live d) → s.dict[c']? = some (.live d) →
    base.toNat + n.toNat ≤ s.params.symDepth → base'.toNat + n.toNat ≤ s.params.symDepth →
    xs.length = n.toNat → (∀ j, j < n.toNat → s.sym.read (base.toNat + j) = xs[j]?) →
    (∀ x ∈ xs, 1 ≤ x.width.toNat ∧ x.width.toNat ≤ 8) →
    s.wptr.toNat + (d.encode xs).1.length ≤ s.bitLen →
    ∃ s1 s2 s3, exec (.denc c base n) s = .next s1 ∧ exec (.setrp s.wptr) s1 = .next s2 ∧
      exec (.ddec c' base' n) s2 = .next s3 ∧
      s3.err = s.err ∧ s3.cmdcnt = s.cmdcnt + 3#32 ∧ s3.rptr = s1.wptr ∧ s3.res0 = s1.res0 ∧
      s3.dict[c']? = s3.dict[c]? ∧ s3.dict[c]? = some (.live (d.encode xs).2) ∧
      ∀ j x, xs[j]? = some x → ∃ b, s3.sym.read (base'.toNat + j) = some { sym := b, width := 8#4 } ∧
        topBits x.width.toNat b = topBits x.width.toNat x.sym

/-- R178, first half: DBACKUP; DENC; DRESUME; SETWP to where it started; DENC writes the same bits and reaches the same
dictionary. -/
def Obligations.DencAfterResumeWritesTheSameBits : Prop :=
  ∀ (s s1 s2 : State) (c : Nat) (base n : Word), s.Inv → s.err = none →
    exec (.dbackup c) s = .next s1 → s1.err = none → exec (.denc c base n) s1 = .next s2 → s2.err = none →
    ∃ s3 s4 s5, exec (.dresume c) s2 = .next s3 ∧ exec (.setwp s.wptr) s3 = .next s4 ∧
      exec (.denc c base n) s4 = .next s5 ∧ s3.dict = s.dict ∧
      s5 = { s2 with cmdcnt := s2.cmdcnt + 3#32 }

/-- R178, second half: two dictionaries that have been flushed and then encode the same symbols reach the same state and
emit as many bits, whatever they held before. -/
def Obligations.EncodingAfterFlushForgetsThePast : Prop :=
  ∀ (s s' t t' u u' : State) (c c' : Nat) (base base' n : Word), s.Inv → s'.Inv → s.err = none → s'.err = none →
    c ≠ 255 → c' ≠ 255 →
    exec (.dflush c) s = .next t → exec (.dflush c') s' = .next t' → t.err = none → t'.err = none →
    (∀ j, j < n.toNat → s.sym.read (base.toNat + j) = s'.sym.read (base'.toNat + j)) →
    exec (.denc c base n) t = .next u → exec (.denc c' base' n) t' = .next u' → u.err = none → u'.err = none →
    u.dict[c]? = u'.dict[c']? ∧ u.res0 = u'.res0 ∧
      ∀ j, j < u.res0.toNat → u.bit.read (s.wptr.toNat + j) = u'.bit.read (s'.wptr.toNat + j)

/-- R32, "which every MDC command preserves", for DENC: encoding keeps every invariant of a dictionary, its clause
`NEXT ≤ 2^W - 1` among them, and so R31's ranges; from `NEXT < 2^W - 1`, which reset, DFLUSH and DENC leave, NEXT stays below
the BUMP code. That the clause is kept from `NEXT = 2^W - 1`, which DDEC can leave, rests on the model's reading of the growth
rule (assumption 13). -/
def Obligations.EncodingKeepsTheDictionaryInvariant : Prop :=
  ∀ (d : Dict) (xs : List Sym), d.Inv →
    (d.encode xs).2.Inv ∧ (d.encode xs).2.next ≤ 2 ^ (d.encode xs).2.w - 1 ∧
      (∀ k, ((d.encode xs).2.ent.read k).isSome → 258 ≤ k ∧ k ≤ 32766) ∧
      (d.next < 2 ^ d.w - 1 → (d.encode xs).2.next < 2 ^ (d.encode xs).2.w - 1)

/-! ### Bit port (43_bitio.md) -/

/-- R200: NOP writes nothing except that CMDCNT counts it; the word 0x00000000 is NOP, and a NOP header with any other bit
set is ILLEGAL_CMD. -/
def Obligations.NopOnlyCounts : Prop :=
  (∀ s : State, exec .nop s = .next { s with cmdcnt := s.cmdcnt + 1#32 }) ∧
  (∀ ops : List Word, decode (0x00000000#32 :: ops) = .ok .nop ops) ∧
  (∀ (h : Word) (ops : List Word), h.extractLsb' 24 8 = 0#8 → h.extractLsb' 0 24 ≠ 0#24 →
    decode (h :: ops) = .illegal h)

/-- R202 with R201: BWR writes the low N bits of OPA, most significant first, at WPTR, and no other bit. -/
def Obligations.BwrWritesTheField : Prop :=
  ∀ (n : Nat) (v : Word) (s : State),
    ((n < 1 ∨ 32 < n) → exec (.bwr n v) s = .next (s.takeException .badOperand (Instr.bwr n v).header)) ∧
    (1 ≤ n → n ≤ 32 → s.bitLen < s.wptr.toNat + n →
      exec (.bwr n v) s = .next (s.takeException .bitRange (Instr.bwr n v).header)) ∧
    (1 ≤ n → n ≤ 32 → s.wptr.toNat + n ≤ s.bitLen →
      ∃ m, exec (.bwr n v) s = .next { s with
          bit := m, wptr := BitVec.ofNat 32 (s.wptr.toNat + n), cmdcnt := s.cmdcnt + 1#32 } ∧
        ∀ p, m.read p =
          if s.wptr.toNat ≤ p ∧ p < s.wptr.toNat + n then some (v.getLsbD (n - 1 - (p - s.wptr.toNat)))
          else s.bit.read p)

/-- R203 with R201, R37: BRD of written bits gives them, most significant first; an unwritten bit is the model fault
READ_UNWRITTEN. -/
def Obligations.BrdReadsTheField : Prop :=
  ∀ (n : Nat) (s : State),
    ((n < 1 ∨ 32 < n) → exec (.brd n) s = .next (s.takeException .badOperand (Instr.brd n).header)) ∧
    (1 ≤ n → n ≤ 32 → s.bitLen < s.rptr.toNat + n →
      exec (.brd n) s = .next (s.takeException .bitRange (Instr.brd n).header)) ∧
    (1 ≤ n → n ≤ 32 → s.rptr.toNat + n ≤ s.bitLen → (∃ j, j < n ∧ s.bit.read (s.rptr.toNat + j) = none) →
      exec (.brd n) s = .fault .readUnwritten) ∧
    (1 ≤ n → n ≤ 32 → s.rptr.toNat + n ≤ s.bitLen → (∀ j, j < n → s.bit.read (s.rptr.toNat + j) ≠ none) →
      ∃ v : Word, exec (.brd n) s = .next { s with
          res0 := v, rptr := BitVec.ofNat 32 (s.rptr.toNat + n), cmdcnt := s.cmdcnt + 1#32 } ∧
        v.toNat < 2 ^ n ∧
        ∀ j, j < n → s.bit.read (s.rptr.toNat + j) = some (v.getLsbD (n - 1 - j)))

/-- R202, R203, R206, R207: BWR, SETRP to where it wrote, BRD gives back the low N bits of the value. -/
def Obligations.BrdInvertsBwr : Prop :=
  ∀ (n : Nat) (v : Word) (s t : State), s.params.valid → s.wptr.toNat ≤ s.bitLen → s.err = none →
    exec (.bwr n v) s = .next t → t.err = none →
    ∃ u, exec (.setrp s.wptr) t = .next u ∧
      exec (.brd n) u = .next { u with
        res0 := BitVec.ofNat 32 (v.toNat % 2 ^ n), rptr := t.wptr, cmdcnt := u.cmdcnt + 1#32 }

/-- R204, R205: BALIGNW moves WPTR to the next byte boundary, writing zero bits and nothing else; BALIGNR moves RPTR there
and reads nothing; both complete for every position the registers can hold. -/
def Obligations.AlignMovesToTheByteBoundary : Prop :=
  ∀ s : State, s.params.valid → s.wptr.toNat ≤ s.bitLen → s.rptr.toNat ≤ s.bitLen →
    (∃ (k : Nat) (m : Memory Bool), k < 8 ∧ (s.wptr.toNat + k) % 8 = 0 ∧
      exec .balignw s = .next { s with
        bit := m, wptr := BitVec.ofNat 32 (s.wptr.toNat + k), res0 := BitVec.ofNat 32 k
        cmdcnt := s.cmdcnt + 1#32 } ∧
      ∀ p, m.read p = if s.wptr.toNat ≤ p ∧ p < s.wptr.toNat + k then some false else s.bit.read p) ∧
    (∃ k : Nat, k < 8 ∧ (s.rptr.toNat + k) % 8 = 0 ∧
      exec .balignr s = .next { s with
        rptr := BitVec.ofNat 32 (s.rptr.toNat + k), res0 := BitVec.ofNat 32 k, cmdcnt := s.cmdcnt + 1#32 })

/-- R206, R207: SETWP and SETRP set a position up to and including `8 × BIT_BYTES`, and raise BIT_RANGE past it. -/
def Obligations.SetPositionsWithinTheBitMemory : Prop :=
  ∀ (p : Word) (s : State),
    (p.toNat ≤ 8 * s.params.bitBytes →
      exec (.setwp p) s = .next { s with wptr := p, cmdcnt := s.cmdcnt + 1#32 } ∧
      exec (.setrp p) s = .next { s with rptr := p, cmdcnt := s.cmdcnt + 1#32 }) ∧
    (8 * s.params.bitBytes < p.toNat →
      exec (.setwp p) s = .next (s.takeException .bitRange 0x44000000#32) ∧
      exec (.setrp p) s = .next (s.takeException .bitRange 0x45000000#32))

/-! ### Exceptions and whole-machine rules (60_exceptions.md) -/

/-- R225: a command that raises performs none of its writes and is not counted, with exactly two exceptions: a fatal DDEC
error and DENC's BIT_RANGE. R222: this holds also of a command that raises while ERR = 1 (after a FIFO_OVERFLOW); it is known
by not being counted, and the cause stays. That the two exceptions of R225 apply to it too is the model's reading
(assumption 11). -/
def Obligations.RaisingCommandsWriteNothing : Prop :=
  ∀ (i : Instr) (s t : State), exec i s = .next t → (t.cmdcnt = s.cmdcnt ∨ (s.err = none ∧ t.err ≠ none)) →
    (t.err ≠ none ∧ (s.err ≠ none → t.err = s.err)) ∧
    (t.res0 = s.res0 ∧ t.res1 = s.res1 ∧ t.res2 = s.res2 ∧ t.res3 = s.res3 ∧ t.wptr = s.wptr ∧ t.rptr = s.rptr ∧
      t.cmdcnt = s.cmdcnt ∧ t.snap = s.snap ∧ t.draws = s.draws) ∧
    ((t.dict = s.dict ∧ t.sym = s.sym ∧ t.bit = s.bit) ∨
      (∃ c base n, i = .ddec c base n ∧ (s.err = none → t.err = some .mdcCorrupt ∨ t.err = some .bitRange) ∧
        t.dict = s.dict.set c .poisoned ∧ t.bit = s.bit ∧
        ∀ a, (a < base.toNat ∨ base.toNat + n.toNat ≤ a) → t.sym.read a = s.sym.read a) ∨
      (∃ c base n, i = .denc c base n ∧ (s.err = none → t.err = some .bitRange) ∧ t.dict = s.dict ∧ t.sym = s.sym ∧
        ∀ p, p < s.wptr.toNat → t.bit.read p = s.bit.read p))

/-- R226, R228, R30, R222, R224: every command that ends in a next state either completes (counted, the exception registers,
the FIFO and the log as before) or raises; with ERR = 0 before, raising is exception entry, and with ERR = 1 before,
nothing is recorded. -/
def Obligations.EveryCommandCompletesOrRaises : Prop :=
  ∀ (i : Instr) (s t : State), exec i s = .next t →
    (t.cmdcnt = s.cmdcnt + 1#32 ∧ t.err = s.err ∧ t.errinfo = s.errinfo ∧ t.errseq = s.errseq ∧ t.fifo = s.fifo ∧
      t.assembler = s.assembler ∧ t.log = s.log) ∨
    (s.err = none ∧ ∃ cause, t.cmdcnt = s.cmdcnt ∧ t.err = some cause ∧ t.errinfo = i.header ∧
      t.errseq = s.cmdcnt ∧ t.fifo = [] ∧ t.assembler = [] ∧
      t.log = s.log ++ [{ cause := cause, info := i.header, seq := s.cmdcnt }]) ∨
    (s.err ≠ none ∧ t.cmdcnt = s.cmdcnt ∧ t.err = s.err ∧ t.errinfo = s.errinfo ∧ t.errseq = s.errseq ∧
      t.fifo = s.fifo ∧ t.assembler = s.assembler ∧ t.log = s.log)

/-- R29, R28, R20: which command can change which register or memory; DDEC changes no entry outside base..base+n-1, and one
that completes writes each of these with width 8 (R171). No command changes CTRL, CFG, the parameters, or what
stands outside the engine. -/
def Obligations.CommandsChangeOnlyWhatTheyName : Prop :=
  ∀ (i : Instr) (s t : State), exec i s = .next t →
    (t.params = s.params ∧ t.ieErr = s.ieErr ∧ t.ieIdle = s.ieIdle ∧ t.intres = s.intres ∧ t.running = s.running ∧
      t.rdata = s.rdata ∧ t.agenda = s.agenda) ∧
    (i.op ∈ [Op.nop, .dflush, .dbackup, .dresume, .bwr, .setwp, .setrp] → t.res0 = s.res0) ∧
    (i.op ∉ [Op.fdec, .fmul, .resid, .unpacka, .unpackb, .dstat] → t.res1 = s.res1) ∧
    (i.op ∉ [Op.fdec, .fmul, .resid, .dstat] → t.res2 = s.res2) ∧
    (i.op ∉ [Op.fmul, .dstat] → t.res3 = s.res3) ∧
    (i.op ∉ [Op.bwr, .balignw, .setwp, .denc] → t.wptr = s.wptr) ∧
    (i.op ∉ [Op.brd, .balignr, .setrp, .ddec] → t.rptr = s.rptr) ∧
    (i.op ∉ [Op.packa, .packb, .ddec] → t.sym = s.sym) ∧
    (∀ c base n, i = .ddec c base n →
      (∀ a, (a < base.toNat ∨ base.toNat + n.toNat ≤ a) → t.sym.read a = s.sym.read a) ∧
      (t.cmdcnt ≠ s.cmdcnt → ∀ a, base.toNat ≤ a → a < base.toNat + n.toNat →
        ∃ b, t.sym.read a = some { sym := b, width := 8#4 })) ∧
    (i.op ∉ [Op.bwr, .balignw, .denc] → t.bit = s.bit) ∧
    (i.op ∉ [Op.dflush, .denc, .ddec, .dresume] → t.dict = s.dict) ∧
    (i.op ≠ Op.dbackup → t.snap = s.snap) ∧
    (i.op ≠ Op.dstat → t.draws = s.draws)

/-- R51: "a command naming channel c reads and writes `D[c]` and `SNAP[c]` only": the dictionaries and snapshots of the
other channels do not change, and what they hold does not change what the command does. -/
def Obligations.ChannelsAreIndependent : Prop :=
  ∀ (i : Instr) (s : State) (k : Nat) (h : Channel) (sn : Option Dict), i ≠ .dflush 255 → k ≠ i.chField →
    i.op ∈ [Op.dflush, .denc, .ddec, .dbackup, .dresume, .dstat] →
    (∀ t, exec i s = .next t → t.dict[k]? = s.dict[k]? ∧ t.snap[k]? = s.snap[k]? ∧
      exec i { s with dict := s.dict.set k h, snap := s.snap.set k sn } =
        .next { t with dict := t.dict.set k h, snap := t.snap.set k sn })

/-- Every command has a meaning: no command is refused, and the only stop is R37's READ_UNWRITTEN, of the five commands that
read a memory. -/
def Obligations.OnlyUnwrittenReadsStopACommand : Prop :=
  ∀ (i : Instr) (s : State),
    (∃ t, exec i s = .next t) ∨
      (exec i s = .fault .readUnwritten ∧ i.op ∈ [Op.denc, .unpacka, .unpackb, .ddec, .brd])

/-! ### The host's window (10_state.md, 20_memory.md) -/

/-- R27, R222: a host write to CMD is ignored while ERR = 1, raises FIFO_OVERFLOW when the FIFO is full (the word is
dropped, the FIFO and the assembler are discarded, an executing command goes on), and else pushes the word; a host read of
CMD returns 0 and has no effect on the block. -/
def Obligations.CmdWritesPushOverflowOrAreIgnored : Prop :=
  ∀ (s : State) (ts : List Turn) (v : Word), s.params.valid →
    (s.agenda = .hostWrite (s.params.base + 0x018) v :: ts →
      (s.err ≠ none → step s = .next { s with agenda := ts }) ∧
      (s.err = none → s.params.fifoDepth ≤ s.fifo.length → step s = .next { s with
        agenda := ts, err := some .fifoOverflow, errinfo := v, errseq := s.cmdcnt, fifo := [], assembler := []
        log := s.log ++ [{ cause := .fifoOverflow, info := v, seq := s.cmdcnt }] }) ∧
      (s.err = none → s.fifo.length < s.params.fifoDepth →
        step s = .next { s with agenda := ts, fifo := s.fifo ++ [v] })) ∧
    (s.agenda = .hostRead (s.params.base + 0x018) :: ts →
      ∃ k, step s = .next { s with agenda := ts, rdata := 0#32, draws := k })

/-- R23, R230, R250: a host write to CTRL stores the IE bits; CLRERR clears ERR and CAUSE and nothing else; SOFTRESET, with
or without CLRERR, gives the reset state, with SYM and BIT as they were when it is written while IDLE = 1 and unwritten
when it is written while a command executes. -/
def Obligations.CtrlWritesClearOrReset : Prop :=
  ∀ (s : State) (ts : List Turn) (v : Word), s.params.valid →
    s.agenda = .hostWrite (s.params.base + 0x004) v :: ts →
    (let fresh := fun (sym : Memory Sym) (bit : Memory Bool) =>
       ({ State.initial s.params with
          sym := sym, bit := bit, log := s.log, draws := s.draws, rdata := s.rdata, agenda := ts } : State)
     (v.getLsbD 9 = true → s.idle = true → step s = .next (fresh s.sym s.bit)) ∧
     (v.getLsbD 9 = true → s.running ≠ none → step s = .next (fresh [] [])) ∧
     (v.getLsbD 9 = false → v.getLsbD 8 = true → step s = .next { s with
       agenda := ts, err := none, ieErr := v.getLsbD 0, ieIdle := v.getLsbD 1 }) ∧
     (v.getLsbD 9 = false → v.getLsbD 8 = false → step s = .next { s with
       agenda := ts, ieErr := v.getLsbD 0, ieIdle := v.getLsbD 1 }))

/-- R24, R220, R227: the STATUS word, the fourteen cause codes, and the interrupt output. -/
def Obligations.StatusWordAndIrq : Prop :=
  ∀ s : State,
    (s.statusWord.getLsbD 0 = true ↔ s.running = none ∧ s.assembler = [] ∧ s.fifo = []) ∧
    (s.statusWord.getLsbD 1 = true ↔ s.err ≠ none) ∧
    (s.statusWord.getLsbD 2 = true ↔ s.params.fifoDepth ≤ s.fifo.length) ∧
    s.statusWord.extractLsb' 3 5 = 0#5 ∧
    (s.err = none → s.statusWord.extractLsb' 8 8 = 0#8) ∧
    (∀ c, s.err = some c → ∀ code, (c, code) ∈
        ([(.illegalCmd, 0x01#8), (.badChan, 0x02#8), (.badOperand, 0x03#8), (.symRange, 0x04#8), (.bitRange, 0x05#8),
          (.config, 0x06#8), (.fifoOverflow, 0x07#8), (.fduDomain, 0x10#8), (.rcuDomain, 0x20#8), (.rcuOrder, 0x21#8),
          (.rcuRange, 0x22#8), (.mdcCorrupt, 0x30#8), (.mdcPoisoned, 0x31#8), (.mdcNoSnap, 0x32#8)] :
          List (Cause × BitVec 8)) →
      s.statusWord.extractLsb' 8 8 = code) ∧
    s.statusWord.extractLsb' 16 16 = 0#16 ∧
    (s.irq = true ↔
      (s.ieErr = true ∧ s.statusWord.getLsbD 1 = true) ∨ (s.ieIdle = true ∧ s.statusWord.getLsbD 0 = true))

/-- R35, R36, R54, R21, R57, R25: while idle, a host write to a SYM entry stores `sym` and `width`, one to a BIT word stores its
bits most significant first at stream bit 32i, those past the end of the memory ignored, one to CFG stores INTRES; a read of
the same address then gives the bits the word keeps. A host read changes nothing of the block. Writes to read-only registers,
to reserved offsets and past the ends of the memories are ignored, and reads of reserved offsets and past the ends give 0.
Readings of the model: a write to SYM, BIT or CFG while not idle, which R60 (20_memory.md section 4) makes no move of the host,
is the fault hostWriteBusy (assumption 7); R21's ignored writes, reads of 0, and partial last word hold also while busy
(assumption 17, for the writes and the zeros). -/
def Obligations.HostWindowStoresAndReads : Prop :=
  ∀ (s : State) (ts : List Turn) (v : Word) (i : Nat), s.params.valid →
    (let b := s.params.base
     (i < s.params.symDepth → s.agenda = .hostWrite (b + 0x10000 + 4 * i) v :: .hostRead (b + 0x10000 + 4 * i) :: ts →
       s.idle = true →
       ∃ m u, step s = .next { s with agenda := .hostRead (b + 0x10000 + 4 * i) :: ts, sym := m } ∧
         (∀ a, m.read a =
           if a = i then some { sym := v.extractLsb' 0 8, width := v.extractLsb' 8 4 } else s.sym.read a) ∧
         step { s with agenda := .hostRead (b + 0x10000 + 4 * i) :: ts, sym := m } = .next u ∧
         u.rdata = v &&& 0xFFF#32) ∧
     (4 * i < s.params.bitBytes →
       s.agenda = .hostWrite (b + 0x100000 + 4 * i) v :: .hostRead (b + 0x100000 + 4 * i) :: ts →
       s.idle = true →
       ∃ m u, step s = .next { s with agenda := .hostRead (b + 0x100000 + 4 * i) :: ts, bit := m } ∧
         (∀ p, m.read p =
           if 32 * i ≤ p ∧ p < 32 * i + 32 ∧ p < 8 * s.params.bitBytes then some (v.getLsbD (31 - (p - 32 * i)))
           else s.bit.read p) ∧
         step { s with agenda := .hostRead (b + 0x100000 + 4 * i) :: ts, bit := m } = .next u ∧
         u.rdata =
           let kept := 8 * min 4 (s.params.bitBytes - 4 * i)
           BitVec.ofNat 32 (v.toNat / 2 ^ (32 - kept) * 2 ^ (32 - kept))) ∧
     (s.agenda = .hostWrite (b + 0x00C) v :: ts → s.idle = true →
       step s = .next { s with agenda := ts, intres := v.extractLsb' 0 5 }) ∧
     (∀ off, (off = 0x00C ∨ off = 0x10000 + 4 * i ∧ i < s.params.symDepth ∨
         off = 0x100000 + 4 * i ∧ 4 * i < s.params.bitBytes) →
       s.agenda = .hostWrite (b + off) v :: ts → s.idle = false → step s = .fault .hostWriteBusy) ∧
     (∀ off, off % 4 = 0 → off < 2 ^ 21 → s.agenda = .hostRead (b + off) :: ts →
       ∃ r k, step s = .next { s with agenda := ts, rdata := r, draws := k }) ∧
     (∀ off, off % 4 = 0 →
       ((0x038 ≤ off ∧ off < 0x10000) ∨ (0x50000 ≤ off ∧ off < 0x100000) ∨
        (0x10000 + 4 * s.params.symDepth ≤ off ∧ off < 0x50000) ∨
        (0x100000 + s.params.bitBytes ≤ off ∧ off < 0x200000)) →
       (s.agenda = .hostRead (b + off) :: ts →
         ∃ k, step s = .next { s with agenda := ts, rdata := 0#32, draws := k }) ∧
       (s.agenda = .hostWrite (b + off) v :: ts → step s = .next { s with agenda := ts })) ∧
     (∀ off, off ∈ [0x000, 0x008, 0x010, 0x014, 0x01C, 0x020, 0x024, 0x028, 0x02C, 0x030, 0x034] →
       s.agenda = .hostWrite (b + off) v :: ts → step s = .next { s with agenda := ts }))

/-- R20 to R30, R21, R61, R259: what a host read of each register returns. ID, CTRL, STATUS, CFG, ERRINFO and ERRSEQ give
their values and CMD and every reserved offset of the register block give 0 at any time, also while a command executes: R59
makes only the others arbitrary while STATUS.IDLE = 0 (assumption 6). WPTR, RPTR, RES0..3 and CMDCNT give their values while
idle. A read changes nothing of the block (R57), and the observation of R259 (as assumption 22 takes it) lists these values.
The bits of STATUS are `StatusWordAndIrq`'s. -/
def Obligations.HostReadsTheRegisters : Prop :=
  ∀ (s : State) (ts : List Turn) (off : Nat), s.params.valid → s.agenda = .hostRead (s.params.base + off) :: ts →
    (let reads := fun (r : Word) => ∃ k, step s = .next { s with agenda := ts, rdata := r, draws := k }
     (∀ r, (off, r) ∈ [(0x000, 0x4D4C5A01#32), (0x004, BitVec.ofNat 32 (s.ieErr.toNat + 2 * s.ieIdle.toNat)),
         (0x008, s.statusWord), (0x00C, BitVec.ofNat 32 s.intres.toNat), (0x010, s.errinfo), (0x014, s.errseq),
         (0x018, 0#32)] →
       (off, r) ∈ s.observation.registers ∧ reads r) ∧
     (s.idle = true → ∀ r, (off, r) ∈ [(0x01C, s.wptr), (0x020, s.rptr), (0x024, s.res0), (0x028, s.res1),
         (0x02C, s.res2), (0x030, s.res3), (0x034, s.cmdcnt)] →
       (off, r) ∈ s.observation.registers ∧ reads r) ∧
     (0x038 ≤ off → off ≤ 0xFFC → off % 4 = 0 → reads 0#32))

/-- R259: the turns after the end of a run are no part of it. When a run ends while the agenda it started with lasts, the same
run with more turns after that agenda, none of them a write to CMD, ends in the same state but for those turns, and shows the
same observation, though they may write memories or reset the block. The agenda is the model's form of the order of the two
agents (assumption 2), and the first ended state of it its reading of R259's end (assumption 22). -/
def Obligations.TurnsAfterTheEndAreNotOfTheRun : Prop :=
  ∀ (n : Nat) (s t : State) (ts : List Turn), n ≤ s.agenda.length → endOfRun n s = some t →
    (∀ u ∈ ts, u.writesCommand s.params = false) →
    t.idle = true ∧ (∀ u ∈ t.agenda, u.writesCommand s.params = false) ∧
      endOfRun n { s with agenda := s.agenda ++ ts } = some { t with agenda := t.agenda ++ ts } ∧
      observeRun n { s with agenda := s.agenda ++ ts } = some t.observation

/-! ### The invariant and reset -/

/-- Every step keeps the invariant: memories in canonical form and inside their bounds, positions legal, one dictionary and
one snapshot per channel with R32's invariants (its clause `NEXT ≤ 2^W - 1` by the reading of assumption 13), the FIFO within
its depth, the assembler never holding a whole command, nothing waiting while ERR = 1. -/
def Obligations.StepKeepsTheInvariant : Prop :=
  ∀ s t : State, s.Inv → step s = .next t → t.Inv

/-- The invariant holds after reset (R250), for every parameter values R4 admits. -/
def Obligations.ResetMeetsTheInvariant : Prop :=
  State.reset.Inv ∧ ∀ p : Params, p.valid → (State.initial p).Inv

/-- R250: the values after the reset input, whatever the state before; the fault log is kept (R228). -/
def Obligations.ResetInputGivesTheResetState : Prop :=
  ∀ (s : State) (ts : List Turn), s.agenda = .resetInput :: ts →
    ∃ t, step s = .next t ∧ t.params = s.params ∧ t.ctrlWord = 0#32 ∧ t.cfgWord = 0x18#32 ∧ t.err = none ∧
      t.idle = true ∧ (1 ≤ s.params.fifoDepth → t.statusWord = 1#32) ∧ t.irq = false ∧
      t.errinfo = 0#32 ∧ t.errseq = 0#32 ∧ t.wptr = 0#32 ∧ t.rptr = 0#32 ∧
      t.res0 = 0#32 ∧ t.res1 = 0#32 ∧ t.res2 = 0#32 ∧ t.res3 = 0#32 ∧ t.cmdcnt = 0#32 ∧
      t.fifo = [] ∧ t.assembler = [] ∧ t.running = none ∧
      t.dict = List.replicate s.params.nch (.live { ent := [], next := 258, w := 9, frz := false }) ∧
      t.snap = List.replicate s.params.nch none ∧
      t.sym = [] ∧ t.bit = [] ∧ t.log = s.log ∧ t.agenda = ts
end

