-- ==== Sys2Proof/Laws/Binary32.lean ====
section
/-! SUPPORT. The fields of a packed binary32 word, and the size of what decompose gives. -/

namespace Sys2Proof.Machine

theorem expField_lt (x : Word) : expField x < 256 := (x.extractLsb' 23 8).isLt

theorem fracField_lt (x : Word) : fracField x < 2 ^ 23 := (x.extractLsb' 0 23).isLt

theorem expField_eq (x : Word) : expField x = x.toNat / 2 ^ 23 % 2 ^ 8 := by
  simp [expField, BitVec.extractLsb'_toNat, Nat.shiftRight_eq_div_pow]

theorem fracField_eq (x : Word) : fracField x = x.toNat % 2 ^ 23 := by
  simp [fracField, BitVec.extractLsb'_toNat]

theorem signBit_eq (x : Word) : signBit x = decide (2 ^ 31 ≤ x.toNat) := by
  have h := x.isLt
  rw [signBit, BitVec.getLsbD, Nat.testBit_eq_decide_div_mod_eq]
  congr 1
  apply propext
  omega

theorem packWord_toNat (s : Bool) (e f : Nat) :
    (packWord s e f).toNat = s.toNat * 2 ^ 31 + e % 2 ^ 8 * 2 ^ 23 + f % 2 ^ 23 := by
  have h1 : f % 2 ^ 23 < 2 ^ 23 := Nat.mod_lt _ (by decide)
  have h2 : e % 2 ^ 8 < 2 ^ 8 := Nat.mod_lt _ (by decide)
  simp only [packWord, BitVec.toNat_append, BitVec.toNat_ofBool, BitVec.toNat_ofNat]
  rw [← Nat.shiftLeft_add_eq_or_of_lt h1, ← Nat.shiftLeft_add_eq_or_of_lt h2, Nat.shiftLeft_eq, Nat.shiftLeft_eq]
  ring

@[simp] theorem signBit_packWord (s : Bool) (e f : Nat) : signBit (packWord s e f) = s := by
  have h1 : f % 2 ^ 23 < 2 ^ 23 := Nat.mod_lt _ (by decide)
  have h2 : e % 2 ^ 8 < 2 ^ 8 := Nat.mod_lt _ (by decide)
  rw [signBit_eq, packWord_toNat]
  cases s <;> simp <;> omega

theorem expField_packWord {e : Nat} (he : e < 256) (s : Bool) (f : Nat) : expField (packWord s e f) = e := by
  have h1 : f % 2 ^ 23 < 2 ^ 23 := Nat.mod_lt _ (by decide)
  have h3 : s.toNat ≤ 1 := Bool.toNat_le s
  rw [expField_eq, packWord_toNat]
  omega

theorem fracField_packWord (s : Bool) (e f : Nat) : fracField (packWord s e f) = f % 2 ^ 23 := by
  have h1 : f % 2 ^ 23 < 2 ^ 23 := Nat.mod_lt _ (by decide)
  rw [fracField_eq, packWord_toNat]
  omega

theorem word_eq_of_fields {x y : Word} (h1 : signBit x = signBit y) (h2 : expField x = expField y)
    (h3 : fracField x = fracField y) : x = y := by
  apply BitVec.eq_of_toNat_eq
  have hx := x.isLt
  have hy := y.isLt
  rw [expField_eq, expField_eq] at h2
  rw [fracField_eq, fracField_eq] at h3
  rw [signBit_eq, signBit_eq, decide_eq_decide] at h1
  omega

theorem packWord_fields (x : Word) : packWord (signBit x) (expField x) (fracField x) = x :=
  word_eq_of_fields (signBit_packWord ..) (expField_packWord (expField_lt x) ..)
    ((fracField_packWord ..).trans (Nat.mod_eq_of_lt (fracField_lt x)))

theorem word_toNat_fields (x : Word) : x.toNat = (signBit x).toNat * 2 ^ 31 + expField x * 2 ^ 23 + fracField x := by
  conv_lhs => rw [← packWord_fields x]
  have h1 := expField_lt x
  have h2 := fracField_lt x
  rw [packWord_toNat]
  omega

theorem isNormalWord_iff (x : Word) : isNormalWord x = true ↔ 1 ≤ expField x ∧ expField x ≤ 254 := by
  simp [isNormalWord]

/-- `decompose` of a normal word (R100). -/
theorem decompose_normal {x : Word} (h1 : 1 ≤ expField x) (h2 : expField x ≤ 254) :
    decompose x = { sign := signBit x, exp := (expField x : Int) - 127, mant := 2 ^ 23 + fracField x } := by
  unfold decompose; rw [if_neg (by omega), if_neg (by omega)]

/-- `decompose` of a zero or subnormal word (R100). -/
theorem decompose_zeroExp {x : Word} (h : expField x = 0) :
    decompose x = { sign := signBit x, exp := -127, mant := fracField x } := by
  unfold decompose; rw [if_pos h]

/-- `decompose` of an Infinity or NaN (R100). -/
theorem decompose_special {x : Word} (h : expField x = 255) :
    decompose x = { sign := signBit x, exp := 128, mant := fracField x } := by
  unfold decompose; rw [if_neg (by omega), if_pos h]

@[simp] theorem decompose_sign (x : Word) : (decompose x).sign = signBit x := by
  unfold decompose; split
  · rfl
  · split <;> rfl

/-- `recompose` of a triple with a normal exponent (R101). -/
theorem recompose_normal {t : Triple} (h1 : -126 ≤ t.exp) (h2 : t.exp ≤ 127) :
    recompose t = packWord t.sign (t.exp + 127).toNat t.mant := by
  unfold recompose; rw [if_neg (by omega), if_neg (by omega)]

theorem bitlen_pos {v : Nat} (h : v ≠ 0) : bitlen v = Nat.log2 v + 1 := by simp [bitlen, h]

/-- `bitlen` is the least number of bits (R6). -/
theorem bitlen_spec {v : Nat} (h : v ≠ 0) : 2 ^ (bitlen v - 1) ≤ v ∧ v < 2 ^ bitlen v := by
  rw [bitlen_pos h]
  exact ⟨Nat.log2_self_le h, Nat.lt_log2_self⟩

theorem bitlen_unique {v l : Nat} (h1 : 1 ≤ l) (h2 : 2 ^ (l - 1) ≤ v) (h3 : v < 2 ^ l) : bitlen v = l := by
  have h0 : v ≠ 0 := by have := Nat.two_pow_pos (l - 1); omega
  obtain ⟨a, b⟩ := bitlen_spec h0
  have hb : 1 ≤ bitlen v := by rw [bitlen_pos h0]; omega
  have p : l - 1 < bitlen v := (Nat.pow_lt_pow_iff_right (by decide)).1 (lt_of_le_of_lt h2 b)
  have q : bitlen v - 1 < l := (Nat.pow_lt_pow_iff_right (by decide)).1 (lt_of_le_of_lt a h3)
  omega

end Sys2Proof.Machine
end

