-- ==== Sys2Proof/Laws/State.lean ====
section
/-! SUPPORT. One lemma per field per named update of `State`, each true by `rfl`: later proofs cite these by `simp` and
unfold no record update. -/

namespace Sys2Proof.Machine

variable (s : State)

/-! ### `State.setRes0` -/

@[simp] theorem State.setRes0_params (v : Word) : (s.setRes0 v).params = s.params := rfl
@[simp] theorem State.setRes0_ieErr (v : Word) : (s.setRes0 v).ieErr = s.ieErr := rfl
@[simp] theorem State.setRes0_ieIdle (v : Word) : (s.setRes0 v).ieIdle = s.ieIdle := rfl
@[simp] theorem State.setRes0_intres (v : Word) : (s.setRes0 v).intres = s.intres := rfl
@[simp] theorem State.setRes0_err (v : Word) : (s.setRes0 v).err = s.err := rfl
@[simp] theorem State.setRes0_errinfo (v : Word) : (s.setRes0 v).errinfo = s.errinfo := rfl
@[simp] theorem State.setRes0_errseq (v : Word) : (s.setRes0 v).errseq = s.errseq := rfl
@[simp] theorem State.setRes0_wptr (v : Word) : (s.setRes0 v).wptr = s.wptr := rfl
@[simp] theorem State.setRes0_rptr (v : Word) : (s.setRes0 v).rptr = s.rptr := rfl
@[simp] theorem State.setRes0_res0 (v : Word) : (s.setRes0 v).res0 = v := rfl
@[simp] theorem State.setRes0_res1 (v : Word) : (s.setRes0 v).res1 = s.res1 := rfl
@[simp] theorem State.setRes0_res2 (v : Word) : (s.setRes0 v).res2 = s.res2 := rfl
@[simp] theorem State.setRes0_res3 (v : Word) : (s.setRes0 v).res3 = s.res3 := rfl
@[simp] theorem State.setRes0_cmdcnt (v : Word) : (s.setRes0 v).cmdcnt = s.cmdcnt := rfl
@[simp] theorem State.setRes0_dict (v : Word) : (s.setRes0 v).dict = s.dict := rfl
@[simp] theorem State.setRes0_snap (v : Word) : (s.setRes0 v).snap = s.snap := rfl
@[simp] theorem State.setRes0_sym (v : Word) : (s.setRes0 v).sym = s.sym := rfl
@[simp] theorem State.setRes0_bit (v : Word) : (s.setRes0 v).bit = s.bit := rfl
@[simp] theorem State.setRes0_fifo (v : Word) : (s.setRes0 v).fifo = s.fifo := rfl
@[simp] theorem State.setRes0_assembler (v : Word) : (s.setRes0 v).assembler = s.assembler := rfl
@[simp] theorem State.setRes0_running (v : Word) : (s.setRes0 v).running = s.running := rfl
@[simp] theorem State.setRes0_log (v : Word) : (s.setRes0 v).log = s.log := rfl
@[simp] theorem State.setRes0_draws (v : Word) : (s.setRes0 v).draws = s.draws := rfl
@[simp] theorem State.setRes0_rdata (v : Word) : (s.setRes0 v).rdata = s.rdata := rfl
@[simp] theorem State.setRes0_agenda (v : Word) : (s.setRes0 v).agenda = s.agenda := rfl

/-! ### `State.setRes1` -/

@[simp] theorem State.setRes1_params (v : Word) : (s.setRes1 v).params = s.params := rfl
@[simp] theorem State.setRes1_ieErr (v : Word) : (s.setRes1 v).ieErr = s.ieErr := rfl
@[simp] theorem State.setRes1_ieIdle (v : Word) : (s.setRes1 v).ieIdle = s.ieIdle := rfl
@[simp] theorem State.setRes1_intres (v : Word) : (s.setRes1 v).intres = s.intres := rfl
@[simp] theorem State.setRes1_err (v : Word) : (s.setRes1 v).err = s.err := rfl
@[simp] theorem State.setRes1_errinfo (v : Word) : (s.setRes1 v).errinfo = s.errinfo := rfl
@[simp] theorem State.setRes1_errseq (v : Word) : (s.setRes1 v).errseq = s.errseq := rfl
@[simp] theorem State.setRes1_wptr (v : Word) : (s.setRes1 v).wptr = s.wptr := rfl
@[simp] theorem State.setRes1_rptr (v : Word) : (s.setRes1 v).rptr = s.rptr := rfl
@[simp] theorem State.setRes1_res0 (v : Word) : (s.setRes1 v).res0 = s.res0 := rfl
@[simp] theorem State.setRes1_res1 (v : Word) : (s.setRes1 v).res1 = v := rfl
@[simp] theorem State.setRes1_res2 (v : Word) : (s.setRes1 v).res2 = s.res2 := rfl
@[simp] theorem State.setRes1_res3 (v : Word) : (s.setRes1 v).res3 = s.res3 := rfl
@[simp] theorem State.setRes1_cmdcnt (v : Word) : (s.setRes1 v).cmdcnt = s.cmdcnt := rfl
@[simp] theorem State.setRes1_dict (v : Word) : (s.setRes1 v).dict = s.dict := rfl
@[simp] theorem State.setRes1_snap (v : Word) : (s.setRes1 v).snap = s.snap := rfl
@[simp] theorem State.setRes1_sym (v : Word) : (s.setRes1 v).sym = s.sym := rfl
@[simp] theorem State.setRes1_bit (v : Word) : (s.setRes1 v).bit = s.bit := rfl
@[simp] theorem State.setRes1_fifo (v : Word) : (s.setRes1 v).fifo = s.fifo := rfl
@[simp] theorem State.setRes1_assembler (v : Word) : (s.setRes1 v).assembler = s.assembler := rfl
@[simp] theorem State.setRes1_running (v : Word) : (s.setRes1 v).running = s.running := rfl
@[simp] theorem State.setRes1_log (v : Word) : (s.setRes1 v).log = s.log := rfl
@[simp] theorem State.setRes1_draws (v : Word) : (s.setRes1 v).draws = s.draws := rfl
@[simp] theorem State.setRes1_rdata (v : Word) : (s.setRes1 v).rdata = s.rdata := rfl
@[simp] theorem State.setRes1_agenda (v : Word) : (s.setRes1 v).agenda = s.agenda := rfl

/-! ### `State.setRes2` -/

@[simp] theorem State.setRes2_params (v : Word) : (s.setRes2 v).params = s.params := rfl
@[simp] theorem State.setRes2_ieErr (v : Word) : (s.setRes2 v).ieErr = s.ieErr := rfl
@[simp] theorem State.setRes2_ieIdle (v : Word) : (s.setRes2 v).ieIdle = s.ieIdle := rfl
@[simp] theorem State.setRes2_intres (v : Word) : (s.setRes2 v).intres = s.intres := rfl
@[simp] theorem State.setRes2_err (v : Word) : (s.setRes2 v).err = s.err := rfl
@[simp] theorem State.setRes2_errinfo (v : Word) : (s.setRes2 v).errinfo = s.errinfo := rfl
@[simp] theorem State.setRes2_errseq (v : Word) : (s.setRes2 v).errseq = s.errseq := rfl
@[simp] theorem State.setRes2_wptr (v : Word) : (s.setRes2 v).wptr = s.wptr := rfl
@[simp] theorem State.setRes2_rptr (v : Word) : (s.setRes2 v).rptr = s.rptr := rfl
@[simp] theorem State.setRes2_res0 (v : Word) : (s.setRes2 v).res0 = s.res0 := rfl
@[simp] theorem State.setRes2_res1 (v : Word) : (s.setRes2 v).res1 = s.res1 := rfl
@[simp] theorem State.setRes2_res2 (v : Word) : (s.setRes2 v).res2 = v := rfl
@[simp] theorem State.setRes2_res3 (v : Word) : (s.setRes2 v).res3 = s.res3 := rfl
@[simp] theorem State.setRes2_cmdcnt (v : Word) : (s.setRes2 v).cmdcnt = s.cmdcnt := rfl
@[simp] theorem State.setRes2_dict (v : Word) : (s.setRes2 v).dict = s.dict := rfl
@[simp] theorem State.setRes2_snap (v : Word) : (s.setRes2 v).snap = s.snap := rfl
@[simp] theorem State.setRes2_sym (v : Word) : (s.setRes2 v).sym = s.sym := rfl
@[simp] theorem State.setRes2_bit (v : Word) : (s.setRes2 v).bit = s.bit := rfl
@[simp] theorem State.setRes2_fifo (v : Word) : (s.setRes2 v).fifo = s.fifo := rfl
@[simp] theorem State.setRes2_assembler (v : Word) : (s.setRes2 v).assembler = s.assembler := rfl
@[simp] theorem State.setRes2_running (v : Word) : (s.setRes2 v).running = s.running := rfl
@[simp] theorem State.setRes2_log (v : Word) : (s.setRes2 v).log = s.log := rfl
@[simp] theorem State.setRes2_draws (v : Word) : (s.setRes2 v).draws = s.draws := rfl
@[simp] theorem State.setRes2_rdata (v : Word) : (s.setRes2 v).rdata = s.rdata := rfl
@[simp] theorem State.setRes2_agenda (v : Word) : (s.setRes2 v).agenda = s.agenda := rfl

/-! ### `State.setRes3` -/

@[simp] theorem State.setRes3_params (v : Word) : (s.setRes3 v).params = s.params := rfl
@[simp] theorem State.setRes3_ieErr (v : Word) : (s.setRes3 v).ieErr = s.ieErr := rfl
@[simp] theorem State.setRes3_ieIdle (v : Word) : (s.setRes3 v).ieIdle = s.ieIdle := rfl
@[simp] theorem State.setRes3_intres (v : Word) : (s.setRes3 v).intres = s.intres := rfl
@[simp] theorem State.setRes3_err (v : Word) : (s.setRes3 v).err = s.err := rfl
@[simp] theorem State.setRes3_errinfo (v : Word) : (s.setRes3 v).errinfo = s.errinfo := rfl
@[simp] theorem State.setRes3_errseq (v : Word) : (s.setRes3 v).errseq = s.errseq := rfl
@[simp] theorem State.setRes3_wptr (v : Word) : (s.setRes3 v).wptr = s.wptr := rfl
@[simp] theorem State.setRes3_rptr (v : Word) : (s.setRes3 v).rptr = s.rptr := rfl
@[simp] theorem State.setRes3_res0 (v : Word) : (s.setRes3 v).res0 = s.res0 := rfl
@[simp] theorem State.setRes3_res1 (v : Word) : (s.setRes3 v).res1 = s.res1 := rfl
@[simp] theorem State.setRes3_res2 (v : Word) : (s.setRes3 v).res2 = s.res2 := rfl
@[simp] theorem State.setRes3_res3 (v : Word) : (s.setRes3 v).res3 = v := rfl
@[simp] theorem State.setRes3_cmdcnt (v : Word) : (s.setRes3 v).cmdcnt = s.cmdcnt := rfl
@[simp] theorem State.setRes3_dict (v : Word) : (s.setRes3 v).dict = s.dict := rfl
@[simp] theorem State.setRes3_snap (v : Word) : (s.setRes3 v).snap = s.snap := rfl
@[simp] theorem State.setRes3_sym (v : Word) : (s.setRes3 v).sym = s.sym := rfl
@[simp] theorem State.setRes3_bit (v : Word) : (s.setRes3 v).bit = s.bit := rfl
@[simp] theorem State.setRes3_fifo (v : Word) : (s.setRes3 v).fifo = s.fifo := rfl
@[simp] theorem State.setRes3_assembler (v : Word) : (s.setRes3 v).assembler = s.assembler := rfl
@[simp] theorem State.setRes3_running (v : Word) : (s.setRes3 v).running = s.running := rfl
@[simp] theorem State.setRes3_log (v : Word) : (s.setRes3 v).log = s.log := rfl
@[simp] theorem State.setRes3_draws (v : Word) : (s.setRes3 v).draws = s.draws := rfl
@[simp] theorem State.setRes3_rdata (v : Word) : (s.setRes3 v).rdata = s.rdata := rfl
@[simp] theorem State.setRes3_agenda (v : Word) : (s.setRes3 v).agenda = s.agenda := rfl

/-! ### `State.setWptr` -/

@[simp] theorem State.setWptr_params (v : Word) : (s.setWptr v).params = s.params := rfl
@[simp] theorem State.setWptr_ieErr (v : Word) : (s.setWptr v).ieErr = s.ieErr := rfl
@[simp] theorem State.setWptr_ieIdle (v : Word) : (s.setWptr v).ieIdle = s.ieIdle := rfl
@[simp] theorem State.setWptr_intres (v : Word) : (s.setWptr v).intres = s.intres := rfl
@[simp] theorem State.setWptr_err (v : Word) : (s.setWptr v).err = s.err := rfl
@[simp] theorem State.setWptr_errinfo (v : Word) : (s.setWptr v).errinfo = s.errinfo := rfl
@[simp] theorem State.setWptr_errseq (v : Word) : (s.setWptr v).errseq = s.errseq := rfl
@[simp] theorem State.setWptr_wptr (v : Word) : (s.setWptr v).wptr = v := rfl
@[simp] theorem State.setWptr_rptr (v : Word) : (s.setWptr v).rptr = s.rptr := rfl
@[simp] theorem State.setWptr_res0 (v : Word) : (s.setWptr v).res0 = s.res0 := rfl
@[simp] theorem State.setWptr_res1 (v : Word) : (s.setWptr v).res1 = s.res1 := rfl
@[simp] theorem State.setWptr_res2 (v : Word) : (s.setWptr v).res2 = s.res2 := rfl
@[simp] theorem State.setWptr_res3 (v : Word) : (s.setWptr v).res3 = s.res3 := rfl
@[simp] theorem State.setWptr_cmdcnt (v : Word) : (s.setWptr v).cmdcnt = s.cmdcnt := rfl
@[simp] theorem State.setWptr_dict (v : Word) : (s.setWptr v).dict = s.dict := rfl
@[simp] theorem State.setWptr_snap (v : Word) : (s.setWptr v).snap = s.snap := rfl
@[simp] theorem State.setWptr_sym (v : Word) : (s.setWptr v).sym = s.sym := rfl
@[simp] theorem State.setWptr_bit (v : Word) : (s.setWptr v).bit = s.bit := rfl
@[simp] theorem State.setWptr_fifo (v : Word) : (s.setWptr v).fifo = s.fifo := rfl
@[simp] theorem State.setWptr_assembler (v : Word) : (s.setWptr v).assembler = s.assembler := rfl
@[simp] theorem State.setWptr_running (v : Word) : (s.setWptr v).running = s.running := rfl
@[simp] theorem State.setWptr_log (v : Word) : (s.setWptr v).log = s.log := rfl
@[simp] theorem State.setWptr_draws (v : Word) : (s.setWptr v).draws = s.draws := rfl
@[simp] theorem State.setWptr_rdata (v : Word) : (s.setWptr v).rdata = s.rdata := rfl
@[simp] theorem State.setWptr_agenda (v : Word) : (s.setWptr v).agenda = s.agenda := rfl

/-! ### `State.setRptr` -/

@[simp] theorem State.setRptr_params (v : Word) : (s.setRptr v).params = s.params := rfl
@[simp] theorem State.setRptr_ieErr (v : Word) : (s.setRptr v).ieErr = s.ieErr := rfl
@[simp] theorem State.setRptr_ieIdle (v : Word) : (s.setRptr v).ieIdle = s.ieIdle := rfl
@[simp] theorem State.setRptr_intres (v : Word) : (s.setRptr v).intres = s.intres := rfl
@[simp] theorem State.setRptr_err (v : Word) : (s.setRptr v).err = s.err := rfl
@[simp] theorem State.setRptr_errinfo (v : Word) : (s.setRptr v).errinfo = s.errinfo := rfl
@[simp] theorem State.setRptr_errseq (v : Word) : (s.setRptr v).errseq = s.errseq := rfl
@[simp] theorem State.setRptr_wptr (v : Word) : (s.setRptr v).wptr = s.wptr := rfl
@[simp] theorem State.setRptr_rptr (v : Word) : (s.setRptr v).rptr = v := rfl
@[simp] theorem State.setRptr_res0 (v : Word) : (s.setRptr v).res0 = s.res0 := rfl
@[simp] theorem State.setRptr_res1 (v : Word) : (s.setRptr v).res1 = s.res1 := rfl
@[simp] theorem State.setRptr_res2 (v : Word) : (s.setRptr v).res2 = s.res2 := rfl
@[simp] theorem State.setRptr_res3 (v : Word) : (s.setRptr v).res3 = s.res3 := rfl
@[simp] theorem State.setRptr_cmdcnt (v : Word) : (s.setRptr v).cmdcnt = s.cmdcnt := rfl
@[simp] theorem State.setRptr_dict (v : Word) : (s.setRptr v).dict = s.dict := rfl
@[simp] theorem State.setRptr_snap (v : Word) : (s.setRptr v).snap = s.snap := rfl
@[simp] theorem State.setRptr_sym (v : Word) : (s.setRptr v).sym = s.sym := rfl
@[simp] theorem State.setRptr_bit (v : Word) : (s.setRptr v).bit = s.bit := rfl
@[simp] theorem State.setRptr_fifo (v : Word) : (s.setRptr v).fifo = s.fifo := rfl
@[simp] theorem State.setRptr_assembler (v : Word) : (s.setRptr v).assembler = s.assembler := rfl
@[simp] theorem State.setRptr_running (v : Word) : (s.setRptr v).running = s.running := rfl
@[simp] theorem State.setRptr_log (v : Word) : (s.setRptr v).log = s.log := rfl
@[simp] theorem State.setRptr_draws (v : Word) : (s.setRptr v).draws = s.draws := rfl
@[simp] theorem State.setRptr_rdata (v : Word) : (s.setRptr v).rdata = s.rdata := rfl
@[simp] theorem State.setRptr_agenda (v : Word) : (s.setRptr v).agenda = s.agenda := rfl

/-! ### `State.setSym` -/

@[simp] theorem State.setSym_params (m : Memory Sym) : (s.setSym m).params = s.params := rfl
@[simp] theorem State.setSym_ieErr (m : Memory Sym) : (s.setSym m).ieErr = s.ieErr := rfl
@[simp] theorem State.setSym_ieIdle (m : Memory Sym) : (s.setSym m).ieIdle = s.ieIdle := rfl
@[simp] theorem State.setSym_intres (m : Memory Sym) : (s.setSym m).intres = s.intres := rfl
@[simp] theorem State.setSym_err (m : Memory Sym) : (s.setSym m).err = s.err := rfl
@[simp] theorem State.setSym_errinfo (m : Memory Sym) : (s.setSym m).errinfo = s.errinfo := rfl
@[simp] theorem State.setSym_errseq (m : Memory Sym) : (s.setSym m).errseq = s.errseq := rfl
@[simp] theorem State.setSym_wptr (m : Memory Sym) : (s.setSym m).wptr = s.wptr := rfl
@[simp] theorem State.setSym_rptr (m : Memory Sym) : (s.setSym m).rptr = s.rptr := rfl
@[simp] theorem State.setSym_res0 (m : Memory Sym) : (s.setSym m).res0 = s.res0 := rfl
@[simp] theorem State.setSym_res1 (m : Memory Sym) : (s.setSym m).res1 = s.res1 := rfl
@[simp] theorem State.setSym_res2 (m : Memory Sym) : (s.setSym m).res2 = s.res2 := rfl
@[simp] theorem State.setSym_res3 (m : Memory Sym) : (s.setSym m).res3 = s.res3 := rfl
@[simp] theorem State.setSym_cmdcnt (m : Memory Sym) : (s.setSym m).cmdcnt = s.cmdcnt := rfl
@[simp] theorem State.setSym_dict (m : Memory Sym) : (s.setSym m).dict = s.dict := rfl
@[simp] theorem State.setSym_snap (m : Memory Sym) : (s.setSym m).snap = s.snap := rfl
@[simp] theorem State.setSym_sym (m : Memory Sym) : (s.setSym m).sym = m := rfl
@[simp] theorem State.setSym_bit (m : Memory Sym) : (s.setSym m).bit = s.bit := rfl
@[simp] theorem State.setSym_fifo (m : Memory Sym) : (s.setSym m).fifo = s.fifo := rfl
@[simp] theorem State.setSym_assembler (m : Memory Sym) : (s.setSym m).assembler = s.assembler := rfl
@[simp] theorem State.setSym_running (m : Memory Sym) : (s.setSym m).running = s.running := rfl
@[simp] theorem State.setSym_log (m : Memory Sym) : (s.setSym m).log = s.log := rfl
@[simp] theorem State.setSym_draws (m : Memory Sym) : (s.setSym m).draws = s.draws := rfl
@[simp] theorem State.setSym_rdata (m : Memory Sym) : (s.setSym m).rdata = s.rdata := rfl
@[simp] theorem State.setSym_agenda (m : Memory Sym) : (s.setSym m).agenda = s.agenda := rfl

/-! ### `State.setBit` -/

@[simp] theorem State.setBit_params (m : Memory Bool) : (s.setBit m).params = s.params := rfl
@[simp] theorem State.setBit_ieErr (m : Memory Bool) : (s.setBit m).ieErr = s.ieErr := rfl
@[simp] theorem State.setBit_ieIdle (m : Memory Bool) : (s.setBit m).ieIdle = s.ieIdle := rfl
@[simp] theorem State.setBit_intres (m : Memory Bool) : (s.setBit m).intres = s.intres := rfl
@[simp] theorem State.setBit_err (m : Memory Bool) : (s.setBit m).err = s.err := rfl
@[simp] theorem State.setBit_errinfo (m : Memory Bool) : (s.setBit m).errinfo = s.errinfo := rfl
@[simp] theorem State.setBit_errseq (m : Memory Bool) : (s.setBit m).errseq = s.errseq := rfl
@[simp] theorem State.setBit_wptr (m : Memory Bool) : (s.setBit m).wptr = s.wptr := rfl
@[simp] theorem State.setBit_rptr (m : Memory Bool) : (s.setBit m).rptr = s.rptr := rfl
@[simp] theorem State.setBit_res0 (m : Memory Bool) : (s.setBit m).res0 = s.res0 := rfl
@[simp] theorem State.setBit_res1 (m : Memory Bool) : (s.setBit m).res1 = s.res1 := rfl
@[simp] theorem State.setBit_res2 (m : Memory Bool) : (s.setBit m).res2 = s.res2 := rfl
@[simp] theorem State.setBit_res3 (m : Memory Bool) : (s.setBit m).res3 = s.res3 := rfl
@[simp] theorem State.setBit_cmdcnt (m : Memory Bool) : (s.setBit m).cmdcnt = s.cmdcnt := rfl
@[simp] theorem State.setBit_dict (m : Memory Bool) : (s.setBit m).dict = s.dict := rfl
@[simp] theorem State.setBit_snap (m : Memory Bool) : (s.setBit m).snap = s.snap := rfl
@[simp] theorem State.setBit_sym (m : Memory Bool) : (s.setBit m).sym = s.sym := rfl
@[simp] theorem State.setBit_bit (m : Memory Bool) : (s.setBit m).bit = m := rfl
@[simp] theorem State.setBit_fifo (m : Memory Bool) : (s.setBit m).fifo = s.fifo := rfl
@[simp] theorem State.setBit_assembler (m : Memory Bool) : (s.setBit m).assembler = s.assembler := rfl
@[simp] theorem State.setBit_running (m : Memory Bool) : (s.setBit m).running = s.running := rfl
@[simp] theorem State.setBit_log (m : Memory Bool) : (s.setBit m).log = s.log := rfl
@[simp] theorem State.setBit_draws (m : Memory Bool) : (s.setBit m).draws = s.draws := rfl
@[simp] theorem State.setBit_rdata (m : Memory Bool) : (s.setBit m).rdata = s.rdata := rfl
@[simp] theorem State.setBit_agenda (m : Memory Bool) : (s.setBit m).agenda = s.agenda := rfl

/-! ### `State.setDict` -/

@[simp] theorem State.setDict_params (c : Nat) (h : Channel) : (s.setDict c h).params = s.params := rfl
@[simp] theorem State.setDict_ieErr (c : Nat) (h : Channel) : (s.setDict c h).ieErr = s.ieErr := rfl
@[simp] theorem State.setDict_ieIdle (c : Nat) (h : Channel) : (s.setDict c h).ieIdle = s.ieIdle := rfl
@[simp] theorem State.setDict_intres (c : Nat) (h : Channel) : (s.setDict c h).intres = s.intres := rfl
@[simp] theorem State.setDict_err (c : Nat) (h : Channel) : (s.setDict c h).err = s.err := rfl
@[simp] theorem State.setDict_errinfo (c : Nat) (h : Channel) : (s.setDict c h).errinfo = s.errinfo := rfl
@[simp] theorem State.setDict_errseq (c : Nat) (h : Channel) : (s.setDict c h).errseq = s.errseq := rfl
@[simp] theorem State.setDict_wptr (c : Nat) (h : Channel) : (s.setDict c h).wptr = s.wptr := rfl
@[simp] theorem State.setDict_rptr (c : Nat) (h : Channel) : (s.setDict c h).rptr = s.rptr := rfl
@[simp] theorem State.setDict_res0 (c : Nat) (h : Channel) : (s.setDict c h).res0 = s.res0 := rfl
@[simp] theorem State.setDict_res1 (c : Nat) (h : Channel) : (s.setDict c h).res1 = s.res1 := rfl
@[simp] theorem State.setDict_res2 (c : Nat) (h : Channel) : (s.setDict c h).res2 = s.res2 := rfl
@[simp] theorem State.setDict_res3 (c : Nat) (h : Channel) : (s.setDict c h).res3 = s.res3 := rfl
@[simp] theorem State.setDict_cmdcnt (c : Nat) (h : Channel) : (s.setDict c h).cmdcnt = s.cmdcnt := rfl
@[simp] theorem State.setDict_dict (c : Nat) (h : Channel) : (s.setDict c h).dict = s.dict.set c h := rfl
@[simp] theorem State.setDict_snap (c : Nat) (h : Channel) : (s.setDict c h).snap = s.snap := rfl
@[simp] theorem State.setDict_sym (c : Nat) (h : Channel) : (s.setDict c h).sym = s.sym := rfl
@[simp] theorem State.setDict_bit (c : Nat) (h : Channel) : (s.setDict c h).bit = s.bit := rfl
@[simp] theorem State.setDict_fifo (c : Nat) (h : Channel) : (s.setDict c h).fifo = s.fifo := rfl
@[simp] theorem State.setDict_assembler (c : Nat) (h : Channel) : (s.setDict c h).assembler = s.assembler := rfl
@[simp] theorem State.setDict_running (c : Nat) (h : Channel) : (s.setDict c h).running = s.running := rfl
@[simp] theorem State.setDict_log (c : Nat) (h : Channel) : (s.setDict c h).log = s.log := rfl
@[simp] theorem State.setDict_draws (c : Nat) (h : Channel) : (s.setDict c h).draws = s.draws := rfl
@[simp] theorem State.setDict_rdata (c : Nat) (h : Channel) : (s.setDict c h).rdata = s.rdata := rfl
@[simp] theorem State.setDict_agenda (c : Nat) (h : Channel) : (s.setDict c h).agenda = s.agenda := rfl

/-! ### `State.setSnap` -/

@[simp] theorem State.setSnap_params (c : Nat) (d : Option Dict) : (s.setSnap c d).params = s.params := rfl
@[simp] theorem State.setSnap_ieErr (c : Nat) (d : Option Dict) : (s.setSnap c d).ieErr = s.ieErr := rfl
@[simp] theorem State.setSnap_ieIdle (c : Nat) (d : Option Dict) : (s.setSnap c d).ieIdle = s.ieIdle := rfl
@[simp] theorem State.setSnap_intres (c : Nat) (d : Option Dict) : (s.setSnap c d).intres = s.intres := rfl
@[simp] theorem State.setSnap_err (c : Nat) (d : Option Dict) : (s.setSnap c d).err = s.err := rfl
@[simp] theorem State.setSnap_errinfo (c : Nat) (d : Option Dict) : (s.setSnap c d).errinfo = s.errinfo := rfl
@[simp] theorem State.setSnap_errseq (c : Nat) (d : Option Dict) : (s.setSnap c d).errseq = s.errseq := rfl
@[simp] theorem State.setSnap_wptr (c : Nat) (d : Option Dict) : (s.setSnap c d).wptr = s.wptr := rfl
@[simp] theorem State.setSnap_rptr (c : Nat) (d : Option Dict) : (s.setSnap c d).rptr = s.rptr := rfl
@[simp] theorem State.setSnap_res0 (c : Nat) (d : Option Dict) : (s.setSnap c d).res0 = s.res0 := rfl
@[simp] theorem State.setSnap_res1 (c : Nat) (d : Option Dict) : (s.setSnap c d).res1 = s.res1 := rfl
@[simp] theorem State.setSnap_res2 (c : Nat) (d : Option Dict) : (s.setSnap c d).res2 = s.res2 := rfl
@[simp] theorem State.setSnap_res3 (c : Nat) (d : Option Dict) : (s.setSnap c d).res3 = s.res3 := rfl
@[simp] theorem State.setSnap_cmdcnt (c : Nat) (d : Option Dict) : (s.setSnap c d).cmdcnt = s.cmdcnt := rfl
@[simp] theorem State.setSnap_dict (c : Nat) (d : Option Dict) : (s.setSnap c d).dict = s.dict := rfl
@[simp] theorem State.setSnap_snap (c : Nat) (d : Option Dict) : (s.setSnap c d).snap = s.snap.set c d := rfl
@[simp] theorem State.setSnap_sym (c : Nat) (d : Option Dict) : (s.setSnap c d).sym = s.sym := rfl
@[simp] theorem State.setSnap_bit (c : Nat) (d : Option Dict) : (s.setSnap c d).bit = s.bit := rfl
@[simp] theorem State.setSnap_fifo (c : Nat) (d : Option Dict) : (s.setSnap c d).fifo = s.fifo := rfl
@[simp] theorem State.setSnap_assembler (c : Nat) (d : Option Dict) : (s.setSnap c d).assembler = s.assembler := rfl
@[simp] theorem State.setSnap_running (c : Nat) (d : Option Dict) : (s.setSnap c d).running = s.running := rfl
@[simp] theorem State.setSnap_log (c : Nat) (d : Option Dict) : (s.setSnap c d).log = s.log := rfl
@[simp] theorem State.setSnap_draws (c : Nat) (d : Option Dict) : (s.setSnap c d).draws = s.draws := rfl
@[simp] theorem State.setSnap_rdata (c : Nat) (d : Option Dict) : (s.setSnap c d).rdata = s.rdata := rfl
@[simp] theorem State.setSnap_agenda (c : Nat) (d : Option Dict) : (s.setSnap c d).agenda = s.agenda := rfl

/-! ### `State.useDraws` -/

@[simp] theorem State.useDraws_params (n : Nat) : (s.useDraws n).params = s.params := rfl
@[simp] theorem State.useDraws_ieErr (n : Nat) : (s.useDraws n).ieErr = s.ieErr := rfl
@[simp] theorem State.useDraws_ieIdle (n : Nat) : (s.useDraws n).ieIdle = s.ieIdle := rfl
@[simp] theorem State.useDraws_intres (n : Nat) : (s.useDraws n).intres = s.intres := rfl
@[simp] theorem State.useDraws_err (n : Nat) : (s.useDraws n).err = s.err := rfl
@[simp] theorem State.useDraws_errinfo (n : Nat) : (s.useDraws n).errinfo = s.errinfo := rfl
@[simp] theorem State.useDraws_errseq (n : Nat) : (s.useDraws n).errseq = s.errseq := rfl
@[simp] theorem State.useDraws_wptr (n : Nat) : (s.useDraws n).wptr = s.wptr := rfl
@[simp] theorem State.useDraws_rptr (n : Nat) : (s.useDraws n).rptr = s.rptr := rfl
@[simp] theorem State.useDraws_res0 (n : Nat) : (s.useDraws n).res0 = s.res0 := rfl
@[simp] theorem State.useDraws_res1 (n : Nat) : (s.useDraws n).res1 = s.res1 := rfl
@[simp] theorem State.useDraws_res2 (n : Nat) : (s.useDraws n).res2 = s.res2 := rfl
@[simp] theorem State.useDraws_res3 (n : Nat) : (s.useDraws n).res3 = s.res3 := rfl
@[simp] theorem State.useDraws_cmdcnt (n : Nat) : (s.useDraws n).cmdcnt = s.cmdcnt := rfl
@[simp] theorem State.useDraws_dict (n : Nat) : (s.useDraws n).dict = s.dict := rfl
@[simp] theorem State.useDraws_snap (n : Nat) : (s.useDraws n).snap = s.snap := rfl
@[simp] theorem State.useDraws_sym (n : Nat) : (s.useDraws n).sym = s.sym := rfl
@[simp] theorem State.useDraws_bit (n : Nat) : (s.useDraws n).bit = s.bit := rfl
@[simp] theorem State.useDraws_fifo (n : Nat) : (s.useDraws n).fifo = s.fifo := rfl
@[simp] theorem State.useDraws_assembler (n : Nat) : (s.useDraws n).assembler = s.assembler := rfl
@[simp] theorem State.useDraws_running (n : Nat) : (s.useDraws n).running = s.running := rfl
@[simp] theorem State.useDraws_log (n : Nat) : (s.useDraws n).log = s.log := rfl
@[simp] theorem State.useDraws_draws (n : Nat) : (s.useDraws n).draws = s.draws + n := rfl
@[simp] theorem State.useDraws_rdata (n : Nat) : (s.useDraws n).rdata = s.rdata := rfl
@[simp] theorem State.useDraws_agenda (n : Nat) : (s.useDraws n).agenda = s.agenda := rfl

/-! ### `State.count` -/

@[simp] theorem State.count_params : s.count.params = s.params := rfl
@[simp] theorem State.count_ieErr : s.count.ieErr = s.ieErr := rfl
@[simp] theorem State.count_ieIdle : s.count.ieIdle = s.ieIdle := rfl
@[simp] theorem State.count_intres : s.count.intres = s.intres := rfl
@[simp] theorem State.count_err : s.count.err = s.err := rfl
@[simp] theorem State.count_errinfo : s.count.errinfo = s.errinfo := rfl
@[simp] theorem State.count_errseq : s.count.errseq = s.errseq := rfl
@[simp] theorem State.count_wptr : s.count.wptr = s.wptr := rfl
@[simp] theorem State.count_rptr : s.count.rptr = s.rptr := rfl
@[simp] theorem State.count_res0 : s.count.res0 = s.res0 := rfl
@[simp] theorem State.count_res1 : s.count.res1 = s.res1 := rfl
@[simp] theorem State.count_res2 : s.count.res2 = s.res2 := rfl
@[simp] theorem State.count_res3 : s.count.res3 = s.res3 := rfl
@[simp] theorem State.count_cmdcnt : s.count.cmdcnt = s.cmdcnt + 1#32 := rfl
@[simp] theorem State.count_dict : s.count.dict = s.dict := rfl
@[simp] theorem State.count_snap : s.count.snap = s.snap := rfl
@[simp] theorem State.count_sym : s.count.sym = s.sym := rfl
@[simp] theorem State.count_bit : s.count.bit = s.bit := rfl
@[simp] theorem State.count_fifo : s.count.fifo = s.fifo := rfl
@[simp] theorem State.count_assembler : s.count.assembler = s.assembler := rfl
@[simp] theorem State.count_running : s.count.running = s.running := rfl
@[simp] theorem State.count_log : s.count.log = s.log := rfl
@[simp] theorem State.count_draws : s.count.draws = s.draws := rfl
@[simp] theorem State.count_rdata : s.count.rdata = s.rdata := rfl
@[simp] theorem State.count_agenda : s.count.agenda = s.agenda := rfl

/-! ### `State.clearError` -/

@[simp] theorem State.clearError_params : s.clearError.params = s.params := rfl
@[simp] theorem State.clearError_ieErr : s.clearError.ieErr = s.ieErr := rfl
@[simp] theorem State.clearError_ieIdle : s.clearError.ieIdle = s.ieIdle := rfl
@[simp] theorem State.clearError_intres : s.clearError.intres = s.intres := rfl
@[simp] theorem State.clearError_err : s.clearError.err = none := rfl
@[simp] theorem State.clearError_errinfo : s.clearError.errinfo = s.errinfo := rfl
@[simp] theorem State.clearError_errseq : s.clearError.errseq = s.errseq := rfl
@[simp] theorem State.clearError_wptr : s.clearError.wptr = s.wptr := rfl
@[simp] theorem State.clearError_rptr : s.clearError.rptr = s.rptr := rfl
@[simp] theorem State.clearError_res0 : s.clearError.res0 = s.res0 := rfl
@[simp] theorem State.clearError_res1 : s.clearError.res1 = s.res1 := rfl
@[simp] theorem State.clearError_res2 : s.clearError.res2 = s.res2 := rfl
@[simp] theorem State.clearError_res3 : s.clearError.res3 = s.res3 := rfl
@[simp] theorem State.clearError_cmdcnt : s.clearError.cmdcnt = s.cmdcnt := rfl
@[simp] theorem State.clearError_dict : s.clearError.dict = s.dict := rfl
@[simp] theorem State.clearError_snap : s.clearError.snap = s.snap := rfl
@[simp] theorem State.clearError_sym : s.clearError.sym = s.sym := rfl
@[simp] theorem State.clearError_bit : s.clearError.bit = s.bit := rfl
@[simp] theorem State.clearError_fifo : s.clearError.fifo = s.fifo := rfl
@[simp] theorem State.clearError_assembler : s.clearError.assembler = s.assembler := rfl
@[simp] theorem State.clearError_running : s.clearError.running = s.running := rfl
@[simp] theorem State.clearError_log : s.clearError.log = s.log := rfl
@[simp] theorem State.clearError_draws : s.clearError.draws = s.draws := rfl
@[simp] theorem State.clearError_rdata : s.clearError.rdata = s.rdata := rfl
@[simp] theorem State.clearError_agenda : s.clearError.agenda = s.agenda := rfl

/-! ### `State.takeWords` -/

@[simp] theorem State.takeWords_params (r : List Word) : (s.takeWords r).params = s.params := rfl
@[simp] theorem State.takeWords_ieErr (r : List Word) : (s.takeWords r).ieErr = s.ieErr := rfl
@[simp] theorem State.takeWords_ieIdle (r : List Word) : (s.takeWords r).ieIdle = s.ieIdle := rfl
@[simp] theorem State.takeWords_intres (r : List Word) : (s.takeWords r).intres = s.intres := rfl
@[simp] theorem State.takeWords_err (r : List Word) : (s.takeWords r).err = s.err := rfl
@[simp] theorem State.takeWords_errinfo (r : List Word) : (s.takeWords r).errinfo = s.errinfo := rfl
@[simp] theorem State.takeWords_errseq (r : List Word) : (s.takeWords r).errseq = s.errseq := rfl
@[simp] theorem State.takeWords_wptr (r : List Word) : (s.takeWords r).wptr = s.wptr := rfl
@[simp] theorem State.takeWords_rptr (r : List Word) : (s.takeWords r).rptr = s.rptr := rfl
@[simp] theorem State.takeWords_res0 (r : List Word) : (s.takeWords r).res0 = s.res0 := rfl
@[simp] theorem State.takeWords_res1 (r : List Word) : (s.takeWords r).res1 = s.res1 := rfl
@[simp] theorem State.takeWords_res2 (r : List Word) : (s.takeWords r).res2 = s.res2 := rfl
@[simp] theorem State.takeWords_res3 (r : List Word) : (s.takeWords r).res3 = s.res3 := rfl
@[simp] theorem State.takeWords_cmdcnt (r : List Word) : (s.takeWords r).cmdcnt = s.cmdcnt := rfl
@[simp] theorem State.takeWords_dict (r : List Word) : (s.takeWords r).dict = s.dict := rfl
@[simp] theorem State.takeWords_snap (r : List Word) : (s.takeWords r).snap = s.snap := rfl
@[simp] theorem State.takeWords_sym (r : List Word) : (s.takeWords r).sym = s.sym := rfl
@[simp] theorem State.takeWords_bit (r : List Word) : (s.takeWords r).bit = s.bit := rfl
@[simp] theorem State.takeWords_fifo (r : List Word) : (s.takeWords r).fifo = r := rfl
@[simp] theorem State.takeWords_assembler (r : List Word) : (s.takeWords r).assembler = [] := rfl
@[simp] theorem State.takeWords_running (r : List Word) : (s.takeWords r).running = s.running := rfl
@[simp] theorem State.takeWords_log (r : List Word) : (s.takeWords r).log = s.log := rfl
@[simp] theorem State.takeWords_draws (r : List Word) : (s.takeWords r).draws = s.draws := rfl
@[simp] theorem State.takeWords_rdata (r : List Word) : (s.takeWords r).rdata = s.rdata := rfl
@[simp] theorem State.takeWords_agenda (r : List Word) : (s.takeWords r).agenda = s.agenda := rfl

/-! ### `State.waitWords` -/

@[simp] theorem State.waitWords_params : s.waitWords.params = s.params := rfl
@[simp] theorem State.waitWords_ieErr : s.waitWords.ieErr = s.ieErr := rfl
@[simp] theorem State.waitWords_ieIdle : s.waitWords.ieIdle = s.ieIdle := rfl
@[simp] theorem State.waitWords_intres : s.waitWords.intres = s.intres := rfl
@[simp] theorem State.waitWords_err : s.waitWords.err = s.err := rfl
@[simp] theorem State.waitWords_errinfo : s.waitWords.errinfo = s.errinfo := rfl
@[simp] theorem State.waitWords_errseq : s.waitWords.errseq = s.errseq := rfl
@[simp] theorem State.waitWords_wptr : s.waitWords.wptr = s.wptr := rfl
@[simp] theorem State.waitWords_rptr : s.waitWords.rptr = s.rptr := rfl
@[simp] theorem State.waitWords_res0 : s.waitWords.res0 = s.res0 := rfl
@[simp] theorem State.waitWords_res1 : s.waitWords.res1 = s.res1 := rfl
@[simp] theorem State.waitWords_res2 : s.waitWords.res2 = s.res2 := rfl
@[simp] theorem State.waitWords_res3 : s.waitWords.res3 = s.res3 := rfl
@[simp] theorem State.waitWords_cmdcnt : s.waitWords.cmdcnt = s.cmdcnt := rfl
@[simp] theorem State.waitWords_dict : s.waitWords.dict = s.dict := rfl
@[simp] theorem State.waitWords_snap : s.waitWords.snap = s.snap := rfl
@[simp] theorem State.waitWords_sym : s.waitWords.sym = s.sym := rfl
@[simp] theorem State.waitWords_bit : s.waitWords.bit = s.bit := rfl
@[simp] theorem State.waitWords_fifo : s.waitWords.fifo = [] := rfl
@[simp] theorem State.waitWords_assembler : s.waitWords.assembler = s.assembler ++ s.fifo := rfl
@[simp] theorem State.waitWords_running : s.waitWords.running = s.running := rfl
@[simp] theorem State.waitWords_log : s.waitWords.log = s.log := rfl
@[simp] theorem State.waitWords_draws : s.waitWords.draws = s.draws := rfl
@[simp] theorem State.waitWords_rdata : s.waitWords.rdata = s.rdata := rfl
@[simp] theorem State.waitWords_agenda : s.waitWords.agenda = s.agenda := rfl

end Sys2Proof.Machine
end

