-- ==== Sys2Proof/Laws/Exec.lean ====
section
/-! SUPPORT. The spec lemmas of the shared operations that end a command (complete, raise, exception entry), and `exec`
arm by arm. -/

namespace Sys2Proof.Machine

theorem complete_eq (s : State) : complete s = .next s.count := rfl

theorem raise_eq (i : Instr) (c : Cause) (s : State) : raise i c s = .next (s.takeException c i.header) := rfl

/-! ### Exception entry -/

theorem takeException_of_err {s : State} (h : s.err.isSome) (c : Cause) (w : Word) : s.takeException c w = s := by
  simp [State.takeException, h]

theorem takeException_of_no_err {s : State} (h : s.err = none) (c : Cause) (w : Word) :
    s.takeException c w = { s with
      err := some c, errinfo := w, errseq := s.cmdcnt, fifo := [], assembler := []
      log := s.log ++ [{ cause := c, info := w, seq := s.cmdcnt }] } := by
  simp [State.takeException, h]

/-- Everything exception entry can do: nothing when ERR = 1, R226 when ERR = 0. -/
theorem takeException_cases (s : State) (c : Cause) (w : Word) :
    (s.err.isSome ∧ s.takeException c w = s) ∨
      (s.err = none ∧ s.takeException c w = { s with
        err := some c, errinfo := w, errseq := s.cmdcnt, fifo := [], assembler := []
        log := s.log ++ [{ cause := c, info := w, seq := s.cmdcnt }] }) := by
  cases h : s.err with
  | none => exact .inr ⟨rfl, takeException_of_no_err h c w⟩
  | some e => exact .inl ⟨rfl, takeException_of_err (by simp [h]) c w⟩

section fields
variable (s : State) (c : Cause) (w : Word)

@[simp] theorem takeException_params : (s.takeException c w).params = s.params := by
  unfold State.takeException; split <;> rfl
@[simp] theorem takeException_ieErr : (s.takeException c w).ieErr = s.ieErr := by
  unfold State.takeException; split <;> rfl
@[simp] theorem takeException_ieIdle : (s.takeException c w).ieIdle = s.ieIdle := by
  unfold State.takeException; split <;> rfl
@[simp] theorem takeException_intres : (s.takeException c w).intres = s.intres := by
  unfold State.takeException; split <;> rfl
@[simp] theorem takeException_wptr : (s.takeException c w).wptr = s.wptr := by
  unfold State.takeException; split <;> rfl
@[simp] theorem takeException_rptr : (s.takeException c w).rptr = s.rptr := by
  unfold State.takeException; split <;> rfl
@[simp] theorem takeException_res0 : (s.takeException c w).res0 = s.res0 := by
  unfold State.takeException; split <;> rfl
@[simp] theorem takeException_res1 : (s.takeException c w).res1 = s.res1 := by
  unfold State.takeException; split <;> rfl
@[simp] theorem takeException_res2 : (s.takeException c w).res2 = s.res2 := by
  unfold State.takeException; split <;> rfl
@[simp] theorem takeException_res3 : (s.takeException c w).res3 = s.res3 := by
  unfold State.takeException; split <;> rfl
@[simp] theorem takeException_cmdcnt : (s.takeException c w).cmdcnt = s.cmdcnt := by
  unfold State.takeException; split <;> rfl
@[simp] theorem takeException_dict : (s.takeException c w).dict = s.dict := by
  unfold State.takeException; split <;> rfl
@[simp] theorem takeException_snap : (s.takeException c w).snap = s.snap := by
  unfold State.takeException; split <;> rfl
@[simp] theorem takeException_sym : (s.takeException c w).sym = s.sym := by
  unfold State.takeException; split <;> rfl
@[simp] theorem takeException_bit : (s.takeException c w).bit = s.bit := by
  unfold State.takeException; split <;> rfl
@[simp] theorem takeException_running : (s.takeException c w).running = s.running := by
  unfold State.takeException; split <;> rfl
@[simp] theorem takeException_draws : (s.takeException c w).draws = s.draws := by
  unfold State.takeException; split <;> rfl
@[simp] theorem takeException_rdata : (s.takeException c w).rdata = s.rdata := by
  unfold State.takeException; split <;> rfl
@[simp] theorem takeException_agenda : (s.takeException c w).agenda = s.agenda := by
  unfold State.takeException; split <;> rfl
@[simp] theorem takeException_err_isSome : (s.takeException c w).err.isSome := by
  unfold State.takeException; split <;> simp_all

end fields

/-! ### Derived views that no register update changes -/

@[simp] theorem State.setRes0_bitLen (s : State) (v : Word) : (s.setRes0 v).bitLen = s.bitLen := rfl
@[simp] theorem State.setWptr_bitLen (s : State) (v : Word) : (s.setWptr v).bitLen = s.bitLen := rfl
@[simp] theorem State.setRptr_bitLen (s : State) (v : Word) : (s.setRptr v).bitLen = s.bitLen := rfl
@[simp] theorem State.setBit_bitLen (s : State) (m : Memory Bool) : (s.setBit m).bitLen = s.bitLen := rfl
@[simp] theorem State.setDict_bitLen (s : State) (c : Nat) (h : Channel) : (s.setDict c h).bitLen = s.bitLen := rfl
@[simp] theorem State.setSnap_bitLen (s : State) (c : Nat) (d : Option Dict) : (s.setSnap c d).bitLen = s.bitLen := rfl
@[simp] theorem State.count_bitLen (s : State) : s.count.bitLen = s.bitLen := rfl

theorem State.channel_of_getElem? {s : State} {c : Nat} {h : Channel} (e : s.dict[c]? = some h) : s.channel c = h := by
  simp [State.channel, List.getD, e]

theorem State.snapshot_of_getElem? {s : State} {c : Nat} {d : Option Dict} (e : s.snap[c]? = some d) :
    s.snapshot c = d := by
  simp [State.snapshot, List.getD, e]

/-! ### `exec`, arm by arm -/

section arms
variable (s : State)

theorem exec_nop : exec .nop s = execNop s := rfl
theorem exec_fdec (x : Word) : exec (.fdec x) s = execFdec x s := rfl
theorem exec_frec (sg e m : Word) : exec (.frec sg e m) s = execFrec sg e m s := rfl
theorem exec_fmul (a b : Word) : exec (.fmul a b) s = execFmul a b s := rfl
theorem exec_fdiv (x y : Word) : exec (.fdiv x y) s = execFdiv x y s := rfl
theorem exec_fpow2 (sh : Word) : exec (.fpow2 sh) s = execFpow2 sh s := rfl
theorem exec_recon (q sh a : Word) : exec (.recon q sh a) s = execRecon q sh a s := rfl
theorem exec_resid (x y : Word) : exec (.resid x y) s = execResid x y s := rfl
theorem exec_unres (y d : Word) : exec (.unres y d) s = execUnres y d s := rfl
theorem exec_nwidth (f : Bool) (q hb : Word) : exec (.nwidth f q hb) s = execNwidth f q hb s := rfl
theorem exec_packa (x idx : Word) : exec (.packa x idx) s = execPacka x idx s := rfl
theorem exec_packb (d w idx : Word) : exec (.packb d w idx) s = execPackb d w idx s := rfl
theorem exec_unpacka (idx : Word) : exec (.unpacka idx) s = execUnpacka idx s := rfl
theorem exec_unpackb (idx w : Word) : exec (.unpackb idx w) s = execUnpackb idx w s := rfl
theorem exec_dflush (c : Nat) : exec (.dflush c) s = execDflush c s := rfl
theorem exec_denc (c : Nat) (base n : Word) : exec (.denc c base n) s = execDenc c base n s := rfl
theorem exec_ddec (c : Nat) (base n : Word) : exec (.ddec c base n) s = execDdec c base n s := rfl
theorem exec_dbackup (c : Nat) : exec (.dbackup c) s = execDbackup c s := rfl
theorem exec_dresume (c : Nat) : exec (.dresume c) s = execDresume c s := rfl
theorem exec_dstat (c : Nat) : exec (.dstat c) s = execDstat c s := rfl
theorem exec_bwr (n : Nat) (v : Word) : exec (.bwr n v) s = execBwr n v s := rfl
theorem exec_brd (n : Nat) : exec (.brd n) s = execBrd n s := rfl
theorem exec_balignw : exec .balignw s = execBalignw s := rfl
theorem exec_balignr : exec .balignr s = execBalignr s := rfl
theorem exec_setwp (p : Word) : exec (.setwp p) s = execSetwp p s := rfl
theorem exec_setrp (p : Word) : exec (.setrp p) s = execSetrp p s := rfl

end arms

end Sys2Proof.Machine
end

