-- ==== Sys2Proof/Laws/Commands.lean ====
section
/-! SUPPORT. What a command can do, said once: it completes and touches only what its row names, or it raises, or it reads
an unwritten cell. Whole-machine claims are read off `exec_ends`. -/

namespace Sys2Proof.Machine

/-- `u` differs from `s` only in what a completed command of the row `o` may write, before it is counted. -/
structure Touches (o : Op) (s u : State) : Prop where
  params : u.params = s.params
  ieErr : u.ieErr = s.ieErr
  ieIdle : u.ieIdle = s.ieIdle
  intres : u.intres = s.intres
  err : u.err = s.err
  errinfo : u.errinfo = s.errinfo
  errseq : u.errseq = s.errseq
  cmdcnt : u.cmdcnt = s.cmdcnt
  fifo : u.fifo = s.fifo
  assembler : u.assembler = s.assembler
  running : u.running = s.running
  log : u.log = s.log
  rdata : u.rdata = s.rdata
  agenda : u.agenda = s.agenda
  res0 : o ∈ [Op.nop, .dflush, .dbackup, .dresume, .bwr, .setwp, .setrp] → u.res0 = s.res0
  res1 : o ∉ [Op.fdec, .fmul, .resid, .unpacka, .unpackb, .dstat] → u.res1 = s.res1
  res2 : o ∉ [Op.fdec, .fmul, .resid, .dstat] → u.res2 = s.res2
  res3 : o ∉ [Op.fmul, .dstat] → u.res3 = s.res3
  wptr : o ∉ [Op.bwr, .balignw, .setwp, .denc] → u.wptr = s.wptr
  rptr : o ∉ [Op.brd, .balignr, .setrp, .ddec] → u.rptr = s.rptr
  sym : o ∉ [Op.packa, .packb, .ddec] → u.sym = s.sym
  bit : o ∉ [Op.bwr, .balignw, .denc] → u.bit = s.bit
  dict : o ∉ [Op.dflush, .denc, .ddec, .dresume] → u.dict = s.dict
  snap : o ≠ Op.dbackup → u.snap = s.snap
  draws : o ≠ Op.dstat → u.draws = s.draws

/-- How a command can end. -/
inductive Ends (i : Instr) (s : State) : Result → Prop where
  /-- It completes. -/
  | done (u : State) (h : Touches i.op s u) : Ends i s (complete u)
  /-- It raises and performs none of its writes (R225). -/
  | raised (c : Cause) : Ends i s (raise i c s)
  /-- A fatal DDEC error (R167). -/
  | fatal (c : Nat) (base n : Word) (k : Cause) (hi : i = .ddec c base n) (hk : k = .mdcCorrupt ∨ k = .bitRange) :
    Ends i s (raise i k ((s.setDict c .poisoned).setSym (s.sym.eraseRange base.toNat n.toNat)))
  /-- DENC's BIT_RANGE (R170). -/
  | tooLong (c : Nat) (base n : Word) (hi : i = .denc c base n) :
    Ends i s (raise i .bitRange (s.setBit (s.bit.eraseFrom s.wptr.toNat)))
  /-- READ_UNWRITTEN (R37). -/
  | unwritten (h : i.op ∈ [Op.denc, .unpacka, .unpackb, .ddec, .brd]) : Ends i s (.fault .readUnwritten)

/-- The causes the decoder ends with are MDC_CORRUPT and BIT_RANGE (R167). -/
theorem decodeLoop_fatal {bit : Memory Bool} {limit n fuel : Nat} {t : Decoding} {c : Cause}
    (h : decodeLoop bit limit n fuel t = .fatal c) : c = .mdcCorrupt ∨ c = .bitRange := by
  induction fuel generalizing t with
  | zero => simp [decodeLoop] at h; exact .inr h.symm
  | succ fuel ih =>
    simp only [decodeLoop] at h
    split_ifs at h
    · simp at h; exact .inr h.symm
    · split at h
      · cases h
      · split at h
        · simp at h; exact .inl h.symm
        · exact ih h

variable (s : State)

theorem execNop_ends : Ends .nop s (execNop s) := by
  exact .done s (by constructor <;> simp)

theorem execFdec_ends (x : Word) : Ends (.fdec x) s (execFdec x s) := by
  exact .done _ (by constructor <;> simp [Instr.op])

theorem execFrec_ends (sg e m : Word) : Ends (.frec sg e m) s (execFrec sg e m s) := by
  unfold execFrec; split
  · exact .raised _
  · exact .done _ (by constructor <;> simp [Instr.op])

theorem execFmul_ends (a b : Word) : Ends (.fmul a b) s (execFmul a b s) := by
  unfold execFmul; split
  · exact .raised _
  · exact .done _ (by constructor <;> simp [Instr.op])

theorem execFdiv_ends (x y : Word) : Ends (.fdiv x y) s (execFdiv x y s) := by
  unfold execFdiv; split
  · exact .raised _
  · exact .done _ (by constructor <;> simp [Instr.op])

theorem execFpow2_ends (sh : Word) : Ends (.fpow2 sh) s (execFpow2 sh s) := by
  exact .done _ (by constructor <;> simp [Instr.op])

theorem execRecon_ends (q sh a : Word) : Ends (.recon q sh a) s (execRecon q sh a s) := by
  unfold execRecon; dsimp only
  by_cases h1 : 1 ≤ s.intres.toNat ∧ s.intres.toNat ≤ 24
  · rw [if_neg (not_not.2 h1)]; split
    · exact .raised _
    · split
      · exact .raised _
      · split
        · exact .raised _
        · split
          · exact .raised _
          · exact .done _ (by constructor <;> simp [Instr.op])
  · rw [if_pos h1]; exact .raised _

theorem execResid_ends (x y : Word) : Ends (.resid x y) s (execResid x y s) := by
  unfold execResid; dsimp only; split_ifs
  iterate 5 exact .raised _
  exact .done _ (by constructor <;> simp [Instr.op])

theorem execUnres_ends (y d : Word) : Ends (.unres y d) s (execUnres y d s) := by
  unfold execUnres; dsimp only; split_ifs
  iterate 2 exact .raised _
  · exact .done _ (by constructor <;> simp [Instr.op])
  iterate 2 exact .raised _
  exact .done _ (by constructor <;> simp [Instr.op])

theorem execNwidth_ends (f : Bool) (q hb : Word) : Ends (.nwidth f q hb) s (execNwidth f q hb s) := by
  unfold execNwidth; dsimp only; split
  · exact .raised _
  · split
    · exact .raised _
    · exact .done _ (by constructor <;> simp [Instr.op])

theorem execPacka_ends (x idx : Word) : Ends (.packa x idx) s (execPacka x idx s) := by
  unfold execPacka; split
  · exact .raised _
  · exact .done _ (by constructor <;> simp [Instr.op])

theorem execPackb_ends (d w idx : Word) : Ends (.packb d w idx) s (execPackb d w idx s) := by
  unfold execPackb; split_ifs
  iterate 3 exact .raised _
  exact .done _ (by constructor <;> simp [Instr.op])

theorem execUnpacka_ends (idx : Word) : Ends (.unpacka idx) s (execUnpacka idx s) := by
  unfold execUnpacka; split
  · exact .raised _
  · split
    · exact .unwritten (by simp [Instr.op])
    · exact .done _ (by constructor <;> simp [Instr.op])

theorem execUnpackb_ends (idx w : Word) : Ends (.unpackb idx w) s (execUnpackb idx w s) := by
  unfold execUnpackb; split
  · exact .raised _
  · split
    · exact .raised _
    · split
      · exact .unwritten (by simp [Instr.op])
      · exact .done _ (by constructor <;> simp [Instr.op])

theorem execDflush_ends (c : Nat) : Ends (.dflush c) s (execDflush c s) := by
  unfold execDflush; split_ifs
  · exact .done _ (by constructor <;> simp [Instr.op])
  · exact .raised _
  · exact .done _ (by constructor <;> simp [Instr.op])

theorem execDenc_ends (c : Nat) (base n : Word) : Ends (.denc c base n) s (execDenc c base n s) := by
  unfold execDenc; split
  · exact .raised _
  · split
    · exact .raised _
    · split
      · exact .raised _
      · split
        · exact .unwritten (by simp [Instr.op])
        · exact .raised _
        · unfold encodeEnd; split
          · exact .tooLong c base n rfl
          · exact .done _ (by constructor <;> simp [Instr.op])

theorem execDdec_ends (c : Nat) (base n : Word) : Ends (.ddec c base n) s (execDdec c base n s) := by
  unfold execDdec; split
  · exact .raised _
  · split
    · exact .raised _
    · split
      · exact .raised _
      · generalize hr : decodeSyms s.bit s.bitLen n.toNat s.rptr.toNat _ = r
        cases r with
        | unwritten => exact .unwritten (by simp [Instr.op])
        | fatal k => exact .fatal c base n k rfl (decodeLoop_fatal hr)
        | done t => exact .done _ (by constructor <;> simp [Instr.op])

theorem execDbackup_ends (c : Nat) : Ends (.dbackup c) s (execDbackup c s) := by
  unfold execDbackup; split
  · exact .raised _
  · split
    · exact .raised _
    · exact .done _ (by constructor <;> simp [Instr.op])

theorem execDresume_ends (c : Nat) : Ends (.dresume c) s (execDresume c s) := by
  unfold execDresume; split
  · exact .raised _
  · split
    · exact .raised _
    · exact .done _ (by constructor <;> simp [Instr.op])

theorem execDstat_ends (c : Nat) : Ends (.dstat c) s (execDstat c s) := by
  unfold execDstat; split
  · exact .raised _
  · split <;> exact .done _ (by constructor <;> simp [Instr.op])

theorem execBwr_ends (n : Nat) (v : Word) : Ends (.bwr n v) s (execBwr n v s) := by
  unfold execBwr; split
  · exact .raised _
  · split
    · exact .raised _
    · exact .done _ (by constructor <;> simp [Instr.op])

theorem execBrd_ends (n : Nat) : Ends (.brd n) s (execBrd n s) := by
  unfold execBrd; split
  · exact .raised _
  · split
    · exact .raised _
    · split
      · exact .unwritten (by simp [Instr.op])
      · exact .done _ (by constructor <;> simp [Instr.op])

theorem execBalignw_ends : Ends .balignw s (execBalignw s) := by
  unfold execBalignw; dsimp only; split
  · exact .raised _
  · exact .done _ (by constructor <;> simp [Instr.op])

theorem execBalignr_ends : Ends .balignr s (execBalignr s) := by
  exact .done _ (by constructor <;> simp [Instr.op])

theorem execSetwp_ends (p : Word) : Ends (.setwp p) s (execSetwp p s) := by
  unfold execSetwp; split
  · exact .raised _
  · exact .done _ (by constructor <;> simp [Instr.op])

theorem execSetrp_ends (p : Word) : Ends (.setrp p) s (execSetrp p s) := by
  unfold execSetrp; split
  · exact .raised _
  · exact .done _ (by constructor <;> simp [Instr.op])

/-- Every command ends in one of the ways of `Ends`. -/
theorem exec_ends (i : Instr) : Ends i s (exec i s) := by
  cases i with
  | nop => exact execNop_ends s
  | fdec x => exact execFdec_ends s x
  | frec sg e m => exact execFrec_ends s sg e m
  | fmul a b => exact execFmul_ends s a b
  | fdiv x y => exact execFdiv_ends s x y
  | fpow2 sh => exact execFpow2_ends s sh
  | recon q sh a => exact execRecon_ends s q sh a
  | resid x y => exact execResid_ends s x y
  | unres y d => exact execUnres_ends s y d
  | nwidth f q hb => exact execNwidth_ends s f q hb
  | packa x idx => exact execPacka_ends s x idx
  | packb d w idx => exact execPackb_ends s d w idx
  | unpacka idx => exact execUnpacka_ends s idx
  | unpackb idx w => exact execUnpackb_ends s idx w
  | dflush c => exact execDflush_ends s c
  | denc c base n => exact execDenc_ends s c base n
  | ddec c base n => exact execDdec_ends s c base n
  | dbackup c => exact execDbackup_ends s c
  | dresume c => exact execDresume_ends s c
  | dstat c => exact execDstat_ends s c
  | bwr n v => exact execBwr_ends s n v
  | brd n => exact execBrd_ends s n
  | balignw => exact execBalignw_ends s
  | balignr => exact execBalignr_ends s
  | setwp p => exact execSetwp_ends s p
  | setrp p => exact execSetrp_ends s p

end Sys2Proof.Machine
end

