-- ==== Sys2Proof/Laws/Decode.lean ====
section
/-! SUPPORT. The spec lemmas of the encoding: the fields of a header word, the opcode map, and what decoding does when the
word stream grows. -/

namespace Sys2Proof

/-! ### Header fields (R70) -/

@[simp] theorem headerOpc_mkHeader (o c n : Nat) : headerOpc (mkHeader o c n) = o % 256 := by
  have h : (mkHeader o c n).extractLsb' 24 8 = BitVec.ofNat 8 o :=
    (BitVec.extractLsb'_append_eq_of_le (by decide)).trans
      ((BitVec.extractLsb'_append_eq_of_le (by decide)).trans BitVec.extractLsb'_append_eq_left)
  simp [headerOpc, h]

@[simp] theorem headerCh_mkHeader (o c n : Nat) : headerCh (mkHeader o c n) = c % 256 := by
  have h : (mkHeader o c n).extractLsb' 16 8 = BitVec.ofNat 8 c :=
    (BitVec.extractLsb'_append_eq_of_le (by decide)).trans
      ((BitVec.extractLsb'_append_eq_of_le (by decide)).trans
        ((BitVec.extractLsb'_append_eq_of_add_le (by decide)).trans (by ext; simp)))
  simp [headerCh, h]

@[simp] theorem headerN_mkHeader (o c n : Nat) : headerN (mkHeader o c n) = n % 256 := by
  have h : (mkHeader o c n).extractLsb' 8 8 = BitVec.ofNat 8 n :=
    (BitVec.extractLsb'_append_eq_of_le (by decide)).trans
      ((BitVec.extractLsb'_append_eq_of_add_le (by decide)).trans (by ext; simp))
  simp [headerN, h]

/-- Masking a header masks each of its fields. -/
theorem mkHeader_and (o c n : Nat) (mo mc mn ml : BitVec 8) :
    mkHeader o c n &&& (mo ++ mc ++ mn ++ ml : Word) =
      ((BitVec.ofNat 8 o &&& mo) ++ (BitVec.ofNat 8 c &&& mc) ++ (BitVec.ofNat 8 n &&& mn) ++ (0#8 &&& ml) : Word) :=
  BitVec.and_append.trans (congrArg (· ++ _) (BitVec.and_append.trans (congrArg (· ++ _) BitVec.and_append)))

/-! ### The opcode map (R73) -/

/-- Each row's OPC value is its own. -/
@[simp] theorem Op.ofCode_code (o : Op) : Op.ofCode o.code = some o := by cases o <;> decide

theorem Op.code_lt (o : Op) : o.code < 256 := by cases o <;> decide

/-- A value that names a row is that row's OPC value; any other is reserved (R75). -/
theorem Op.code_of_ofCode {n : Nat} {o : Op} (h : Op.ofCode n = some o) : o.code = n := by
  simpa using List.find?_some h

theorem headerOp_eq_some {h : Word} {o : Op} :
    headerOp h = some o ↔ headerOpc h = o.code ∧ h &&& o.format.zeroMask = 0#32 := by
  unfold headerOp
  constructor
  · intro e
    split at e
    · cases e
    · next o' ho =>
      split_ifs at e with hz
      cases e
      exact ⟨(Op.code_of_ofCode ho).symm, hz⟩
  · rintro ⟨e, hz⟩
    simp [e, hz]

/-! ### Decoding a longer stream (R72) -/

theorem decode_cons (h : Word) (ops : List Word) :
    decode (h :: ops) = match headerOp h with
      | none => .illegal h
      | some o => decodeOperands o h ops := rfl

/-- Everything reading the operands can do: it takes as many words as the format has, or waits for them. -/
theorem decodeOperands_cases (o : Op) (h : Word) (ops : List Word) :
    (decodeOperands o h ops = .incomplete ∧ ops.length < o.format.operandWords) ∨
      ∃ i used rest, ops = used ++ rest ∧ used.length = o.format.operandWords ∧
        ∀ more, decodeOperands o h (used ++ more) = .ok i more := by
  cases o
  case nop | dflush | dbackup | dresume | dstat | brd | balignw | balignr =>
    exact .inr ⟨_, [], ops, rfl, rfl, fun _ => rfl⟩
  case fdec | fpow2 | unpacka | bwr | setwp | setrp =>
    match ops with
    | [] => exact .inl ⟨rfl, by simp [Op.format, Format.operandWords]⟩
    | a :: rest => exact .inr ⟨_, [a], rest, rfl, rfl, fun _ => rfl⟩
  case fmul | fdiv | resid | unres | nwidth | packa | unpackb | denc | ddec =>
    match ops with
    | [] => exact .inl ⟨rfl, by simp [Op.format, Format.operandWords]⟩
    | [_] => exact .inl ⟨rfl, by simp [Op.format, Format.operandWords]⟩
    | a :: b :: rest => exact .inr ⟨_, [a, b], rest, rfl, rfl, fun _ => rfl⟩
  case frec | recon | packb =>
    match ops with
    | [] => exact .inl ⟨rfl, by simp [Op.format, Format.operandWords]⟩
    | [_] => exact .inl ⟨rfl, by simp [Op.format, Format.operandWords]⟩
    | [_, _] => exact .inl ⟨rfl, by simp [Op.format, Format.operandWords]⟩
    | a :: b :: c :: rest => exact .inr ⟨_, [a, b, c], rest, rfl, rfl, fun _ => rfl⟩

/-- A whole command is a prefix of the stream, and decodes the same whatever follows it. -/
theorem decode_ok_prefix {ws rest : List Word} {i : Instr} (h : decode ws = .ok i rest) :
    ∃ used, used ≠ [] ∧ ws = used ++ rest ∧ ∀ more, decode (used ++ more) = .ok i more := by
  match ws with
  | [] => cases h
  | hd :: ops =>
    rw [decode_cons] at h
    split at h
    · cases h
    · next o ho =>
      obtain ⟨e, -⟩ | ⟨j, used, r, e, -, he⟩ := decodeOperands_cases o hd ops
      · rw [e] at h; cases h
      · rw [e, he] at h
        cases h
        refine ⟨hd :: used, by simp, by simp [e], fun more => ?_⟩
        rw [List.cons_append, decode_cons, ho]
        exact he more

/-- An illegal header is rejected whatever follows it. -/
theorem decode_illegal_append {ws : List Word} {hd : Word} (h : decode ws = .illegal hd) (more : List Word) :
    decode (ws ++ more) = .illegal hd := by
  match ws with
  | [] => cases h
  | x :: ops =>
    rw [decode_cons] at h
    rw [List.cons_append, decode_cons]
    split at h
    · simpa using h
    · next o ho =>
      obtain ⟨e, -⟩ | ⟨j, used, r, e, -, he⟩ := decodeOperands_cases o x ops
      · rw [e] at h; cases h
      · rw [e, he] at h; cases h

/-- If a stream whose front is no whole command becomes one with words appended, the rest is made of appended words. -/
theorem decode_ok_of_incomplete {ws more rest : List Word} {i : Instr} (h : decode ws = .incomplete)
    (h' : decode (ws ++ more) = .ok i rest) : ∃ taken, more = taken ++ rest := by
  obtain ⟨used, -, e, hu⟩ := decode_ok_prefix h'
  rcases List.append_eq_append_iff.1 e with ⟨x, rfl, rfl⟩ | ⟨x, rfl, rfl⟩
  · exact ⟨x, rfl⟩
  · rw [hu] at h; cases h

end Sys2Proof
end

