-- ==== Sys2Proof/Laws/Memory.lean ====
section
/-! SUPPORT. The laws of a memory: read after write, and every operation keeps the canonical form. -/

namespace Sys2Proof.Machine

variable {α : Type}

@[simp] theorem Memory.read_nil (k : Nat) : Memory.read ([] : Memory α) k = none := rfl

theorem Memory.read_cons (c : Nat × α) (m : Memory α) (k : Nat) :
    Memory.read (c :: m) k = if c.1 = k then some c.2 else m.read k := rfl

@[simp] theorem Memory.read_write_same (m : Memory α) (k : Nat) (v : α) : (m.write k v).read k = some v := by
  induction m with
  | nil => simp [Memory.write, Memory.read]
  | cons c m ih =>
    simp only [Memory.write]
    split_ifs with h1 h2
    · simp [Memory.read]
    · simp [Memory.read]
    · have : c.1 ≠ k := fun h => h2 h.symm
      simp [Memory.read, this, ih]

theorem Memory.read_write_other (m : Memory α) {k a : Nat} (v : α) (h : a ≠ k) : (m.write k v).read a = m.read a := by
  have hk : k ≠ a := fun e => h e.symm
  induction m with
  | nil => simp [Memory.write, Memory.read, hk]
  | cons c m ih =>
    simp only [Memory.write]
    split_ifs with h1 h2
    · simp [Memory.read, hk]
    · subst h2; simp [Memory.read, hk]
    · simp [Memory.read, ih]

theorem Memory.read_write (m : Memory α) (k a : Nat) (v : α) :
    (m.write k v).read a = if a = k then some v else m.read a := by
  by_cases h : a = k
  · subst h; simp
  · simp [Memory.read_write_other m v h, h]

theorem Memory.mem_write (m : Memory α) (k : Nat) (v : α) {c : Nat × α} (h : c ∈ m.write k v) : c = (k, v) ∨ c ∈ m := by
  induction m with
  | nil => simpa [Memory.write] using h
  | cons d m ih =>
    simp only [Memory.write] at h
    split_ifs at h with h1 h2
    · simpa using h
    · rcases List.mem_cons.1 h with h | h
      · exact .inl h
      · exact .inr (List.mem_cons_of_mem _ h)
    · rcases List.mem_cons.1 h with h | h
      · exact .inr (h ▸ List.mem_cons_self ..)
      · exact (ih h).imp id (List.mem_cons_of_mem _)

theorem Memory.wf_nil : Memory.wf ([] : Memory α) := List.Pairwise.nil

theorem Memory.wf_write {m : Memory α} (h : m.wf) (k : Nat) (v : α) : (m.write k v).wf := by
  induction m with
  | nil => simp [Memory.write, Memory.wf]
  | cons d m ih =>
    obtain ⟨hd, hm⟩ := List.pairwise_cons.1 h
    simp only [Memory.write]
    split_ifs with h1 h2
    · refine List.pairwise_cons.2 ⟨fun c hc => ?_, h⟩
      rcases List.mem_cons.1 hc with e | e
      · subst e; exact h1
      · exact lt_trans h1 (hd c e)
    · exact List.pairwise_cons.2 ⟨fun c hc => h2 ▸ hd c hc, hm⟩
    · refine List.pairwise_cons.2 ⟨fun c hc => ?_, ih hm⟩
      rcases Memory.mem_write m k v hc with e | e
      · subst e; simp only; omega
      · exact hd c e

theorem Memory.mem_of_read {m : Memory α} {k : Nat} {v : α} (h : m.read k = some v) : (k, v) ∈ m := by
  induction m with
  | nil => simp at h
  | cons c m ih =>
    rw [Memory.read_cons] at h
    split_ifs at h with e
    · obtain ⟨a, b⟩ := c
      simp only [Option.some.injEq] at h
      simp_all
    · exact List.mem_cons_of_mem _ (ih h)

theorem Memory.read_of_mem {m : Memory α} (hm : m.wf) {k : Nat} {v : α} (h : (k, v) ∈ m) : m.read k = some v := by
  induction m with
  | nil => simp at h
  | cons c m ih =>
    obtain ⟨hd, hm'⟩ := List.pairwise_cons.1 hm
    rw [Memory.read_cons]
    rcases List.mem_cons.1 h with e | e
    · subst e; simp
    · have : c.1 ≠ k := by have := hd _ e; simp only at this; omega
      simp [this, ih hm' e]

/-! ### Runs of addresses -/

theorem Memory.wf_writeList {m : Memory α} (h : m.wf) (k : Nat) (vs : List α) : (m.writeList k vs).wf := by
  induction vs generalizing m k with
  | nil => exact h
  | cons v vs ih => exact ih (Memory.wf_write h k v) (k + 1)

theorem Memory.read_writeList (m : Memory α) (k : Nat) (vs : List α) (a : Nat) :
    (m.writeList k vs).read a = if k ≤ a ∧ a < k + vs.length then vs[a - k]? else m.read a := by
  induction vs generalizing m k with
  | nil => simp [Memory.writeList]
  | cons v vs ih =>
    rw [Memory.writeList, ih, Memory.read_write]
    by_cases h1 : k + 1 ≤ a ∧ a < k + 1 + vs.length
    · have h2 : k ≤ a ∧ a < k + (v :: vs).length := by simp only [List.length_cons]; omega
      have h3 : a - k = (a - (k + 1)) + 1 := by omega
      simp only [h1, h2, h3, and_self, if_true, List.getElem?_cons_succ]
    · by_cases h2 : a = k
      · subst h2; simp
      · have h3 : ¬ (k ≤ a ∧ a < k + (v :: vs).length) := by simp only [List.length_cons]; omega
        simp only [if_neg h1, if_neg h2, if_neg h3]

theorem Memory.mem_writeList {m : Memory α} {k : Nat} {vs : List α} {c : Nat × α} (h : c ∈ m.writeList k vs) :
    c ∈ m ∨ (k ≤ c.1 ∧ c.1 < k + vs.length) := by
  induction vs generalizing m k with
  | nil => exact .inl h
  | cons v vs ih =>
    rcases ih h with h | h
    · rcases Memory.mem_write m k v h with e | e
      · subst e; exact .inr (by simp)
      · exact .inl e
    · exact .inr (by simp only [List.length_cons]; omega)

theorem Memory.length_readList {m : Memory α} {k n : Nat} {vs : List α} (h : m.readList k n = some vs) :
    vs.length = n := by
  induction n generalizing k vs with
  | zero => simp [Memory.readList] at h; simp [h]
  | succ n ih =>
    simp only [Memory.readList] at h
    split at h
    · cases h
    · obtain ⟨ws, hw, rfl⟩ := Option.map_eq_some_iff.1 h
      simp [ih hw]

theorem Memory.readList_eq_some {m : Memory α} {k n : Nat} {vs : List α} :
    m.readList k n = some vs ↔ vs.length = n ∧ ∀ j, j < n → m.read (k + j) = vs[j]? := by
  induction n generalizing k vs with
  | zero =>
    cases vs <;> simp [Memory.readList]
  | succ n ih =>
    simp only [Memory.readList]
    cases hr : m.read k with
    | none =>
      constructor
      · intro h; simp at h
      · rintro ⟨hl, h⟩
        have h0 := h 0 (by omega)
        cases vs with
        | nil => simp at hl
        | cons v vs => simp [hr] at h0
    | some v =>
      simp only [Option.map_eq_some_iff, ih]
      constructor
      · rintro ⟨ws, ⟨hl, hw⟩, rfl⟩
        refine ⟨by simp [hl], fun j hj => ?_⟩
        cases j with
        | zero => simp [hr]
        | succ j =>
          have := hw j (by omega)
          rw [Nat.add_right_comm, Nat.add_assoc] at this
          simpa using this
      · rintro ⟨hl, h⟩
        cases vs with
        | nil => simp at hl
        | cons w ws =>
          have h0 := h 0 (by omega)
          simp only [Nat.add_zero, hr, List.getElem?_cons_zero, Option.some.injEq] at h0
          refine ⟨ws, ⟨by simpa using hl, fun j hj => ?_⟩, by rw [h0]⟩
          have := h (j + 1) (by omega)
          rw [Nat.add_right_comm, Nat.add_assoc]
          simpa using this

theorem Memory.readList_writeList (m : Memory α) (k : Nat) (vs : List α) :
    (m.writeList k vs).readList k vs.length = some vs := by
  refine Memory.readList_eq_some.2 ⟨rfl, fun j hj => ?_⟩
  rw [Memory.read_writeList, if_pos (by omega)]
  congr 1; omega

/-! ### Erasing -/

theorem Memory.wf_eraseRange {m : Memory α} (h : m.wf) (k n : Nat) : (m.eraseRange k n).wf := List.Pairwise.filter _ h

theorem Memory.wf_eraseFrom {m : Memory α} (h : m.wf) (k : Nat) : (m.eraseFrom k).wf := List.Pairwise.filter _ h

theorem Memory.read_filter (m : Memory α) (p : Nat → Bool) (a : Nat) :
    Memory.read (m.filter fun c => p c.1) a = if p a then m.read a else none := by
  induction m with
  | nil => simp
  | cons c m ih =>
    by_cases hc : p c.1
    · simp only [List.filter_cons, hc, if_true, Memory.read_cons, ih]
      by_cases e : c.1 = a
      · subst e; simp [hc]
      · simp [e]
    · simp only [List.filter_cons, hc, if_false, Bool.false_eq_true, Memory.read_cons, ih]
      by_cases e : c.1 = a
      · subst e; simp [hc]
      · simp [e]

theorem Memory.read_eraseRange (m : Memory α) (k n a : Nat) :
    (m.eraseRange k n).read a = if a < k ∨ k + n ≤ a then m.read a else none := by
  have := Memory.read_filter m (fun a => decide (a < k) || decide (k + n ≤ a)) a
  simpa [Memory.eraseRange] using this

theorem Memory.read_eraseFrom (m : Memory α) (k a : Nat) :
    (m.eraseFrom k).read a = if a < k then m.read a else none := by
  have := Memory.read_filter m (fun a => decide (a < k)) a
  simpa [Memory.eraseFrom] using this

theorem Memory.mem_eraseRange {m : Memory α} {k n : Nat} {c : Nat × α} (h : c ∈ m.eraseRange k n) : c ∈ m :=
  List.mem_of_mem_filter h

theorem Memory.mem_eraseFrom {m : Memory α} {k : Nat} {c : Nat × α} (h : c ∈ m.eraseFrom k) : c ∈ m :=
  List.mem_of_mem_filter h

/-- Two memories in canonical form with the same contents are equal data. -/
theorem Memory.ext_of_wf {m n : Memory α} (hm : m.wf) (hn : n.wf) (h : ∀ a, Memory.read m a = Memory.read n a) : m = n := by
  induction m generalizing n with
  | nil =>
    cases n with
    | nil => rfl
    | cons d n => have := h d.1; simp [Memory.read_cons] at this
  | cons c m ih =>
    cases n with
    | nil => have := h c.1; simp [Memory.read_cons] at this
    | cons d n =>
      obtain ⟨hc, hm'⟩ := List.pairwise_cons.1 hm
      obtain ⟨hd, hn'⟩ := List.pairwise_cons.1 hn
      have key : c.1 = d.1 := by
        rcases lt_trichotomy c.1 d.1 with g | g | g
        · have h1 := h c.1
          rw [Memory.read_cons, Memory.read_cons, if_pos rfl, if_neg (by omega)] at h1
          have := hd _ (Memory.mem_of_read h1.symm)
          simp only at this; omega
        · exact g
        · have h1 := h d.1
          rw [Memory.read_cons, Memory.read_cons, if_pos rfl, if_neg (by omega)] at h1
          have := hc _ (Memory.mem_of_read h1)
          simp only at this; omega
      have val : c.2 = d.2 := by
        have h1 := h c.1
        rw [Memory.read_cons, Memory.read_cons, if_pos rfl, if_pos key.symm] at h1
        exact Option.some.inj h1
      have tail : m = n := by
        refine ih hm' hn' fun a => ?_
        have h1 := h a
        rw [Memory.read_cons, Memory.read_cons, ← key, ← val] at h1
        by_cases e : c.1 = a
        · have r1 : Memory.read m a = none := by
            cases hr : Memory.read m a with
            | none => rfl
            | some v => have := hc _ (Memory.mem_of_read hr); simp only at this; omega
          have r2 : Memory.read n a = none := by
            cases hr : Memory.read n a with
            | none => rfl
            | some v => have := hd _ (Memory.mem_of_read hr); simp only at this; omega
          rw [r1, r2]
        · simpa [e] using h1
      rw [tail, Prod.ext key val]

end Sys2Proof.Machine
end

