-- ==== Sys2Proof/Laws/Engine.lean ====
section
/-! SUPPORT. What the operations around `exec` can do, said once: a step, command assembly, the turns, the host's window,
reset. -/

namespace Sys2Proof.Machine

/-! ### A step -/

theorem step_eq (s : State) : step s = nextTurn s := rfl

theorem step_of_turn {s : State} {t : Turn} {ts : List Turn} (h : s.agenda = t :: ts) :
    step s = takeTurn t { s with agenda := ts } := by
  rw [step_eq, nextTurn, h]

theorem step_of_no_turn {s : State} (h : s.agenda = []) : step s = engineRun s := by
  rw [step_eq, nextTurn, h]

theorem engineRun_of_running {s : State} {i : Instr} (h : s.running = some i) :
    engineRun s = exec i { s with running := none } := by
  rw [engineRun, h]

theorem engineRun_of_not_running {s : State} (h : s.running = none) : engineRun s = assemble exec s := by
  rw [engineRun, h]

theorem engineBegin_of_running {s : State} {i : Instr} (h : s.running = some i) : engineBegin s = .next s := by
  rw [engineBegin, h]

theorem engineBegin_of_not_running {s : State} (h : s.running = none) :
    engineBegin s = assemble (fun i t => .next { t with running := some i }) s := by
  rw [engineBegin, h]

/-- Everything command assembly can do (R72, R226). -/
theorem assemble_cases (k : Instr → State → Result) (s : State) :
    (s.err.isSome ∧ assemble k s = .next s) ∨
      (s.err = none ∧ fetch s = .incomplete ∧ assemble k s = .next s.waitWords) ∨
      (s.err = none ∧ ∃ h, fetch s = .illegal h ∧ assemble k s = .next (s.takeException .illegalCmd h)) ∨
      (s.err = none ∧ ∃ i rest, fetch s = .ok i rest ∧ assemble k s = k i (s.takeWords rest)) := by
  cases he : s.err with
  | some c => exact .inl ⟨rfl, by simp [assemble, he]⟩
  | none =>
    cases hf : fetch s with
    | ok i rest => exact .inr (.inr (.inr ⟨rfl, i, rest, rfl, by simp [assemble, he, hf]⟩))
    | incomplete => exact .inr (.inl ⟨rfl, rfl, by simp [assemble, he, hf]⟩)
    | illegal h => exact .inr (.inr (.inl ⟨rfl, h, rfl, by simp [assemble, he, hf, illegalHeader]⟩))

/-! ### Idle -/

theorem idle_iff (s : State) : s.idle = true ↔ s.running = none ∧ s.assembler = [] ∧ s.fifo = [] := by
  simp [State.idle, and_assoc]

/-! ### The host's window -/

/-- Everything the address check of a host turn can do (R20, R52). -/
theorem withTarget_cases (s : State) (addr : Nat) (k : Target → Result) :
    (addr % 4 ≠ 0 ∧ withTarget s addr k = .fault .hostMisaligned) ∨
      (addr % 4 = 0 ∧ (addr < s.params.base ∨ s.params.base + 2 ^ 21 ≤ addr) ∧
        withTarget s addr k = .fault .hostOutsideWindow) ∨
      (addr % 4 = 0 ∧ s.params.base ≤ addr ∧ addr < s.params.base + 2 ^ 21 ∧
        withTarget s addr k = k (targetAt s.params (addr - s.params.base))) := by
  unfold withTarget
  split_ifs with h1 h2
  · exact .inl ⟨h1, rfl⟩
  · exact .inr (.inl ⟨not_not.1 h1, h2, rfl⟩)
  · exact .inr (.inr ⟨not_not.1 h1, by omega, by omega, rfl⟩)

/-- A host turn inside the window reaches what its offset names. -/
theorem withTarget_offset {s : State} (hp : s.params.valid) {off : Nat} (h4 : off % 4 = 0) (h : off < 2 ^ 21)
    (k : Target → Result) : withTarget s (s.params.base + off) k = k (targetAt s.params off) := by
  have hb : s.params.base % 4 = 0 := by
    have := hp.2.2.2.2
    omega
  obtain ⟨e, -⟩ | ⟨-, e, -⟩ | ⟨-, -, -, e⟩ := withTarget_cases s (s.params.base + off) k
  · omega
  · omega
  · rw [e, Nat.add_sub_cancel_left]

theorem storeIdle_idle {s : State} (h : s.idle = true) (s' : State) : storeIdle s s' = .next s' := by
  simp [storeIdle, h]

theorem storeIdle_busy {s : State} (h : s.idle = false) (s' : State) : storeIdle s s' = .fault .hostWriteBusy := by
  simp [storeIdle, h]

/-- Everything a write to CMD can do (R27, R222). -/
theorem pushCommand_cases (s : State) (v : Word) :
    (s.err.isSome ∧ s.pushCommand v = s) ∨
      (s.err = none ∧ s.params.fifoDepth ≤ s.fifo.length ∧ s.pushCommand v = s.takeException .fifoOverflow v) ∨
      (s.err = none ∧ s.fifo.length < s.params.fifoDepth ∧ s.pushCommand v = { s with fifo := s.fifo ++ [v] }) := by
  unfold State.pushCommand
  split_ifs with h1 h2
  · exact .inl ⟨h1, rfl⟩
  · exact .inr (.inl ⟨by simpa using h1, by simpa [State.full] using h2, rfl⟩)
  · exact .inr (.inr ⟨by simpa using h1, by simpa [State.full] using h2, rfl⟩)

/-- Everything a write to CTRL can do (R23, R230, R250). -/
theorem writeCtrl_cases (s : State) (v : Word) :
    (v.getLsbD 9 = true ∧ s.writeCtrl v = s.softReset) ∨
      (v.getLsbD 9 = false ∧ v.getLsbD 8 = true ∧
        s.writeCtrl v = { s with err := none, ieErr := v.getLsbD 0, ieIdle := v.getLsbD 1 }) ∨
      (v.getLsbD 9 = false ∧ v.getLsbD 8 = false ∧
        s.writeCtrl v = { s with ieErr := v.getLsbD 0, ieIdle := v.getLsbD 1 }) := by
  unfold State.writeCtrl
  cases h9 : v.getLsbD 9 <;> cases h8 : v.getLsbD 8 <;> simp [State.clearError]

/-! ### Reset -/

/-- A soft reset keeps the memories or makes them unwritten, and does the rest of a reset either way (R250). -/
theorem softReset_cases (s : State) :
    (s.idle = true ∧ s.softReset = s.afterReset s.sym s.bit) ∨ (s.idle = false ∧ s.softReset = s.afterReset [] []) := by
  unfold State.softReset
  cases h : s.idle <;> simp

/-- The memories of a reset state are in canonical form. -/
theorem initial_memories_wf (p : Params) : (State.initial p).sym.wf ∧ (State.initial p).bit.wf :=
  ⟨Memory.wf_nil, Memory.wf_nil⟩

theorem reset_memories_wf : State.reset.sym.wf ∧ State.reset.bit.wf := initial_memories_wf Params.standard

end Sys2Proof.Machine
end

