-- ==== Sys2Proof/Laws/Mdc.lean ====
section
/-! SUPPORT. The spec lemmas of the MDC's shared operations: entry creation, growth, the search, reading symbols, one code
of the decoder, and that a dictionary keeps R32's invariants under them. -/

namespace Sys2Proof.Machine

/-! ### Dictionaries -/

theorem Dict.records_fresh : Dict.fresh.Records where
  ent_wf := Memory.wf_nil
  first_le_next := by decide
  w_lower := by decide
  w_upper := by decide
  record_iff k := by simp [Dict.fresh, Config.firstCode]
  record k e h := by simp [Dict.fresh] at h

/-- The flushed dictionary has R32's invariants. -/
theorem Dict.inv_fresh : Dict.fresh.Inv := ⟨Dict.records_fresh, by decide⟩

/-- `len` of a code is the record's length, else 1 (R160). -/
theorem Dict.codeLen_of_record {d : Dict} {v : Nat} {e : Entry} (h : d.ent.read v = some e) : d.codeLen v = e.len := by
  rw [Dict.codeLen, h]

@[simp] theorem Dict.create_next (d : Dict) (p : Nat) (b : Byte) : (d.create p b).next = d.next + 1 := rfl
@[simp] theorem Dict.create_w (d : Dict) (p : Nat) (b : Byte) : (d.create p b).w = d.w := rfl
@[simp] theorem Dict.create_frz (d : Dict) (p : Nat) (b : Byte) : (d.create p b).frz = d.frz := rfl

/-- `create` makes one record, at NEXT (R163). -/
theorem Dict.create_read (d : Dict) (p : Nat) (b : Byte) (k : Nat) :
    (d.create p b).ent.read k =
      if k = d.next then some { parent := p, sym := b, len := d.codeLen p + 1 } else d.ent.read k :=
  Memory.read_write ..

/-- A code below NEXT has the same length after `create`. -/
theorem Dict.create_codeLen (d : Dict) (p : Nat) (b : Byte) {v : Nat} (h : v ≠ d.next) :
    (d.create p b).codeLen v = d.codeLen v := by
  simp [Dict.codeLen, Dict.create_read, h]

/-- `create` of a child of a literal or of a recorded code keeps what R32 says of the entries. -/
theorem Dict.records_create {d : Dict} (h : d.Records) {p : Nat} (b : Byte) (hp : p < 256 ∨ (d.ent.read p).isSome) :
    (d.create p b).Records where
  ent_wf := Memory.wf_write h.ent_wf ..
  first_le_next := Nat.le_succ_of_le h.first_le_next
  w_lower := h.w_lower
  w_upper := h.w_upper
  record_iff k := by
    have := h.record_iff k
    have := h.first_le_next
    simp only [Dict.create_read, Dict.create_next]
    split_ifs with e
    · simp; omega
    · rw [h.record_iff k]; omega
  record k e hk := by
    have hf := h.first_le_next
    have hlt : p < d.next := by
      rcases hp with hp | hp
      · simp only [Config.firstCode] at hf; omega
      · exact ((h.record_iff p).1 hp).2
    have keep : ∀ v, v < d.next → (d.create p b).codeLen v = d.codeLen v := fun v hv =>
      Dict.create_codeLen d p b (Nat.ne_of_lt hv)
    rw [Dict.create_read] at hk
    split_ifs at hk with e1
    · cases hk
      refine ⟨e1 ▸ hlt, hp.imp_right fun hs => ?_, ?_⟩
      · rw [Dict.create_read, if_neg (Nat.ne_of_lt hlt)]; exact hs
      · rw [keep p hlt, Nat.add_comm]
    · obtain ⟨h1, h2, h3⟩ := h.record k e hk
      have hkn : k < d.next := ((h.record_iff k).1 (by rw [hk]; rfl)).2
      have hpn := Nat.lt_trans h1 hkn
      refine ⟨h1, h2.imp_right fun hs => ?_, ?_⟩
      · rw [Dict.create_read, if_neg (Nat.ne_of_lt hpn)]; exact hs
      · rw [keep _ hpn]; exact h3

/-- `create` below the BUMP code keeps R32's invariants. -/
theorem Dict.inv_create {d : Dict} (h : d.Inv) {p : Nat} (b : Byte) (hp : p < 256 ∨ (d.ent.read p).isSome)
    (hn : d.next < d.bumpCode) : (d.create p b).Inv :=
  ⟨Dict.records_create h.toRecords b hp, hn⟩

/-- Everything the growth rule can do (R169). -/
theorem Dict.grow_cases (d : Dict) :
    (d.next ≠ d.bumpCode ∧ d.grow = ([], d)) ∨
      (d.next = d.bumpCode ∧ d.w < Config.codeBitsMax ∧ d.grow = (d.emit d.bumpCode, { d with w := d.w + 1 })) ∨
      (d.next = d.bumpCode ∧ Config.codeBitsMax ≤ d.w ∧ d.grow = (d.emit Config.flushCode, Dict.fresh)) := by
  unfold Dict.grow
  split_ifs with h1 h2
  · exact .inr (.inl ⟨h1, h2, rfl⟩)
  · exact .inr (.inr ⟨h1, Nat.le_of_not_lt h2, rfl⟩)
  · exact .inl ⟨h1, rfl⟩

/-- Everything the encoder can do between two codes, from `NEXT ≤ 2^W - 1` (R169, R170): no entry when FRZ = 1; an entry and
no control code while NEXT stays below the BUMP code; else an entry with BUMP, or FLUSH. -/
theorem Dict.learn_cases {d : Dict} (hn : d.next ≤ d.bumpCode) (hw : 1 ≤ d.w) (code : Nat) (b : Byte) :
    (d.frz = true ∧ d.learn code b = ([], d)) ∨
      (d.frz = false ∧ d.next + 1 < d.bumpCode ∧ d.learn code b = ([], d.create code b)) ∨
      (d.frz = false ∧ d.bumpCode ≤ d.next + 1 ∧ d.w < Config.codeBitsMax ∧
        d.learn code b = (d.emit d.bumpCode, { d.create code b with w := d.w + 1 })) ∨
      (d.frz = false ∧ d.bumpCode ≤ d.next + 1 ∧ Config.codeBitsMax ≤ d.w ∧
        d.learn code b = (d.emit Config.flushCode, Dict.fresh)) := by
  have bump : (d.create code b).bumpCode = d.bumpCode := rfl
  unfold Dict.learn
  cases hf : d.frz with
  | true => exact .inl ⟨rfl, rfl⟩
  | false =>
    rw [if_neg (by decide)]
    split_ifs with he
    · obtain ⟨h, -⟩ | ⟨-, h, e⟩ | ⟨-, h, e⟩ := d.grow_cases
      · exact absurd he h
      · have wider : d.grow.2.createAndGrow code b = ([], { d.create code b with w := d.w + 1 }) := by
          rw [e]
          obtain ⟨-, e'⟩ | ⟨h', -⟩ | ⟨h', -⟩ := Dict.grow_cases (({ d with w := d.w + 1 } : Dict).create code b)
          · exact e'
          · simp only [Dict.bumpCode, Dict.create_next, Dict.create_w, Nat.pow_succ] at h' he
            have := Nat.le_self_pow (show d.w ≠ 0 by omega) 2
            omega
          · simp only [Dict.bumpCode, Dict.create_next, Dict.create_w, Nat.pow_succ] at h' he
            have := Nat.le_self_pow (show d.w ≠ 0 by omega) 2
            omega
        exact .inr (.inr (.inl ⟨rfl, by omega, h, by rw [Dict.learnFull, if_pos h, wider, e]; exact congrArg (·, _) (List.append_nil _)⟩))
      · exact .inr (.inr (.inr ⟨rfl, by omega, h, by rw [Dict.learnFull, if_neg (by omega), e]⟩))
    · obtain ⟨h, e⟩ | ⟨h, hw', e⟩ | ⟨h, hw', e⟩ := Dict.grow_cases (d.create code b) <;>
        simp only [bump, Dict.create_next] at h
      · exact .inr (.inl ⟨rfl, by omega, e⟩)
      · exact .inr (.inr (.inl ⟨rfl, by omega, hw', e⟩))
      · exact .inr (.inr (.inr ⟨rfl, by omega, hw', e⟩))

/-- A wider code width keeps what R32 says of the entries. -/
theorem Dict.records_widen {d : Dict} (h : d.Records) (hw : d.w < Config.codeBitsMax) :
    ({ d with w := d.w + 1 } : Dict).Records :=
  ⟨h.ent_wf, h.first_le_next, Nat.le_succ_of_le h.w_lower, hw, h.record_iff, h.record⟩

/-- A wider code width keeps R32's invariants. -/
theorem Dict.inv_widen {d : Dict} (h : d.Inv) (hw : d.w < Config.codeBitsMax) : ({ d with w := d.w + 1 } : Dict).Inv :=
  ⟨Dict.records_widen h.toRecords hw, by
    have := h.next_le
    simp only [Nat.pow_succ]
    omega⟩

/-! ### The search (R168) -/

theorem mem_candidates {ent : Memory Entry} {node : Nat} {x : Sym} {k : Nat} (h : k ∈ candidates ent node x) :
    ∃ e, (k, e) ∈ ent ∧ e.parent = node ∧ topBits x.width.toNat e.sym = topBits x.width.toNat x.sym := by
  obtain ⟨c, hc, rfl⟩ := List.mem_map.1 (List.mem_of_mem_take h)
  obtain ⟨hm, hp⟩ := List.mem_filter.1 hc
  simp only [Bool.and_eq_true, beq_iff_eq] at hp
  exact ⟨c.2, hm, hp⟩

/-- The matching children of a node are listed in ascending order, before R168's bound on their number. -/
theorem mem_matching {ent : Memory Entry} (h : ent.wf) {node : Nat} {y : Sym} {k : Nat} :
    k ∈ ((ent.filter fun c => c.2.parent == node && topBits y.width.toNat c.2.sym == topBits y.width.toNat y.sym).map
      fun c => c.1) ↔ MatchingChild ent node y k := by
  simp only [List.mem_map, List.mem_filter, Bool.and_eq_true, beq_iff_eq, MatchingChild]
  constructor
  · rintro ⟨c, ⟨hc, hp, ht⟩, rfl⟩
    exact ⟨c.2, Memory.read_of_mem h hc, hp, ht⟩
  · rintro ⟨e, he, hp, ht⟩
    exact ⟨(k, e), ⟨Memory.mem_of_read he, hp, ht⟩, rfl⟩

/-- In an ascending list, the first four are those below which there are not four others. -/
theorem mem_take_four {l : List Nat} (h : l.Pairwise (· < ·)) {k : Nat} :
    k ∈ l.take 4 ↔ k ∈ l ∧ ¬ ∃ k0 k1 k2 k3, k0 < k1 ∧ k1 < k2 ∧ k2 < k3 ∧ k3 < k ∧ k0 ∈ l ∧ k1 ∈ l ∧ k2 ∈ l ∧ k3 ∈ l := by
  have lt_of_index : ∀ {i j : Nat} (hi : i < l.length) (hj : j < l.length), l[i] < l[j] → i < j := by
    intro i j hi hj hij
    by_contra hle
    rcases Nat.lt_or_eq_of_le (Nat.le_of_not_lt hle) with hlt | rfl
    · exact absurd (List.pairwise_iff_getElem.1 h j i hj hi hlt) (by omega)
    · omega
  constructor
  · intro hk
    refine ⟨List.mem_of_mem_take hk, ?_⟩
    rintro ⟨k0, k1, k2, k3, h01, h12, h23, h3, m0, m1, m2, m3⟩
    obtain ⟨i, hi, rfl⟩ := List.mem_take_iff_getElem.1 hk
    obtain ⟨i0, l0, rfl⟩ := List.mem_iff_getElem.1 m0
    obtain ⟨i1, l1, rfl⟩ := List.mem_iff_getElem.1 m1
    obtain ⟨i2, l2, rfl⟩ := List.mem_iff_getElem.1 m2
    obtain ⟨i3, l3, rfl⟩ := List.mem_iff_getElem.1 m3
    have := lt_of_index _ _ h01
    have := lt_of_index _ _ h12
    have := lt_of_index _ _ h23
    have := lt_of_index _ _ h3
    omega
  · rintro ⟨hk, hno⟩
    obtain ⟨i, hi, rfl⟩ := List.mem_iff_getElem.1 hk
    by_cases h4 : i < 4
    · exact List.mem_take_iff_getElem.2 ⟨i, by omega, rfl⟩
    · have lt := fun (a b : Nat) (ha : a < l.length) (hb : b < l.length) (hab : a < b) =>
        List.pairwise_iff_getElem.1 h a b ha hb hab
      exact absurd ⟨l[0], l[1], l[2], l[3], lt 0 1 (by omega) (by omega) (by omega), lt 1 2 (by omega) (by omega) (by omega),
        lt 2 3 (by omega) (by omega) (by omega), lt 3 i (by omega) hi (by omega), List.getElem_mem _, List.getElem_mem _,
        List.getElem_mem _, List.getElem_mem _⟩ hno

theorem matching_ascending {ent : Memory Entry} (h : ent.wf) (p : Nat × Entry → Bool) :
    ((ent.filter p).map fun c => c.1).Pairwise (· < ·) := List.pairwise_map.2 (List.Pairwise.filter _ h)

/-- The candidates of R168 are the explored children, in ascending order. -/
theorem mem_candidates_iff {ent : Memory Entry} (h : ent.wf) {node : Nat} {y : Sym} {k : Nat} :
    k ∈ candidates ent node y ↔ ExploredChild ent node y k := by
  rw [candidates, Config.candBound, mem_take_four (matching_ascending h _)]
  simp only [mem_matching h, ExploredChild]

theorem candidates_ascending {ent : Memory Entry} (h : ent.wf) (node : Nat) (y : Sym) :
    (candidates ent node y).Pairwise (· < ·) := (matching_ascending h _).sublist (List.take_sublist _ _)

/-- What the search establishes for the codes it visits, it establishes for the code it answers with: `P k n` is said of the
code `k` covering `n` symbols, and is handed down from a node to each candidate below it. -/
theorem explore_induct {ent : Memory Entry} (P : Nat → Nat → Prop) (xs : List Sym) (node depth : Nat) (best : Nat × Nat)
    (hn : P node depth) (hb : P best.1 best.2)
    (down : ∀ j x k n, xs[j]? = some x → n = depth + j → P k n → ∀ c ∈ candidates ent k x, P c (n + 1)) :
    P (explore ent xs node depth best).1 (explore ent xs node depth best).2 := by
  induction xs generalizing node depth best with
  | nil => exact hb
  | cons x xs ih =>
    have hc : ∀ c ∈ candidates ent node x, P c (depth + 1) := down 0 x node depth rfl rfl hn
    simp only [explore]
    generalize candidates ent node x = cs at hc
    induction cs generalizing best with
    | nil => exact hb
    | cons c cs ihc =>
      refine ihc _ ?_ fun k hk => hc k (List.mem_cons_of_mem _ hk)
      have hP := hc c List.mem_cons_self
      refine ih c (depth + 1) _ hP ?_ fun j y k n hj hn' => down (j + 1) y k n hj (by omega)
      split_ifs
      · exact hP
      · exact hb

/-- The code of a match is the literal of its first symbol or a recorded code, and covers at least one symbol and no more
than there are. -/
theorem longestMatch_bounds (ent : Memory Entry) (x : Sym) (xs : List Sym) :
    ((longestMatch ent x xs).1 = x.sym.toNat ∨ ∃ e, ((longestMatch ent x xs).1, e) ∈ ent) ∧
      1 ≤ (longestMatch ent x xs).2 ∧ (longestMatch ent x xs).2 ≤ xs.length + 1 := by
  refine explore_induct (fun k n => (k = x.sym.toNat ∨ ∃ e, (k, e) ∈ ent) ∧ 1 ≤ n ∧ n ≤ xs.length + 1) xs _ _ _
    ⟨.inl rfl, by omega⟩ ⟨.inl rfl, by simp⟩ fun j y k n hj hn _ c hc => ?_
  obtain ⟨e, he, -⟩ := mem_candidates hc
  have := (List.getElem?_eq_some_iff.1 hj).1
  exact ⟨.inr ⟨e, he⟩, by omega⟩

/-- What the encoder learns between two codes keeps R32's invariants; where it learns, NEXT is then below the BUMP code. -/
theorem Dict.inv_learn {d : Dict} (h : d.Inv) {code : Nat} (b : Byte) (hc : code < 256 ∨ (d.ent.read code).isSome) :
    (d.learn code b).2.Inv ∧ (d.frz = false → (d.learn code b).2.next < (d.learn code b).2.bumpCode) := by
  have hw : 9 ≤ d.w := h.w_lower
  have hn := h.next_le
  have hr := Dict.records_create h.toRecords b hc
  obtain ⟨hf, e⟩ | ⟨-, hl, e⟩ | ⟨-, -, hlt, e⟩ | ⟨-, -, -, e⟩ := Dict.learn_cases hn (by omega) code b <;> rw [e]
  · exact ⟨h, fun hf' => by rw [hf] at hf'; cases hf'⟩
  · exact ⟨⟨hr, Nat.le_of_lt hl⟩, fun _ => hl⟩
  · have hp := Nat.le_self_pow (show d.w ≠ 0 by omega) 2
    have lt : d.next + 1 < 2 ^ (d.w + 1) - 1 := by rw [Nat.pow_succ]; omega
    exact ⟨⟨Dict.records_widen hr hlt, Nat.le_of_lt lt⟩, fun _ => lt⟩
  · exact ⟨Dict.inv_fresh, fun _ => by change Dict.fresh.next < Dict.fresh.bumpCode; decide⟩

/-- A match in a dictionary with R32's invariants gives a literal or a code with a record. -/
theorem Dict.longestMatch_code {d : Dict} (h : d.Inv) (x : Sym) (xs : List Sym) :
    (longestMatch d.ent x xs).1 < 256 ∨ (d.ent.read (longestMatch d.ent x xs).1).isSome := by
  obtain e | ⟨e, he⟩ := (longestMatch_bounds d.ent x xs).1
  · exact .inl (e ▸ x.sym.isLt)
  · exact .inr (by rw [Memory.read_of_mem h.ent_wf he]; rfl)

/-- Encoding keeps R32's invariants. -/
theorem encodeSyms_inv (fuel : Nat) (xs : List Sym) {d : Dict} (h : d.Inv) : (encodeSyms fuel xs d).2.Inv := by
  induction fuel generalizing xs d with
  | zero => exact h
  | succ fuel ih =>
    match xs with
    | [] => exact h
    | x :: xs =>
      simp only [encodeSyms]
      split
      · exact h
      · exact ih _ (Dict.inv_learn h _ (Dict.longestMatch_code h x xs)).1

/-- A match of `n` symbols has a code of length `n` (R168, R32). -/
theorem Dict.longestMatch_codeLen {d : Dict} (h : d.Inv) (x : Sym) (xs : List Sym) :
    d.codeLen (longestMatch d.ent x xs).1 = (longestMatch d.ent x xs).2 := by
  have literal : d.codeLen x.sym.toNat = 1 := by
    have hn : d.ent.read x.sym.toNat = none := by
      cases he : d.ent.read x.sym.toNat with
      | none => rfl
      | some e =>
        have := (h.record_iff x.sym.toNat).1 (by rw [he]; rfl)
        have := x.sym.isLt
        simp only [Config.firstCode] at *
        omega
    rw [Dict.codeLen, hn]
  refine explore_induct (fun k n => d.codeLen k = n) xs _ _ _ literal literal fun j y k n _ _ hk c hc => ?_
  obtain ⟨e, he, hp, -⟩ := mem_candidates hc
  have hr := Memory.read_of_mem h.ent_wf he
  rw [Dict.codeLen_of_record hr, (h.record c e hr).2.2, hp, hk, Nat.add_comm]

/-- As many rounds as symbols are enough. -/
theorem encodeSyms_eq_encode {fuel : Nat} {xs : List Sym} (h : xs.length ≤ fuel) (d : Dict) :
    encodeSyms fuel xs d = d.encode xs := by
  have both : ∀ (f g : Nat) (xs : List Sym) (d : Dict), xs.length ≤ f → xs.length ≤ g →
      encodeSyms f xs d = encodeSyms g xs d := by
    intro f
    induction f with
    | zero =>
      intro g xs d hf _
      obtain rfl := List.length_eq_zero_iff.1 (Nat.le_zero.1 hf)
      cases g <;> rfl
    | succ f ih =>
      intro g xs d hf hg
      match xs, g with
      | [], 0 => rfl
      | [], g + 1 => rfl
      | x :: xs, g + 1 =>
        simp only [encodeSyms]
        split
        · rfl
        · next y ys hd =>
          have hl := congrArg List.length hd
          have := (longestMatch_bounds d.ent x xs).2.1
          simp only [List.length_drop, List.length_cons] at hl hf hg
          rw [ih g (y :: ys) _ (by simp; omega) (by simp; omega)]
  exact both _ _ _ _ h (Nat.le_refl _)

/-! ### Reading symbols (R170) -/

/-- The symbols are read when every entry is written and has a width of 1..8. -/
theorem readSymbols_eq_ok {m : Memory Sym} {i n : Nat} {xs : List Sym} :
    readSymbols m i n = .ok xs ↔ xs.length = n ∧ (∀ j, j < n → m.read (i + j) = xs[j]?) ∧
      ∀ x ∈ xs, 1 ≤ x.width.toNat ∧ x.width.toNat ≤ 8 := by
  induction n generalizing i xs with
  | zero =>
    simp only [readSymbols, Except.ok.injEq]
    constructor
    · rintro rfl; simp
    · rintro ⟨h, -⟩; exact (List.length_eq_zero_iff.1 h).symm
  | succ n ih =>
    constructor
    · intro h
      simp only [readSymbols] at h
      split at h
      · cases h
      · next x hx =>
        split_ifs at h with hw
        split at h
        · cases h
        · next ys hys =>
          cases h
          obtain ⟨h1, h2, h3⟩ := ih.1 hys
          refine ⟨by simp [h1], fun j hj => ?_, ?_⟩
          · cases j with
            | zero => simpa using hx
            | succ j =>
              rw [show i + (j + 1) = i + 1 + j by omega, h2 j (by omega)]
              rfl
          · intro y hy
            rcases List.mem_cons.1 hy with rfl | hy
            · exact hw
            · exact h3 y hy
    · rintro ⟨h1, h2, h3⟩
      match xs with
      | [] => simp at h1
      | x :: xs =>
        have hx : m.read i = some x := by simpa using h2 0 (by omega)
        have hr : readSymbols m (i + 1) n = .ok xs := ih.2 ⟨by simpa using h1, fun j hj => by
          have := h2 (j + 1) (by omega)
          rw [show i + 1 + j = i + (j + 1) by omega, this]; rfl, fun y hy => h3 y (List.mem_cons_of_mem _ hy)⟩
        have hw := h3 x List.mem_cons_self
        simp [readSymbols, hx, hw, hr]

/-! ### Decoding (R171) -/

/-- A byte or string the decoder has read: what may be its previous code. -/
def Decoding.Known (t : Decoding) : Prop := ∀ q, t.prev = some q → q < 256 ∨ (t.d.ent.read q).isSome

/-- What one round of R171's loop can do with a code, when it is not MDC_CORRUPT: a control code changes the dictionary's
scalars and writes nothing; a literal or string code writes its bytes, and the decoder learns at most one entry. -/
theorem applyCode_cases {n : Nat} {t t' : Decoding} {v : Nat} (h : applyCode n t v = some t') :
    ((v = Config.flushCode ∨ (t.d.w = Config.codeBitsMax ∧ v = 32767)) ∧
        t' = { t with d := Dict.fresh, prev := none }) ∨
      (v = Config.freezeCode ∧ t' = { t with d := { t.d with frz := true } }) ∨
      (t.d.w < Config.codeBitsMax ∧ v = t.d.bumpCode ∧ t' = { t with d := { t.d with w := t.d.w + 1 } }) ∨
      ∃ bs d, codeBytes t.d t.prev v = some bs ∧ t.out.length + bs.length ≤ n ∧
        decoderLearn t.d t.prev bs = some d ∧ t' = { t with d := d, prev := some v, out := t.out ++ bs } := by
  unfold applyCode at h
  split_ifs at h with h1 h2 h3
  · cases h; exact .inl ⟨h1, rfl⟩
  · cases h; exact .inr (.inl ⟨h2, rfl⟩)
  · cases h; exact .inr (.inr (.inl ⟨h3.1, h3.2, rfl⟩))
  · split at h
    · cases h
    · next bs hb =>
      split_ifs at h with hn
      split at h
      · cases h
      · next d hd =>
        cases h
        exact .inr (.inr (.inr ⟨bs, d, hb, by omega, hd, rfl⟩))

/-- What the decoder can learn from a code (R171). -/
theorem decoderLearn_cases {d d' : Dict} {prev : Option Nat} {bs : List Byte} (h : decoderLearn d prev bs = some d') :
    ((prev = none ∨ d.frz = true) ∧ d' = d) ∨
      ∃ q, prev = some q ∧ d.frz = false ∧ d.next < d.bumpCode ∧ d' = d.create q (bs.headD 0#8) := by
  unfold decoderLearn at h
  split at h
  · cases h; exact .inl ⟨.inl rfl, rfl⟩
  · next q =>
    split_ifs at h with h1 h2
    · cases h; exact .inl ⟨.inr h1, rfl⟩
    · cases h; exact .inr ⟨q, rfl, by simpa using h1, by omega, rfl⟩

/-- A code with bytes is a literal, a code with a record, or NEXT with a previous code and FRZ = 0 (R171). -/
theorem codeBytes_cases {d : Dict} {prev : Option Nat} {v : Nat} {bs : List Byte} (h : codeBytes d prev v = some bs) :
    v < 256 ∨ (Config.firstCode ≤ v ∧ v < d.next) ∨ (v = d.next ∧ d.frz = false ∧ ∃ q, prev = some q) := by
  unfold codeBytes at h
  split_ifs at h with h1 h2 h3
  · exact .inl h1
  · exact .inr (.inl h2)
  · split at h
    · cases h
    · next q => exact .inr (.inr ⟨h3.1, h3.2, q, rfl⟩)

/-- One code keeps R32's invariants, the previous code known, and the output within `n`. -/
theorem applyCode_inv {n : Nat} {t t' : Decoding} {v : Nat} (h : applyCode n t v = some t') (hd : t.d.Inv)
    (hk : t.Known) (ho : t.out.length ≤ n) : t'.d.Inv ∧ t'.Known ∧ t'.out.length ≤ n ∧ t'.p = t.p := by
  obtain ⟨-, rfl⟩ | ⟨-, rfl⟩ | ⟨hw, -, rfl⟩ | ⟨bs, d, hb, hl, hL, rfl⟩ := applyCode_cases h
  · exact ⟨Dict.inv_fresh, by rintro q ⟨⟩, ho, rfl⟩
  · exact ⟨⟨⟨hd.ent_wf, hd.first_le_next, hd.w_lower, hd.w_upper, hd.record_iff, hd.record⟩, hd.next_le⟩, hk, ho, rfl⟩
  · exact ⟨Dict.inv_widen hd hw, hk, ho, rfl⟩
  · have hv := codeBytes_cases hb
    obtain ⟨hp, rfl⟩ | ⟨q, hq, hf, hb, rfl⟩ := decoderLearn_cases hL
    · refine ⟨hd, ?_, by simpa using hl, rfl⟩
      rintro q ⟨⟩
      rcases hv with hv | hv | ⟨-, hv, r, hr⟩
      · exact .inl hv
      · exact .inr ((hd.record_iff _).2 hv)
      · rcases hp with hp | hp
        · rw [hp] at hr; cases hr
        · rw [hp] at hv; cases hv
    · refine ⟨Dict.inv_create hd _ (hk q hq) hb, ?_, by simpa using hl, rfl⟩
      rintro r ⟨⟩
      have hi := (Dict.records_create hd.toRecords (bs.headD 0#8) (hk q hq)).record_iff v
      rcases hv with hv | hv | ⟨hv, -⟩
      · exact .inl hv
      · exact .inr (hi.2 ⟨hv.1, by simp; omega⟩)
      · exact .inr (hi.2 ⟨hv ▸ hd.first_le_next, by simp [hv]⟩)

/-- A decoding that ends keeps R32's invariants, has exactly `n` symbols out, and its position inside the bit memory. -/
theorem decodeLoop_inv {bit : Memory Bool} {limit n fuel : Nat} {t t' : Decoding}
    (h : decodeLoop bit limit n fuel t = .done t') (hd : t.d.Inv) (hk : t.Known) (ho : t.out.length ≤ n)
    (hp : t.p ≤ limit) : t'.d.Inv ∧ t'.out.length = n ∧ t.p ≤ t'.p ∧ t'.p ≤ limit := by
  induction fuel generalizing t with
  | zero => cases h
  | succ fuel ih =>
    simp only [decodeLoop] at h
    split_ifs at h with h1 h2
    · cases h; exact ⟨hd, by omega, by omega, hp⟩
    · split at h
      · cases h
      · next bs _ =>
        split at h
        · cases h
        · next u hu =>
          obtain ⟨a, b, c, e⟩ := applyCode_inv hu hd hk ho
          obtain ⟨a', b', c', e'⟩ := ih h a b c (by rw [e]; simpa using h2)
          exact ⟨a', b', by rw [e] at c'; simp at c'; omega, e'⟩

/-! ### Codes and their bytes, as relations -/

/-- `expansion(v)` is nonempty and has `len(v)` bytes (R162). -/
theorem Expands.length {d : Dict} (h : d.Records) {v : Nat} {bs : List Byte} (hv : Expands d v bs) :
    bs.length = d.codeLen v ∧ bs ≠ [] := by
  induction hv with
  | @literal v hv =>
    have hn : d.ent.read v = none := by
      by_contra hne
      have := (h.record_iff v).1 (Option.isSome_iff_ne_none.2 hne)
      simp only [Config.firstCode] at this
      omega
    simp [Dict.codeLen, hn]
  | string _ he _ ih =>
    rw [Dict.codeLen_of_record he, (h.record _ _ he).2.2]
    simp [ih.1, Nat.add_comm]

/-- R162's expansion by parent links is the relation `Expands`. -/
theorem Dict.expansion_eq_some {d : Dict} (h : d.Records) {v : Nat} {bs : List Byte} :
    d.expansion v = some bs ↔ Expands d v bs := by
  have sound : ∀ (fuel v : Nat) (bs : List Byte), expandFrom d.ent fuel v = some bs → Expands d v bs := by
    intro fuel
    induction fuel with
    | zero =>
      intro v bs hv
      simp only [expandFrom] at hv
      split_ifs at hv with h1
      cases hv
      exact .literal h1
    | succ fuel ih =>
      intro v bs hv
      simp only [expandFrom] at hv
      split_ifs at hv with h1
      · cases hv
        exact .literal h1
      · split at hv
        · cases hv
        · next e he =>
          obtain ⟨ps, hp, rfl⟩ := Option.map_eq_some_iff.1 hv
          exact .string ((h.record_iff v).1 (by rw [he]; rfl)).1 he (ih _ _ hp)
  have complete : ∀ {v : Nat} {bs : List Byte}, Expands d v bs → ∀ fuel, v ≤ fuel → expandFrom d.ent fuel v = some bs := by
    intro v bs hv
    induction hv with
    | literal h1 =>
      intro fuel _
      cases fuel <;> simp [expandFrom, h1]
    | @string k e bs hk he _ ih =>
      intro fuel hf
      have := (h.record k e he).1
      obtain ⟨g, rfl⟩ : ∃ g, fuel = g + 1 := ⟨fuel - 1, by omega⟩
      have := ih g (by omega)
      rw [expandFrom, if_neg (by omega)]
      simp [he, this]
  exact ⟨sound v v bs, fun hv => complete hv v (Nat.le_refl v)⟩

/-- A literal or a code with a record has an expansion. -/
theorem Expands.exists {d : Dict} (h : d.Records) (v : Nat) (hv : v < 256 ∨ (d.ent.read v).isSome) : ∃ bs, Expands d v bs := by
  induction v using Nat.strongRecOn with
  | _ v ih =>
    rcases hv with hv | hv
    · exact ⟨_, .literal hv⟩
    · obtain ⟨e, he⟩ := Option.isSome_iff_exists.1 hv
      obtain ⟨hlt, hp, -⟩ := h.record v e he
      obtain ⟨bs, hb⟩ := ih _ hlt hp
      exact ⟨_, .string ((h.record_iff v).1 hv).1 he hb⟩

/-- The bytes of a code in R171 are the relation `CodeSymbols`. -/
theorem codeBytes_eq_some {d : Dict} (h : d.Records) {prev : Option Nat} {v : Nat} {bs : List Byte} :
    codeBytes d prev v = some bs ↔ CodeSymbols d prev v bs := by
  have hf := h.first_le_next
  constructor
  · intro hb
    unfold codeBytes at hb
    split_ifs at hb with h1 h2 h3
    · cases hb
      exact .known (.inl h1) (.literal h1)
    · exact .known (.inr h2) ((Dict.expansion_eq_some h).1 hb)
    · obtain ⟨rfl, hz⟩ := h3
      split at hb
      · cases hb
      · next q =>
        split at hb
        · cases hb
        · next ps hps =>
          have he := (Dict.expansion_eq_some h).1 hps
          obtain ⟨b, t, rfl⟩ := List.exists_cons_of_ne_nil (he.length h).2
          cases hb
          exact .pending rfl hz he
  · rintro (⟨hv, he⟩ | ⟨hq, hz, he⟩)
    · rcases hv with hv | hv
      · cases he with
        | literal => simp [codeBytes, hv]
        | string hk => omega
      · have h1 : ¬ v < 256 := by omega
        have h2 : Config.firstCode ≤ v ∧ v < d.next := hv
        simp [codeBytes, h1, h2, (Dict.expansion_eq_some h).2 he]
    · subst hq
      simp only [Config.firstCode] at hf
      have h1 : ¬ d.next < 256 := by omega
      simp [codeBytes, h1, hz, (Dict.expansion_eq_some h).2 he]

/-- What the decoder learns from a code whose previous code is known is the relation `Learns`; it is MDC_CORRUPT exactly when
an entry would reach the BUMP code. -/
theorem decoderLearn_eq_some {d : Dict} (h : d.Records) {prev : Option Nat} {bs : List Byte} {d' : Dict}
    (hk : ∀ q, prev = some q → q < 256 ∨ (d.ent.read q).isSome) :
    decoderLearn d prev bs = some d' ↔ Learns d prev (bs.headD 0#8) d' := by
  constructor
  · intro hl
    obtain ⟨hp, rfl⟩ | ⟨q, rfl, hz, hn, rfl⟩ := decoderLearn_cases hl
    · exact .nothing hp
    · obtain ⟨ps, he⟩ := Expands.exists h q (hk q rfl)
      rw [Dict.create, ← (he.length h).1]
      exact .entry rfl hz hn he
  · rintro (hp | ⟨rfl, hz, hn, he⟩)
    · rcases hp with rfl | hp
      · rfl
      · cases prev <;> simp [decoderLearn, hp]
    · have : ¬ d.bumpCode ≤ d.next := by simp only [Dict.bumpCode]; omega
      simp [decoderLearn, hz, this, Dict.create, (he.length h).1]

theorem decoderLearn_eq_none {d : Dict} {prev : Option Nat} {bs : List Byte} :
    decoderLearn d prev bs = none ↔ (∃ q, prev = some q) ∧ d.frz = false ∧ d.bumpCode ≤ d.next := by
  cases prev with
  | none => simp [decoderLearn]
  | some q => by_cases hz : d.frz = true <;> simp [decoderLearn, hz]

/-- One round of R171's loop after `readcode` is the relation `CodeEffect`. -/
theorem applyCode_eq_iff {n : Nat} {t : Decoding} (hd : t.d.Inv) (hk : t.Known) {v : Nat} {r : Option Decoding} :
    applyCode n t v = r ↔ CodeEffect n t v r := by
  have hr := hd.toRecords
  have hw := hd.w_lower
  have hpow : 512 ≤ 2 ^ t.d.w := Nat.pow_le_pow_right (n := 2) (by omega) (show 9 ≤ t.d.w from hw)
  have isControl : IsControl t.d v ↔ (v = Config.flushCode ∨ (t.d.w = Config.codeBitsMax ∧ v = 32767)) ∨ v = Config.freezeCode ∨
      (t.d.w < Config.codeBitsMax ∧ v = t.d.bumpCode) := by
    have hu := hd.w_upper
    simp only [Config.codeBitsMax] at hu
    simp only [IsControl, Dict.bumpCode, Config.flushCode, Config.freezeCode, Config.codeBitsMax]
    by_cases h15 : t.d.w = 15
    · simp [h15]; omega
    · omega
  have noControl : ¬ IsControl t.d v → applyCode n t v =
      match codeBytes t.d t.prev v with
      | none => none
      | some bs =>
        if n < t.out.length + bs.length then none
        else
          match decoderLearn t.d t.prev bs with
          | none => none
          | some d => some { t with d := d, prev := some v, out := t.out ++ bs } := by
    intro hc
    obtain ⟨h1, h⟩ := not_or.1 (isControl.not.1 hc)
    obtain ⟨h2, h3⟩ := not_or.1 h
    exact (if_neg h1).trans ((if_neg h2).trans (if_neg h3))
  constructor
  · rintro rfl
    by_cases hc : IsControl t.d v
    · unfold applyCode
      split_ifs with h1 h2 h3
      · exact .flush h1
      · exact .freeze h2
      · exact .bump h3.1 h3.2
      · exact absurd (isControl.1 hc) (not_or.2 ⟨h1, not_or.2 ⟨h2, h3⟩⟩)
    · rw [noControl hc]
      cases hb : codeBytes t.d t.prev v with
      | none => exact .noBytes hc fun bs hs => by rw [(codeBytes_eq_some hr).2 hs] at hb; cases hb
      | some bs =>
        have hs := (codeBytes_eq_some hr).1 hb
        simp only
        split_ifs with hn
        · exact .overrun hc hs hn
        · cases hl : decoderLearn t.d t.prev bs with
          | none =>
            obtain ⟨⟨q, hq⟩, hz, hb⟩ := decoderLearn_eq_none.1 hl
            exact .full hc hs hq hz hb
          | some d => exact .bytes hc hs (by omega) ((decoderLearn_eq_some hr hk).1 hl)
  · intro he
    cases he with
    | flush h => exact if_pos h
    | freeze h =>
      have h : v = Config.freezeCode := h
      rw [applyCode, if_neg (by simp only [h, Config.flushCode, Config.freezeCode]; omega), if_pos h]
    | bump h15 h =>
      rw [applyCode, if_neg (by simp only [Config.flushCode, Config.codeBitsMax]; omega),
        if_neg (by simp only [Config.freezeCode]; omega), if_pos ⟨h15, h⟩]
    | bytes hc hs hn hl =>
      rw [noControl hc, (codeBytes_eq_some hr).2 hs]
      simp only
      rw [if_neg (by omega), (decoderLearn_eq_some hr hk).2 hl]
    | noBytes hc hs =>
      rw [noControl hc]
      cases hb : codeBytes t.d t.prev v with
      | none => rfl
      | some bs => exact absurd ((codeBytes_eq_some hr).1 hb) (hs bs)
    | overrun hc hs hn =>
      rw [noControl hc, (codeBytes_eq_some hr).2 hs]
      simp only
      rw [if_pos hn]
    | full hc hs hq hz hn =>
      rw [noControl hc, (codeBytes_eq_some hr).2 hs]
      simp only
      rw [decoderLearn_eq_none.2 ⟨⟨_, hq⟩, hz, hn⟩]
      split <;> rfl

/-- With `NEXT = 2^W - 1`, FRZ = 0 and a previous code, R171 admits no code but a control code: every other is MDC_CORRUPT. So
after the first code of a DENC on such a dictionary lock-step (R176) leaves the encoder a control code only (assumption 13). -/
theorem applyCode_full {n : Nat} {t : Decoding} {v q : Nat} (hn : t.d.next = t.d.bumpCode) (hf : t.d.frz = false)
    (hq : t.prev = some q) (hc : ¬ IsControl t.d v) : applyCode n t v = none := by
  cases h : applyCode n t v with
  | none => rfl
  | some t' =>
    obtain ⟨h1 | ⟨h1, h2⟩, -⟩ | ⟨h1, -⟩ | ⟨-, h1, -⟩ | ⟨bs, d, -, -, hl, -⟩ := applyCode_cases h
    · exact absurd (.inl h1) hc
    · exact absurd (.inr (.inr (by rw [h1, h2]; rfl))) hc
    · exact absurd (.inr (.inl h1)) hc
    · exact absurd (.inr (.inr h1)) hc
    · rw [decoderLearn_eq_none.2 ⟨⟨q, hq⟩, hf, Nat.le_of_eq hn.symm⟩] at hl
      cases hl

/-! ### Rounds of R171's loop -/

/-- R166 reads what R165 writes: the value of bits, least significant first, has these bits. -/
theorem valLsb_spec (bs : List Bool) : valLsb bs < 2 ^ bs.length ∧ ∀ j, (valLsb bs).testBit j = bs[j]?.getD false := by
  induction bs with
  | nil => simp [valLsb]
  | cons b bs ih =>
    have hb : b.toNat ≤ 1 := Bool.toNat_le b
    refine ⟨by simp only [valLsb, List.length_cons, Nat.pow_succ]; omega, fun j => ?_⟩
    cases j with
    | zero => cases b <;> simp [valLsb, Nat.testBit_zero]
    | succ j =>
      have : (b.toNat + 2 * valLsb bs) / 2 = valLsb bs := by omega
      simp [valLsb, Nat.testBit_succ, this, ih.2 j]

/-- The code at the read position, as `readcode` gets it (R166). -/
theorem codeAt_iff {bit : Memory Bool} {limit : Nat} {t : Decoding} {v : Nat} :
    CodeAt bit limit t v ↔ t.p + t.d.w ≤ limit ∧ ∃ bs, bit.readList t.p t.d.w = some bs ∧ valLsb bs = v := by
  constructor
  · rintro ⟨hp, hv, hb⟩
    have hr : bit.readList t.p t.d.w = some (bitsLsb t.d.w v) :=
      Memory.readList_eq_some.2 ⟨by simp [bitsLsb], fun j hj => by simp [hb j hj, bitsLsb, hj]⟩
    refine ⟨hp, _, hr, Nat.eq_of_testBit_eq fun j => ?_⟩
    rw [(valLsb_spec _).2 j]
    by_cases hj : j < t.d.w
    · simp [bitsLsb, hj]
    · have : v < 2 ^ j := Nat.lt_of_lt_of_le hv (Nat.pow_le_pow_right (by omega) (by omega))
      simp [bitsLsb, hj, Nat.testBit_lt_two_pow this]
  · rintro ⟨hp, bs, hr, rfl⟩
    obtain ⟨hl, hb⟩ := Memory.readList_eq_some.1 hr
    obtain ⟨hlt, ht⟩ := valLsb_spec bs
    refine ⟨hp, hl ▸ hlt, fun j hj => ?_⟩
    rw [hb j hj, ht j]
    have : j < bs.length := by omega
    simp [this]

/-- A round of R171's loop is one turn of `decodeLoop`. -/
theorem decodeLoop_round {bit : Memory Bool} {limit n fuel : Nat} {t t' : Decoding} (hd : t.d.Inv) (hk : t.Known)
    (h : DecodeRound bit limit n t t') : decodeLoop bit limit n (fuel + 1) t = decodeLoop bit limit n fuel t' := by
  obtain ⟨hn, v, hc, he⟩ := h
  obtain ⟨hp, bs, hr, rfl⟩ := codeAt_iff.1 hc
  have := (applyCode_eq_iff (t := { t with p := t.p + t.d.w }) hd hk).2 he
  rw [decodeLoop, if_neg (by omega), if_neg (by omega), hr]
  simp only [this]

/-- A round keeps R32's invariants and moves the read position by one code, inside the bit memory. -/
theorem decodeRound_inv {bit : Memory Bool} {limit n : Nat} {t t' : Decoding} (h : DecodeRound bit limit n t t')
    (hd : t.d.Inv) (hk : t.Known) : t'.d.Inv ∧ t'.Known ∧ t'.out.length ≤ n ∧ t.p + 9 ≤ t'.p ∧ t'.p ≤ limit := by
  obtain ⟨hn, v, hc, he⟩ := h
  obtain ⟨h1, h2, h3, h4⟩ := applyCode_inv ((applyCode_eq_iff (t := { t with p := t.p + t.d.w }) hd hk).2 he) hd hk
    (Nat.le_of_lt hn)
  have hw : 9 ≤ t.d.w := hd.w_lower
  have hp := hc.1
  simp only at h4
  exact ⟨h1, h2, h3, by omega, by omega⟩

/-- After any rounds the rest of `decodeLoop` is the rest of the loop, with a round of fuel left: the fuel that R171's bound on
the read position gives is enough. -/
theorem decodeLoop_rounds {bit : Memory Bool} {limit n fuel : Nat} {t t' : Decoding}
    (h : Relation.ReflTransGen (DecodeRound bit limit n) t t') (hd : t.d.Inv) (hk : t.Known) (ho : t.out.length ≤ n)
    (hf : limit < t.p + fuel) (h0 : 0 < fuel) :
    (t'.d.Inv ∧ t'.Known ∧ t'.out.length ≤ n) ∧
      ∃ g, decodeLoop bit limit n fuel t = decodeLoop bit limit n (g + 1) t' := by
  induction h using Relation.ReflTransGen.head_induction_on generalizing fuel with
  | refl => exact ⟨⟨hd, hk, ho⟩, fuel - 1, by rw [Nat.sub_add_cancel h0]⟩
  | @head u v hr _ ih =>
    obtain ⟨h1, h2, h3, h4, h5⟩ := decodeRound_inv hr hd hk
    obtain ⟨g, rfl⟩ : ∃ g, fuel = g + 1 := ⟨fuel - 1, by omega⟩
    rw [decodeLoop_round hd hk hr]
    exact ih h1 h2 h3 (by omega) (by omega)

/-- How R171's loop ends at a state it has reached. -/
theorem decodeLoop_ends {bit : Memory Bool} {limit n g : Nat} {t : Decoding} (hd : t.d.Inv) (hk : t.Known) :
    (t.out.length = n → decodeLoop bit limit n (g + 1) t = .done t) ∧
      (∀ v, t.out.length < n → CodeAt bit limit t v → CodeEffect n { t with p := t.p + t.d.w } v none →
        decodeLoop bit limit n (g + 1) t = .fatal .mdcCorrupt) ∧
      (t.out.length < n → limit < t.p + t.d.w → decodeLoop bit limit n (g + 1) t = .fatal .bitRange) ∧
      (∀ j, t.out.length < n → t.p + t.d.w ≤ limit → j < t.d.w → bit.read (t.p + j) = none →
        decodeLoop bit limit n (g + 1) t = .unwritten) := by
  refine ⟨fun hn => ?_, fun v hn hc he => ?_, fun hn hp => ?_, fun j hn hp hj hr => ?_⟩
  · rw [decodeLoop, if_pos (by omega)]
  · obtain ⟨hp, bs, hr, rfl⟩ := codeAt_iff.1 hc
    have := (applyCode_eq_iff (t := { t with p := t.p + t.d.w }) hd hk).2 he
    rw [decodeLoop, if_neg (by omega), if_neg (by omega), hr]
    simp only [this]
  · rw [decodeLoop, if_neg (by omega), if_pos hp]
  · rw [decodeLoop, if_neg (by omega), if_neg (by omega)]
    cases hb : bit.readList t.p t.d.w with
    | none => rfl
    | some bs =>
      obtain ⟨hl, h⟩ := Memory.readList_eq_some.1 hb
      have := h j hj
      rw [hr, List.getElem?_eq_getElem (by omega)] at this
      cases this

end Sys2Proof.Machine
end

