-- ==== Sys2Proof/Laws/PerInstr.lean ====
section
/-! SUPPORT. The statements made command by command. `HeaderOpcode`: a command's header passes the header check of R72 as
the row of R73 the command belongs to, and it has as many operand words as that row's format (R71). -/

namespace Sys2Proof.Laws.HeaderOpcode

open Sys2Proof

/-- The header check accepts the command's header as its row, and the row's format counts its operand words. -/
def Statement (i : Instr) : Prop := headerOp i.header = some i.op ∧ i.operands.length = i.op.format.operandWords

/-- The header check of a header of the row `o`, whose `c` and `n` fields the row's format admits. -/
theorem headerOp_mkHeader (o : Op) (c n : Nat) (h : mkHeader o.code c n &&& o.format.zeroMask = 0#32) :
    headerOp (mkHeader o.code c n) = some o :=
  headerOp_eq_some.2 ⟨by rw [headerOpc_mkHeader, Nat.mod_eq_of_lt o.code_lt], h⟩

/-- A format whose mask leaves CH alone admits every CH (FC0, FC2). -/
theorem channel_admitted (o : Op) (c : Nat) (h : o.format.zeroMask = 0x0000FFFF#32) :
    mkHeader o.code c 0 &&& o.format.zeroMask = 0#32 := by
  have e : (0x0000FFFF#32 : Word) = (0#8 ++ 0#8 ++ 255#8 ++ 255#8 : BitVec (8 + 8 + 8 + 8)) := by decide
  rw [h, e, mkHeader_and]
  simp

/-- A format whose mask leaves N alone admits every N (FN0, FN1). -/
theorem count_admitted (o : Op) (n : Nat) (h : o.format.zeroMask = 0x00FF00FF#32) :
    mkHeader o.code 0 n &&& o.format.zeroMask = 0#32 := by
  have e : (0x00FF00FF#32 : Word) = (0#8 ++ 255#8 ++ 0#8 ++ 255#8 : BitVec (8 + 8 + 8 + 8)) := by decide
  rw [h, e, mkHeader_and]
  simp

theorem nop : Statement .nop := ⟨headerOp_mkHeader .nop 0 0 (by decide), rfl⟩
theorem fdec (x : Word) : Statement (.fdec x) := ⟨headerOp_mkHeader .fdec 0 0 (by decide), rfl⟩
theorem frec (sign exponent mantissa : Word) : Statement (.frec sign exponent mantissa) :=
  ⟨headerOp_mkHeader .frec 0 0 (by decide), rfl⟩
theorem fmul (a b : Word) : Statement (.fmul a b) := ⟨headerOp_mkHeader .fmul 0 0 (by decide), rfl⟩
theorem fdiv (x y : Word) : Statement (.fdiv x y) := ⟨headerOp_mkHeader .fdiv 0 0 (by decide), rfl⟩
theorem fpow2 (shift : Word) : Statement (.fpow2 shift) := ⟨headerOp_mkHeader .fpow2 0 0 (by decide), rfl⟩
theorem recon (q shift a : Word) : Statement (.recon q shift a) := ⟨headerOp_mkHeader .recon 0 0 (by decide), rfl⟩
theorem resid (x y : Word) : Statement (.resid x y) := ⟨headerOp_mkHeader .resid 0 0 (by decide), rfl⟩
theorem unres (y d : Word) : Statement (.unres y d) := ⟨headerOp_mkHeader .unres 0 0 (by decide), rfl⟩
theorem nwidth (f : Bool) (q hb : Word) : Statement (.nwidth f q hb) :=
  ⟨headerOp_mkHeader .nwidth 0 f.toNat (by cases f <;> decide), rfl⟩
theorem packa (x idx : Word) : Statement (.packa x idx) := ⟨headerOp_mkHeader .packa 0 0 (by decide), rfl⟩
theorem packb (d w idx : Word) : Statement (.packb d w idx) := ⟨headerOp_mkHeader .packb 0 0 (by decide), rfl⟩
theorem unpacka (idx : Word) : Statement (.unpacka idx) := ⟨headerOp_mkHeader .unpacka 0 0 (by decide), rfl⟩
theorem unpackb (idx w : Word) : Statement (.unpackb idx w) := ⟨headerOp_mkHeader .unpackb 0 0 (by decide), rfl⟩
theorem dflush (ch : Nat) : Statement (.dflush ch) :=
  ⟨headerOp_mkHeader .dflush ch 0 (channel_admitted _ _ rfl), rfl⟩
theorem denc (ch : Nat) (base n : Word) : Statement (.denc ch base n) :=
  ⟨headerOp_mkHeader .denc ch 0 (channel_admitted _ _ rfl), rfl⟩
theorem ddec (ch : Nat) (base n : Word) : Statement (.ddec ch base n) :=
  ⟨headerOp_mkHeader .ddec ch 0 (channel_admitted _ _ rfl), rfl⟩
theorem dbackup (ch : Nat) : Statement (.dbackup ch) :=
  ⟨headerOp_mkHeader .dbackup ch 0 (channel_admitted _ _ rfl), rfl⟩
theorem dresume (ch : Nat) : Statement (.dresume ch) :=
  ⟨headerOp_mkHeader .dresume ch 0 (channel_admitted _ _ rfl), rfl⟩
theorem dstat (ch : Nat) : Statement (.dstat ch) :=
  ⟨headerOp_mkHeader .dstat ch 0 (channel_admitted _ _ rfl), rfl⟩
theorem bwr (n : Nat) (v : Word) : Statement (.bwr n v) :=
  ⟨headerOp_mkHeader .bwr 0 n (count_admitted _ _ rfl), rfl⟩
theorem brd (n : Nat) : Statement (.brd n) := ⟨headerOp_mkHeader .brd 0 n (count_admitted _ _ rfl), rfl⟩
theorem balignw : Statement .balignw := ⟨headerOp_mkHeader .balignw 0 0 (by decide), rfl⟩
theorem balignr : Statement .balignr := ⟨headerOp_mkHeader .balignr 0 0 (by decide), rfl⟩
theorem setwp (pos : Word) : Statement (.setwp pos) := ⟨headerOp_mkHeader .setwp 0 0 (by decide), rfl⟩
theorem setrp (pos : Word) : Statement (.setrp pos) := ⟨headerOp_mkHeader .setrp 0 0 (by decide), rfl⟩

end Sys2Proof.Laws.HeaderOpcode
end

