-- ==== Sys2Proof/Laws/Run.lean ====
section
/-! SUPPORT. Runs (R259): what a command or a turn does does not depend on the turns after it. -/

namespace Sys2Proof.Machine

/-- The result with these turns to come. -/
def withAgenda (a : List Turn) : Result → Result
  | .next t => .next { t with agenda := a }
  | .fault f => .fault f
  | .refused r => .refused r

@[simp] theorem withAgenda_next (a : List Turn) (t : State) : withAgenda a (.next t) = .next { t with agenda := a } := rfl

theorem takeException_withAgenda (a : List Turn) (t : State) (c : Cause) (w : Word) :
    ({ t with agenda := a } : State).takeException c w = { t.takeException c w with agenda := a } := by
  unfold State.takeException; split <;> rfl

theorem raise_withAgenda (a : List Turn) (i : Instr) (c : Cause) (t : State) :
    raise i c { t with agenda := a } = withAgenda a (raise i c t) := by
  simp [raise_eq, takeException_withAgenda]

theorem withAgenda_ite (a : List Turn) (p : Prop) [Decidable p] (x y : Result) :
    withAgenda a (if p then x else y) = if p then withAgenda a x else withAgenda a y := by split <;> rfl

theorem encodeEnd_withAgenda (a : List Turn) (i : Instr) (c : Nat) (s : State) (r : List Bool × Dict) :
    encodeEnd i c { s with agenda := a } r = withAgenda a (encodeEnd i c s r) := by
  have bitLen : State.bitLen { s with agenda := a } = s.bitLen := rfl
  simp only [encodeEnd, bitLen, withAgenda_ite]
  split
  · exact raise_withAgenda a i .bitRange (s.setBit (s.bit.eraseFrom s.wptr.toNat))
  · rfl

theorem decodeEnd_withAgenda (a : List Turn) (i : Instr) (c base n : Nat) (s : State) (e : DecodeEnd) :
    decodeEnd i c base n { s with agenda := a } e = withAgenda a (decodeEnd i c base n s e) := by
  cases e with
  | done t => rfl
  | fatal k => exact raise_withAgenda a i k ((s.setDict c .poisoned).setSym (s.sym.eraseRange base n))
  | unwritten => rfl

/-- What a command does does not depend on the turns to come. -/
theorem exec_withAgenda (i : Instr) (s : State) (a : List Turn) :
    exec i { s with agenda := a } = withAgenda a (exec i s) := by
  have channel : ∀ c, State.channel { s with agenda := a } c = s.channel c := fun _ => rfl
  have snapshot : ∀ c, State.snapshot { s with agenda := a } c = s.snapshot c := fun _ => rfl
  have bitLen : State.bitLen { s with agenda := a } = s.bitLen := rfl
  cases i <;>
    simp only [exec, execNop, execFdec, execFrec, execFmul, execFdiv, execFpow2, execRecon, execResid, execUnres,
      execNwidth, execPacka, execPackb, execUnpacka, execUnpackb, execDflush, execDenc, execDdec, execDbackup,
      execDresume, execDstat, execBwr, execBrd, execBalignw, execBalignr, execSetwp, execSetrp, channel, snapshot,
      bitLen, raise_withAgenda, encodeEnd_withAgenda, decodeEnd_withAgenda, withAgenda_ite] <;>
    repeat' (first | rfl | split)

theorem assemble_withAgenda {k : Instr → State → Result} (a : List Turn)
    (hk : ∀ i t, k i { t with agenda := a } = withAgenda a (k i t)) (s : State) :
    assemble k { s with agenda := a } = withAgenda a (assemble k s) := by
  have fetches : fetch { s with agenda := a } = fetch s := rfl
  unfold assemble
  rw [fetches]
  split
  · rfl
  · split
    · exact hk _ (s.takeWords _)
    · rfl
    · exact congrArg Host.Outcome.next (takeException_withAgenda a s _ _)

theorem softReset_withAgenda (a : List Turn) (s : State) :
    ({ s with agenda := a } : State).softReset = { s.softReset with agenda := a } := by
  have idle : State.idle { s with agenda := a } = s.idle := rfl
  unfold State.softReset
  rw [idle]
  split <;> rfl

theorem writeTarget_withAgenda (a : List Turn) (s : State) (v : Word) (t : Target) :
    writeTarget { s with agenda := a } v t = withAgenda a (writeTarget s v t) := by
  have store : ∀ u : State, storeIdle { s with agenda := a } { u with agenda := a } = withAgenda a (storeIdle s u) := by
    intro u
    have idle : State.idle { s with agenda := a } = s.idle := rfl
    unfold storeIdle
    rw [idle]
    split <;> rfl
  cases t with
  | sym i => exact store (s.setSym (s.sym.write i (wordSym v)))
  | bits j => exact store (s.setBit (writeBitWord s j v))
  | hole => rfl
  | reg r =>
    cases r with
    | ctrl =>
      refine congrArg Host.Outcome.next ?_
      unfold State.writeCtrl
      split
      · exact softReset_withAgenda a s
      · cases v.getLsbD 8 <;> rfl
    | cfg => exact store { s with intres := v.extractLsb' 0 5 }
    | cmd =>
      refine congrArg Host.Outcome.next ?_
      have full : State.full { s with agenda := a } = s.full := rfl
      unfold State.pushCommand
      rw [full]
      split
      · rfl
      · split
        · exact takeException_withAgenda a s _ _
        · rfl
    | _ => rfl

theorem withTarget_withAgenda {k : State → Target → Result} (a : List Turn) (s : State) (addr : Nat)
    (hk : ∀ t, k { s with agenda := a } t = withAgenda a (k s t)) :
    withTarget { s with agenda := a } addr (k { s with agenda := a }) = withAgenda a (withTarget s addr (k s)) := by
  unfold withTarget
  split
  · rfl
  · split
    · rfl
    · exact hk _

theorem readTarget_withAgenda (a : List Turn) (s : State) (free : Word) (t : Target) :
    readTarget { s with agenda := a } free t = readTarget s free t := by
  cases t with
  | reg r => cases r <;> rfl
  | _ => rfl

/-- What a turn does does not depend on the turns to come. -/
theorem takeTurn_withAgenda (t : Turn) (s : State) (a : List Turn) :
    takeTurn t { s with agenda := a } = withAgenda a (takeTurn t s) := by
  cases t with
  | hostRead addr =>
    exact withTarget_withAgenda
      (k := fun s t => .next { s with rdata := readTarget s (Config.draw s.draws) t, draws := s.draws + 1 }) a s addr
      fun t => by simp [readTarget_withAgenda]
  | hostWrite addr v =>
    exact withTarget_withAgenda (k := fun s t => writeTarget s v t) a s addr (writeTarget_withAgenda a s v)
  | resetInput => rfl
  | engineBegin =>
    obtain hr | ⟨i, hr⟩ := s.running.eq_none_or_eq_some
    · have h : ({ s with agenda := a } : State).running = none := hr
      rw [takeTurn, takeTurn, engineBegin_of_not_running h, engineBegin_of_not_running hr]
      exact assemble_withAgenda (k := fun i t => .next { t with running := some i }) a (fun _ _ => rfl) s
    · have h : ({ s with agenda := a } : State).running = some i := hr
      rw [takeTurn, takeTurn, engineBegin_of_running h, engineBegin_of_running hr, withAgenda_next]
  | engineRun =>
    obtain hr | ⟨i, hr⟩ := s.running.eq_none_or_eq_some
    · have h : ({ s with agenda := a } : State).running = none := hr
      rw [takeTurn, takeTurn, engineRun_of_not_running h, engineRun_of_not_running hr]
      exact assemble_withAgenda a (fun i t => exec_withAgenda i t a) s
    · have h : ({ s with agenda := a } : State).running = some i := hr
      rw [takeTurn, takeTurn, engineRun_of_running h, engineRun_of_running hr]
      exact exec_withAgenda i { s with running := none } a

/-- A turn leaves the turns to come. -/
theorem takeTurn_agenda {t : Turn} {s u : State} (h : takeTurn t s = .next u) : u.agenda = s.agenda := by
  have := takeTurn_withAgenda t s s.agenda
  rw [h, withAgenda_next] at this
  injection this with hu
  rw [hu]

/-- A step with a turn to come is that turn; the turns after it stay, and what it does does not depend on them. -/
theorem step_append_agenda {s : State} {t : Turn} {ts : List Turn} (h : s.agenda = t :: ts) (more : List Turn) :
    step { s with agenda := s.agenda ++ more } = withAgenda (ts ++ more) (step s) := by
  rw [step_of_turn (t := t) (ts := ts ++ more) (by rw [h, List.cons_append]), step_of_turn h]
  exact takeTurn_withAgenda t { s with agenda := ts } (ts ++ more)

theorem step_agenda {s u : State} {t : Turn} {ts : List Turn} (h : s.agenda = t :: ts) (hu : step s = .next u) :
    u.agenda = ts := by
  rw [step_of_turn h] at hu
  exact takeTurn_agenda hu

/-- On the engine's turn the step is the engine's, with the turns after it to come. -/
theorem step_of_engineActs {s : State} {ts : List Turn} (h : s.engineActs ts) :
    step s = engineRun { s with agenda := ts } := by
  obtain ⟨ha, rfl⟩ | ha := h
  · rw [step_of_no_turn ha, ← ha]
  · rw [step_of_turn ha, takeTurn]

/-! ### The parameters are fixed (R4) -/

/-- No command changes the parameters. -/
theorem exec_params {i : Instr} {s t : State} (h : exec i s = .next t) : t.params = s.params := by
  have e := exec_ends s i
  rw [h] at e
  generalize hr : (Host.Outcome.next t : Result) = r at e
  cases e with
  | done u hu => injection hr with hr; rw [hr]; exact hu.params
  | raised c => injection hr with hr; rw [hr]; simp
  | fatal => injection hr with hr; rw [hr]; simp
  | tooLong => injection hr with hr; rw [hr]; simp
  | unwritten => cases hr

theorem assemble_params {k : Instr → State → Result} (hk : ∀ i t u, k i t = .next u → u.params = t.params) {s u : State}
    (h : assemble k s = .next u) : u.params = s.params := by
  obtain ⟨-, e⟩ | ⟨-, -, e⟩ | ⟨-, w, -, e⟩ | ⟨-, i, rest, -, e⟩ := assemble_cases k s <;> rw [e] at h
  · injection h with h; rw [← h]
  · injection h with h; rw [← h]; rfl
  · injection h with h; rw [← h]; simp
  · exact hk i (s.takeWords rest) u h

theorem writeTarget_params {s u : State} {v : Word} {t : Target} (h : writeTarget s v t = .next u) :
    u.params = s.params := by
  have store : ∀ w : State, w.params = s.params → storeIdle s w = .next u → u.params = s.params := by
    intro w hw hs
    unfold storeIdle at hs
    split at hs
    · injection hs with hs; rw [← hs, hw]
    · cases hs
  have same : ∀ w : State, w.params = s.params → (Host.Outcome.next w : Result) = .next u → u.params = s.params := by
    intro w hw hs
    injection hs with hs
    rw [← hs, hw]
  cases t with
  | sym i => exact store (s.setSym (s.sym.write i (wordSym v))) rfl h
  | bits j => exact store (s.setBit (writeBitWord s j v)) rfl h
  | hole => exact same _ rfl h
  | reg r =>
    cases r with
    | ctrl =>
      refine same _ ?_ h
      obtain ⟨-, e⟩ | ⟨-, -, e⟩ | ⟨-, -, e⟩ := writeCtrl_cases s v <;> rw [e]
      obtain ⟨-, e⟩ | ⟨-, e⟩ := softReset_cases s <;> rw [e] <;> rfl
    | cfg => exact store { s with intres := v.extractLsb' 0 5 } rfl h
    | cmd =>
      refine same _ ?_ h
      obtain ⟨-, e⟩ | ⟨-, -, e⟩ | ⟨-, -, e⟩ := pushCommand_cases s v <;> rw [e]
      simp
    | _ => exact same _ rfl h

theorem withTarget_params {k : Target → Result} {s u : State} {addr : Nat}
    (hk : ∀ t, k t = .next u → u.params = s.params) (h : withTarget s addr k = .next u) : u.params = s.params := by
  obtain ⟨-, e⟩ | ⟨-, -, e⟩ | ⟨-, -, -, e⟩ := withTarget_cases s addr k <;> rw [e] at h
  · cases h
  · cases h
  · exact hk _ h

/-- No step changes the parameters. -/
theorem step_params {s u : State} (h : step s = .next u) : u.params = s.params := by
  have run : ∀ t : State, t.params = s.params → engineRun t = .next u → u.params = s.params := by
    intro t ht hu
    obtain hr | ⟨i, hr⟩ := t.running.eq_none_or_eq_some
    · rw [engineRun_of_not_running hr] at hu
      rw [assemble_params (fun _ _ _ => exec_params) hu, ht]
    · rw [engineRun_of_running hr] at hu
      rw [exec_params hu, ← ht]
  cases ha : s.agenda with
  | nil => exact run s rfl (step_of_no_turn ha ▸ h)
  | cons t ts =>
    rw [step_of_turn ha] at h
    cases t with
    | hostRead addr =>
      rw [takeTurn, hostRead] at h
      exact withTarget_params (s := { s with agenda := ts }) (fun _ hu => by injection hu with hu; rw [← hu]) h
    | hostWrite addr v =>
      rw [takeTurn, hostWrite] at h
      exact withTarget_params (s := { s with agenda := ts }) (fun _ => writeTarget_params) h
    | resetInput => injection h with h; rw [← h]; rfl
    | engineBegin =>
      obtain hr | ⟨i, hr⟩ := s.running.eq_none_or_eq_some
      · rw [takeTurn, engineBegin_of_not_running (s := { s with agenda := ts }) hr] at h
        exact assemble_params (k := fun i t => .next { t with running := some i }) (s := { s with agenda := ts })
          (fun _ _ _ hu => by injection hu with hu; rw [← hu]) h
      · rw [takeTurn, engineBegin_of_running (s := { s with agenda := ts }) hr] at h
        injection h with h
        rw [← h]
    | engineRun => exact run { s with agenda := ts } rfl h

end Sys2Proof.Machine
end

