-- ==== Sys2Proof/Tests/Slice0.lean ====
section
/-! SUPPORT. The model's own tests: the WellFormed smoke, words written out from the spec's encodings, one or two results of
each command from the spec's vectors (95_test_vectors.md) and corner cases, and a witness for the hypotheses of every
obligation. -/

namespace Sys2Proof.Tests

-- One theorem after another: many kernel evaluations waiting at once ask for a thread each.
set_option Elab.async false

open Sys2Proof Sys2Proof.Machine

/-! ### Helpers -/

/-- The result is a next state, and the check holds of it. -/
def ends (r : Result) (p : State → Bool) : Bool :=
  match r with
  | .next t => p t
  | .fault _ => false
  | .refused _ => false

theorem exists_next {r : Result} {p : State → Bool} (h : ends r p = true) : ∃ t, r = .next t ∧ p t = true := by
  cases r with
  | next t => exact ⟨t, rfl, h⟩
  | fault _ => cases h
  | refused _ => cases h

/-- The result is this stop. -/
def stops (r : Result) (f : Fault) : Bool :=
  match r with
  | .next _ => false
  | .fault g => g == f
  | .refused _ => false

/-- The reset state with words in the FIFO. -/
def fed (ws : List Word) : State := { State.reset with fifo := ws }

/-- The reset state with turns to come. -/
def withTurns (ts : List Turn) : State := { State.reset with agenda := ts }

/-- The reset state with bytes of width 8 in SYM from index 0. -/
def withBytes (bs : List Byte) : State :=
  { State.reset with sym := Memory.writeList [] 0 (bs.map fun b => { sym := b, width := 8#4 }) }

/-- The reset state with `n`-bit codes in BIT from position 0, each least significant bit first (R165). -/
def withCodes (codes : List (Nat × Nat)) : State :=
  { State.reset with bit := Memory.writeList [] 0 (codes.flatMap fun c => bitsLsb c.1 c.2) }

/-- The exception a result ends with. -/
def raises (r : Result) (c : Cause) (info : Word) : Bool :=
  ends r fun t => t.err == some c && t.errinfo == info && t.cmdcnt == 0#32

/-! ### WellFormed: an ill-formed term for each check -/

theorem test_wellFormed_refuses_dflush : (Instr.dflush 256).WellFormed = false := by decide
theorem test_wellFormed_refuses_denc : (Instr.denc 256 0#32 0#32).WellFormed = false := by decide
theorem test_wellFormed_refuses_ddec : (Instr.ddec 256 0#32 0#32).WellFormed = false := by decide
theorem test_wellFormed_refuses_dbackup : (Instr.dbackup 256).WellFormed = false := by decide
theorem test_wellFormed_refuses_dresume : (Instr.dresume 256).WellFormed = false := by decide
theorem test_wellFormed_refuses_dstat : (Instr.dstat 256).WellFormed = false := by decide
theorem test_wellFormed_refuses_bwr : (Instr.bwr 256 0#32).WellFormed = false := by decide
theorem test_wellFormed_refuses_brd : (Instr.brd 256).WellFormed = false := by decide

/-! ### Decoding: each row of R73, its header written out bit by bit from R71 -/

theorem test_decode_nop : decode [0b00000000000000000000000000000000#32] = .ok .nop [] := by decide
theorem test_decode_fdec : decode [0b00010000000000000000000000000000#32, 7#32] = .ok (.fdec 7#32) [] := by decide
theorem test_decode_frec : decode [0b00010001000000000000000000000000#32, 1#32, 2#32, 3#32] =
    .ok (.frec 1#32 2#32 3#32) [] := by decide
theorem test_decode_fmul : decode [0b00010010000000000000000000000000#32, 1#32, 2#32] =
    .ok (.fmul 1#32 2#32) [] := by decide
theorem test_decode_fdiv : decode [0b00010011000000000000000000000000#32, 1#32, 2#32] =
    .ok (.fdiv 1#32 2#32) [] := by decide
theorem test_decode_fpow2 : decode [0b00010100000000000000000000000000#32, 1#32, 9#32] =
    .ok (.fpow2 1#32) [9#32] := by decide
theorem test_decode_recon : decode [0b00100000000000000000000000000000#32, 1#32, 2#32, 3#32] =
    .ok (.recon 1#32 2#32 3#32) [] := by decide
theorem test_decode_resid : decode [0b00100001000000000000000000000000#32, 1#32, 2#32] =
    .ok (.resid 1#32 2#32) [] := by decide
theorem test_decode_unres : decode [0b00100010000000000000000000000000#32, 1#32, 2#32] =
    .ok (.unres 1#32 2#32) [] := by decide
theorem test_decode_nwidth : decode [0b00100011000000000000000100000000#32, 1#32, 2#32] =
    .ok (.nwidth true 1#32 2#32) [] := by decide
theorem test_decode_packa : decode [0b00100100000000000000000000000000#32, 1#32, 2#32] =
    .ok (.packa 1#32 2#32) [] := by decide
theorem test_decode_packb : decode [0b00100101000000000000000000000000#32, 1#32, 2#32, 3#32] =
    .ok (.packb 1#32 2#32 3#32) [] := by decide
theorem test_decode_unpacka : decode [0b00100110000000000000000000000000#32, 1#32] =
    .ok (.unpacka 1#32) [] := by decide
theorem test_decode_unpackb : decode [0b00100111000000000000000000000000#32, 1#32, 2#32] =
    .ok (.unpackb 1#32 2#32) [] := by decide
theorem test_decode_dflush : decode [0b00110000101000010000000000000000#32] = .ok (.dflush 0xA1) [] := by decide
theorem test_decode_denc : decode [0b00110001100000010000000000000000#32, 1#32, 2#32] =
    .ok (.denc 0x81 1#32 2#32) [] := by decide
theorem test_decode_ddec : decode [0b00110010000000100000000000000000#32, 1#32, 2#32] =
    .ok (.ddec 2 1#32 2#32) [] := by decide
theorem test_decode_dbackup : decode [0b00110011000000110000000000000000#32] = .ok (.dbackup 3) [] := by decide
theorem test_decode_dresume : decode [0b00110100010000000000000000000000#32] = .ok (.dresume 0x40) [] := by decide
theorem test_decode_dstat : decode [0b00110101111111110000000000000000#32] = .ok (.dstat 0xFF) [] := by decide
theorem test_decode_bwr : decode [0b01000000000000000010000000000000#32, 5#32] = .ok (.bwr 32 5#32) [] := by decide
theorem test_decode_brd : decode [0b01000001000000001000000100000000#32] = .ok (.brd 0x81) [] := by decide
theorem test_decode_balignw : decode [0b01000010000000000000000000000000#32] = .ok .balignw [] := by decide
theorem test_decode_balignr : decode [0b01000011000000000000000000000000#32] = .ok .balignr [] := by decide
theorem test_decode_setwp : decode [0b01000100000000000000000000000000#32, 5#32] = .ok (.setwp 5#32) [] := by decide
theorem test_decode_setrp : decode [0b01000101000000000000000000000000#32, 5#32] = .ok (.setrp 5#32) [] := by decide

/-- R76: `DENC ch=0, 0, 12` encodes as these three words. -/
theorem test_encode_denc : encode (.denc 0 0#32 12#32) = [0x31000000#32, 0#32, 12#32] := by decide

/-- The opcode table's numbering: the second word of SETWP stands in bits 63:32. -/
theorem test_decodeTableWord : decodeTableWord 64 0x0000000544000000 = some (.setwp 5#32) := by decide

/-- A table word that gives the operands no bits runs with operand words of zeros. -/
theorem test_step_withFetchWord :
    ends (step (State.reset.withFetchWord 32 0x45000000)) (fun t => t.cmdcnt == 1#32 && t.rptr == 0#32) = true := by
  decide +kernel

/-! ### FDU (95 sections 2.1 to 2.5) -/

theorem test_fdec_nan : ends (exec (.fdec 0x7FC00001#32) State.reset) (fun t =>
    t.res0 == 0#32 && t.res1 == 0x80#32 && t.res2 == 0x400001#32 && t.cmdcnt == 1#32) = true := by decide +kernel
theorem test_fdec_subnormal : ends (exec (.fdec 0x807FFFFF#32) State.reset) (fun t =>
    t.res0 == 1#32 && t.res1 == 0xFFFFFF81#32 && t.res2 == 0x7FFFFF#32) = true := by decide +kernel
theorem test_frec_normal : ends (exec (.frec 0#32 1#32 0xC00000#32) State.reset) (fun t =>
    t.res0 == 0x40400000#32) = true := by decide +kernel
theorem test_frec_no_hidden_bit :
    raises (exec (.frec 0#32 0#32 1#32) State.reset) .fduDomain 0x11000000#32 = true := by decide +kernel
theorem test_fmul_carry : ends (exec (.fmul 0x3F800001#32 0x3FFFFFFF#32) State.reset) (fun t =>
    t.res0 == 0x40000000#32 && t.res1 == 0#32 && t.res2 == 1#32 && t.res3 == 0x800000#32) = true := by
  decide +kernel
theorem test_fmul_below_normal :
    raises (exec (.fmul 0x00FFFFFF#32 0x3F000000#32) State.reset) .fduDomain 0x12000000#32 = true := by
  decide +kernel
theorem test_fdiv_third : ends (exec (.fdiv 0x3F800000#32 0x40400000#32) State.reset) (fun t =>
    t.res0 == 0x3EAAAAAB#32) = true := by decide +kernel
theorem test_fdiv_underflow : ends (exec (.fdiv 0x00800000#32 0x40000000#32) State.reset) (fun t =>
    t.res0 == 0x00400000#32) = true := by decide +kernel
theorem test_fpow2_subnormal : ends (exec (.fpow2 0xFFFFFF6B#32) State.reset) (fun t => t.res0 == 1#32) = true := by
  decide +kernel
theorem test_fpow2_minimum : ends (exec (.fpow2 0x80000000#32) State.reset) (fun t => t.res0 == 0#32) = true := by
  decide +kernel

/-! ### RCU (95 sections 3.1 to 3.6) -/

theorem test_recon_rounded : ends (exec (.recon 0x00400001#32 1#32 0x3FC00000#32) State.reset) (fun t =>
    t.res0 == 0x3FC00003#32) = true := by decide +kernel
theorem test_recon_minimum : ends (exec (.recon 0xFF800000#32 23#32 0x3F800000#32) State.reset) (fun t =>
    t.res0 == 0xCB000000#32) = true := by decide +kernel
theorem test_resid_binade : ends (exec (.resid 0x40000001#32 0x3FFFFFFF#32) State.reset) (fun t =>
    t.res0 == 3#32 && t.res1 == 1#32 && t.res2 == 1#32) = true := by decide +kernel
theorem test_resid_order :
    raises (exec (.resid 0x3F800000#32 0x3F800001#32) State.reset) .rcuOrder 0x21000000#32 = true := by
  decide +kernel
theorem test_unres_renormalizes : ends (exec (.unres 0x3FFFFFFF#32 3#32) State.reset) (fun t =>
    t.res0 == 0x40000001#32) = true := by decide +kernel
theorem test_unres_odd :
    raises (exec (.unres 0x3FFFFFFF#32 2#32) State.reset) .rcuRange 0x22000000#32 = true := by decide +kernel
theorem test_nwidth_minus_one : ends (exec (.nwidth true 0xFFFFFFFF#32 3#32) State.reset) (fun t =>
    t.res0 == 23#32) = true := by decide +kernel
theorem test_nwidth_hb :
    raises (exec (.nwidth false 5#32 4#32) State.reset) .badOperand 0x23000000#32 = true := by decide +kernel
theorem test_packa_bytes : ends (exec (.packa 0x40490FD0#32 0#32) State.reset) (fun t =>
    t.res0 == 4#32 && t.sym == [(0, ⟨0x40#8, 8#4⟩), (1, ⟨0x49#8, 8#4⟩), (2, ⟨0x0F#8, 8#4⟩), (3, ⟨0xD0#8, 8#4⟩)]) =
    true := by decide +kernel
theorem test_packb_nine_bits : ends (exec (.packb 0x1AB#32 9#32 20#32) State.reset) (fun t =>
    t.res0 == 22#32 && t.sym == [(20, ⟨0x80#8, 1#4⟩), (21, ⟨0xAB#8, 8#4⟩)]) = true := by decide +kernel
theorem test_packb_wide :
    raises (exec (.packb 4#32 2#32 0#32) State.reset) .rcuRange 0x25000000#32 = true := by decide +kernel
theorem test_unpacka_word : ends (exec (.unpacka 0#32) (withBytes [0x40#8, 0x49#8, 0x0F#8, 0xD0#8])) (fun t =>
    t.res0 == 0x40490FD0#32 && t.res1 == 4#32) = true := by decide +kernel
theorem test_unpackb_mask : ends (exec (.unpackb 0#32 12#32) (withBytes [0x1F#8, 0x23#8])) (fun t =>
    t.res0 == 0x123#32 && t.res1 == 2#32) = true := by decide +kernel
theorem test_unpackb_unwritten : stops (exec (.unpackb 0#32 12#32) (withBytes [0x1F#8])) .readUnwritten = true := by
  decide +kernel

/-! ### MDC (95 sections 4.1, 4.3, 4.4) -/

theorem test_dflush_all : ends (exec (.dflush 255) { State.reset with dict := [.poisoned, .poisoned] }) (fun t =>
    t.dict == [.live Dict.fresh, .live Dict.fresh]) = true := by decide +kernel
/-- 4.1: "ABABABA" gives the codes 65, 66, 258, 260 and the entries 258, 259, 260. -/
theorem test_denc_reference :
    ends (exec (.denc 0 0#32 7#32) (withBytes [0x41#8, 0x42#8, 0x41#8, 0x42#8, 0x41#8, 0x42#8, 0x41#8])) (fun t =>
      t.res0 == 36#32 && t.wptr == 36#32 && t.bit == (withCodes [(9, 65), (9, 66), (9, 258), (9, 260)]).bit &&
      t.channel 0 == .live ⟨[(258, ⟨65, 66#8, 2⟩), (259, ⟨66, 65#8, 2⟩), (260, ⟨258, 65#8, 3⟩)], 261, 9, false⟩) =
    true := by decide +kernel
theorem test_denc_width_zero :
    raises (exec (.denc 0 0#32 1#32) { State.reset with sym := [(0, ⟨0x41#8, 0#4⟩)] }) .badOperand 0x31000000#32 =
    true := by decide +kernel
/-- 4.1: decoding the reference stream; the code 260 arrives when NEXT is 260. -/
theorem test_ddec_reference :
    ends (exec (.ddec 1 16#32 7#32) (withCodes [(9, 65), (9, 66), (9, 258), (9, 260)])) (fun t =>
      t.res0 == 36#32 && t.rptr == 36#32 &&
      t.sym == Memory.writeList [] 16 ([65, 66, 65, 66, 65, 66, 65].map fun b => ⟨BitVec.ofNat 8 b, 8#4⟩) &&
      t.channel 1 == .live ⟨[(258, ⟨65, 66#8, 2⟩), (259, ⟨66, 65#8, 2⟩), (260, ⟨258, 65#8, 3⟩)], 261, 9, false⟩) =
    true := by decide +kernel
/-- 4.3: BUMP widens the code: 65, 511, then 66 at 10 bits. -/
theorem test_ddec_bump :
    ends (exec (.ddec 1 0#32 2#32) (withCodes [(9, 65), (9, 511), (10, 66)])) (fun t =>
      t.res0 == 28#32 && t.channel 1 == .live ⟨[(258, ⟨65, 66#8, 2⟩)], 259, 10, false⟩) = true := by decide +kernel
theorem test_dbackup_copies : ends (exec (.dbackup 2) State.reset) (fun t =>
    t.snapshot 2 == some Dict.fresh && t.snapshot 1 == none) = true := by decide +kernel
theorem test_dresume_no_snapshot : raises (exec (.dresume 0) State.reset) .mdcNoSnap 0x34000000#32 = true := by
  decide +kernel
theorem test_dresume_clears_poison :
    ends (exec (.dresume 1) { State.reset with dict := [.live Dict.fresh, .poisoned], snap := [none, some Dict.fresh] })
      (fun t => t.channel 1 == .live Dict.fresh && t.snapshot 1 == some Dict.fresh) = true := by decide +kernel
theorem test_dstat_reset : ends (exec (.dstat 0) State.reset) (fun t =>
    t.res0 == 258#32 && t.res1 == 9#32 && t.res2 == 0#32 && t.res3 == 511#32) = true := by decide +kernel
theorem test_dstat_channel : raises (exec (.dstat 4) State.reset) .badChan 0x35040000#32 = true := by decide +kernel

/-! ### Bit port (95 section 5) -/

theorem test_nop : ends (exec .nop State.reset) (fun t => t == { State.reset with cmdcnt := 1#32 }) = true := by
  decide +kernel
theorem test_bwr_low_bits : ends (exec (.bwr 3 0xFFFFFFF6#32) State.reset) (fun t =>
    t.wptr == 3#32 && t.bit == [(0, true), (1, true), (2, false)]) = true := by decide +kernel
theorem test_bwr_bound :
    raises (exec (.bwr 2 1#32) { State.reset with wptr := 2047#32 }) .bitRange 0x40000200#32 = true := by decide +kernel
theorem test_brd_field : ends (exec (.brd 3) { State.reset with bit := [(0, true), (1, true), (2, false)] }) (fun t =>
    t.res0 == 6#32 && t.rptr == 3#32) = true := by decide +kernel
theorem test_brd_unwritten : stops (exec (.brd 1) State.reset) .readUnwritten = true := by decide +kernel
theorem test_balignw_pads : ends (exec .balignw { State.reset with wptr := 3#32 }) (fun t =>
    t.res0 == 5#32 && t.wptr == 8#32 && t.bit == [(3, false), (4, false), (5, false), (6, false), (7, false)]) = true := by
  decide +kernel
theorem test_balignr_skips : ends (exec .balignr { State.reset with rptr := 52#32 }) (fun t =>
    t.res0 == 4#32 && t.rptr == 56#32 && t.bit == []) = true := by decide +kernel
theorem test_setwp_end : ends (exec (.setwp 2048#32) State.reset) (fun t => t.wptr == 2048#32) = true := by
  decide +kernel
theorem test_setwp_past : raises (exec (.setwp 2049#32) State.reset) .bitRange 0x44000000#32 = true := by
  decide +kernel
theorem test_setrp_past : raises (exec (.setrp 2049#32) State.reset) .bitRange 0x45000000#32 = true := by
  decide +kernel

/-! ### Exceptions and the host's window (95 section 6; R36, R222, R230) -/

theorem test_illegal_header : ends (step (fed [0x01000000#32, 5#32])) (fun t =>
    t.err == some .illegalCmd && t.errinfo == 0x01000000#32 && t.fifo == [] && t.statusWord == 0x00000103#32) = true := by
  decide +kernel
theorem test_fifo_overflow :
    ends (step { withTurns [.hostWrite 0x200018 9#32] with
      params := { Params.standard with fifoDepth := 4 }, fifo := [0#32, 0#32, 0#32, 0#32], running := some .nop })
      (fun t => t.err == some .fifoOverflow && t.errinfo == 9#32 && t.fifo == [] && t.running == some .nop) = true := by
  decide +kernel
theorem test_clrerr :
    ends (step { withTurns [.hostWrite 0x200004 0x100#32] with err := some .config, errinfo := 0x20000000#32 })
      (fun t => t.err == none && t.errinfo == 0x20000000#32 && t.statusWord == 1#32) = true := by decide +kernel
/-- 95 section 5: the host word at BIT offset 0 reads 0xC0EEF414. -/
theorem test_host_reads_bits :
    ends (step { withTurns [.hostRead 0x300000] with bit := Memory.writeList [] 0 (bitsMsb 32 0xC0EEF414) })
      (fun t => t.rdata == 0xC0EEF414#32) = true := by decide +kernel
/-- R259: a run ends at the first IDLE state after the last CMD write; the SYM write and the SOFTRESET after it do not show. -/
theorem test_run_end :
    observeRun 9 (withTurns [.hostWrite 0x200018 0#32, .engineRun, .hostWrite 0x210008 0x81F#32,
      .hostWrite 0x200004 0x200#32]) = some ({ State.reset with cmdcnt := 1#32 } : State).observation := by decide +kernel
theorem test_host_writes_sym :
    ends (step (withTurns [.hostWrite 0x210008 0xFFFFF81F#32])) (fun t => t.sym == [(2, ⟨0x1F#8, 8#4⟩)]) = true := by
  decide +kernel

/-! ### Witnesses: for every obligation with hypotheses, a state and operands that meet them, clause by clause, at boundary
values. The theorems are named after the obligations. -/

/-- Small parameters: two channels, 16 symbols, 64 bit positions, a FIFO of four words. -/
def smallParams : Params := { nch := 2, symDepth := 16, bitBytes := 8, fifoDepth := 4, base := 0x200000 }

/-- A dictionary with the one entry 258 = (65, 66, 2). -/
def smallDict : Dict := Dict.fresh.create 65 0x42#8

/-- A state that is not reset's: two equal dictionaries, one snapshot, four symbols, the code 65 at bit 0, a NOP in the
FIFO. -/
def sample : State :=
  { State.initial smallParams with
    dict := [.live smallDict, .live smallDict]
    snap := [some Dict.fresh, none]
    sym := [(0, ⟨0x41#8, 8#4⟩), (1, ⟨0x42#8, 4#4⟩), (2, ⟨0x41#8, 8#4⟩), (3, ⟨0x43#8, 1#4⟩)]
    bit := Memory.writeList [] 0 (bitsLsb 9 65)
    wptr := 9#32
    fifo := [0#32] }

/-- The same with channel 0 poisoned. -/
def poisonedSample : State := { sample with dict := [.poisoned, .live smallDict] }

theorem smallDict_inv : smallDict.Inv := Dict.inv_create Dict.inv_fresh _ (.inl (by decide)) (by decide)

/-- A dictionary of width `w` with `n` entries (65, 66, 2), from 258 on. -/
def filled (w : Nat) : Nat → Dict
  | 0 => { Dict.fresh with w := w }
  | n + 1 => (filled w n).create 65 0x42#8

theorem filled_fields (w n : Nat) : (filled w n).next = 258 + n ∧ (filled w n).w = w ∧ (filled w n).frz = false := by
  induction n with
  | zero => exact ⟨rfl, rfl, rfl⟩
  | succ n ih => exact ⟨by rw [filled, Dict.create_next, ih.1, Nat.add_assoc], ih.2.1, ih.2.2⟩

/-- It has R32's invariants up to `NEXT = 2^W - 1`. -/
theorem filled_inv {w n : Nat} (hw : 9 ≤ w ∧ w ≤ 15) (hn : 258 + n ≤ 2 ^ w - 1) : (filled w n).Inv := by
  induction n with
  | zero =>
    have h := Dict.inv_fresh
    exact ⟨⟨h.ent_wf, h.first_le_next, hw.1, hw.2, h.record_iff, h.record⟩, hn⟩
  | succ n ih =>
    obtain ⟨h1, h2, -⟩ := filled_fields w n
    exact Dict.inv_create (ih (by omega)) _ (.inl (by decide)) (by rw [Dict.bumpCode, h1, h2]; omega)

theorem filled_parent {w n k : Nat} {e : Entry} (h : (filled w n).ent.read k = some e) : e.parent = 65 := by
  induction n with
  | zero => cases h
  | succ n ih =>
    rw [filled, Dict.create_read] at h
    split at h
    · cases h; rfl
    · exact ih h

/-- No entry is below the literal 67, so its match is the literal. -/
theorem filled_match {w n : Nat} (h : (filled w n).Inv) (y : Sym) :
    longestMatch (filled w n).ent ⟨67#8, 8#4⟩ [y] = (67, 1) := by
  have none : candidates (filled w n).ent 67 y = [] := by
    refine List.eq_nil_iff_forall_not_mem.2 fun k hk => ?_
    obtain ⟨⟨e, he, hp, -⟩, -⟩ := (mem_candidates_iff h.ent_wf).1 hk
    rw [filled_parent he] at hp
    cases hp
  change List.foldl _ (67, 1) (candidates (filled w n).ent 67 y) = (67, 1)
  rw [none]
  rfl

theorem smallParams_valid : smallParams.valid := by decide

theorem sample_inv : sample.Inv where
  params_valid := smallParams_valid
  sym_wf := by decide
  sym_bound := by decide
  bit_wf := by decide
  bit_bound := by decide
  wptr_le := by decide
  rptr_le := by decide
  dict_length := rfl
  snap_length := rfl
  dict_inv d h := by
    simp only [sample, List.mem_cons, List.not_mem_nil, Channel.live.injEq, or_false, or_self] at h
    exact h ▸ smallDict_inv
  snap_inv d h := by
    simp only [sample, List.mem_cons, List.not_mem_nil, Option.some.injEq, reduceCtorEq, or_false] at h
    exact h ▸ Dict.inv_fresh
  fifo_length := by decide
  assembler_incomplete := rfl
  err_empties h := by simp [sample, State.initial] at h
  running_assembled h := rfl
  running_wf i h := by simp [sample, State.initial] at h

/-! Encoding and the engine. -/

theorem witness_DecodeOfEncodeIsTheCommand :
    (Instr.denc 255 0#32 0xFFFFFFFF#32).WellFormed ∧ (Instr.bwr 255 0#32).WellFormed ∧ Instr.nop.WellFormed := by decide

theorem witness_DecodedWordsAreTheEncoding : ∃ ws i rest, decode ws = .ok i rest :=
  ⟨[0x35FF0000#32, 3#32], .dstat 255, [3#32], by decide⟩

/-- The boundary values of R75's ranges, one word per must-be-zero field, and the state they are fetched in. -/
theorem witness_IllegalHeadersRaiseIllegalCmd :
    ((fed [0x46000000#32]).engineActs [] ∧ (fed [0x46000000#32]).running = none ∧ (fed [0x46000000#32]).err = none ∧
      (fed [0x46000000#32]).assembler = [] ∧ (fed [0x46000000#32]).fifo = [0x46000000#32]) ∧
    (∀ h ∈ [0x01000000#32, 0x0F000000#32, 0x15000000#32, 0x1F000000#32, 0x28000000#32, 0x2F000000#32, 0x36000000#32,
        0x3F000000#32, 0x46000000#32, 0xFF000000#32],
      (let o := (h.extractLsb' 24 8).toNat
       (0x01 ≤ o ∧ o ≤ 0x0F) ∨ (0x15 ≤ o ∧ o ≤ 0x1F) ∨ (0x28 ≤ o ∧ o ≤ 0x2F) ∨ (0x36 ≤ o ∧ o ≤ 0x3F) ∨ 0x46 ≤ o)) ∧
    (0x00000001#32 : Word).extractLsb' 0 24 ≠ 0#24 ∧ (0x30008000#32 : Word).extractLsb' 0 16 ≠ 0#16 ∧
    (0x40010000#32 : Word).extractLsb' 16 8 ≠ 0#8 ∧ (0x41000080#32 : Word).extractLsb' 0 8 ≠ 0#8 ∧
    (0x23000200#32 : Word).extractLsb' 9 15 ≠ 0#15 :=
  ⟨⟨.inl ⟨rfl, rfl⟩, by decide⟩, by simp, by decide, by decide, by decide, by decide, by decide⟩

/-- The engine by itself, and on a turn of the agenda with another turn after it. -/
theorem witness_StepRunsTheFetchedCommand :
    sample.engineActs [] ∧ ({ sample with agenda := [.engineRun, .resetInput] } : State).engineActs [.resetInput] ∧
      sample.running = none ∧ sample.err = none ∧ decode (sample.assembler ++ sample.fifo) = .ok .nop [] :=
  ⟨.inl ⟨rfl, rfl⟩, .inr rfl, by decide⟩

/-- Each clause: the engine's turn and the turn `engineBegin`; a command executing; a whole command, an illegal header, one
with a word missing, and the halted engine; the idle engine. -/
theorem witness_EngineStartsWaitsAndHalts :
    ({ sample with agenda := [.engineRun, .resetInput] } : State).engineActs [.resetInput] ∧
    ({ sample with agenda := [.engineBegin] } : State).agenda = .engineBegin :: [] ∧
    ({ sample with running := some .nop } : State).running = some .nop ∧
    (decode ({ sample with agenda := [.engineBegin] } : State).fifo = .ok .nop []) ∧
    (let s := fed [0x46000000#32]; decode (s.assembler ++ s.fifo) = .illegal 0x46000000#32) ∧
    (let s := fed [0x12000000#32, 0#32]; s.assembler ++ s.fifo ≠ [] ∧ decode (s.assembler ++ s.fifo) = .incomplete) ∧
    ({ State.reset with err := some .config } : State).err ≠ none ∧ State.reset.idle = true :=
  ⟨.inr rfl, by decide⟩

/-! FDU. -/

/-- The three legal ranges of R101 at their ends, and three illegal triples. -/
theorem witness_FrecRecomposesLegalTriples :
    ((0xFFFFFF81#32 : Word).toInt = -127 ∧ (0x7FFFFF#32 : Word).toNat < 2 ^ 23) ∧
    ((0xFFFFFF82#32 : Word).toInt = -126 ∧ (0x7F#32 : Word).toInt = 127 ∧ 2 ^ 23 ≤ (0x800000#32 : Word).toNat ∧
      (0xFFFFFF#32 : Word).toNat < 2 ^ 24) ∧
    ((0x80#32 : Word).toInt = 128 ∧ (0#32 : Word).toNat < 2 ^ 23) ∧
    (1 < (2#32 : Word).toNat ∧ (0xFFFFFF80#32 : Word).toInt < -127 ∧ (0x81#32 : Word).toInt = 129) := by decide

theorem witness_FrecInvertsFdec : ∃ t, exec (.fdec 0x7FC00001#32) State.reset = .next t ∧ decide (t.err = none) = true :=
  exists_next (by decide +kernel)

theorem absVal_maximum : absVal 0x7F7FFFFF#32 = (2 ^ 24 - 1) * 2 ^ 104 := by
  have h : magnitude 0x7F7FFFFF#32 = 2 ^ 24 - 1 ∧ scaleExp 0x7F7FFFFF#32 = 254 := by decide +kernel
  rw [absVal, h.1, h.2]
  norm_num

theorem absVal_one : absVal 0x3F800000#32 = 1 := by
  have h : magnitude 0x3F800000#32 = 2 ^ 23 ∧ scaleExp 0x3F800000#32 = 127 := by decide +kernel
  rw [absVal, h.1, h.2]
  norm_num

/-- The least and the greatest normal exponent; 1.0 squared is in range, the largest finite word squared is not. -/
theorem witness_FmulRoundsToNearestEven :
    (1 ≤ expField 0x00800000#32 ∧ expField 0x00800000#32 ≤ 254) ∧
      (1 ≤ expField 0x7F7FFFFF#32 ∧ expField 0x7F7FFFFF#32 ≤ 254) ∧
      ((2 : ℚ) ^ (-126 : ℤ) - (2 : ℚ) ^ (-151 : ℤ) ≤ absVal 0x3F800000#32 * absVal 0x3F800000#32 ∧
        absVal 0x3F800000#32 * absVal 0x3F800000#32 < (2 : ℚ) ^ (128 : ℤ) - (2 : ℚ) ^ (103 : ℤ)) ∧
      (2 : ℚ) ^ (128 : ℤ) - (2 : ℚ) ^ (103 : ℤ) ≤ absVal 0x7F7FFFFF#32 * absVal 0x7F7FFFFF#32 := by
  refine ⟨by decide, by decide, ⟨?_, ?_⟩, ?_⟩
  · rw [absVal_one]; norm_num
  · rw [absVal_one]; norm_num
  · rw [absVal_maximum]; norm_num

theorem witness_FmulOfZerosAndSpecials :
    ((0x80000000#32 : Word).extractLsb' 0 31 = 0#31 ∧ 1 ≤ expField 0x00800000#32 ∧ expField 0x00800000#32 ≤ 254) ∧
    (expField 0x7F800000#32 = 255 ∧ expField 0x00000001#32 = 0 ∧ fracField 0x00000001#32 ≠ 0) := by decide

/-- The largest finite word over 1.0 is in range, over 0.5 it is past the largest finite word; a NaN and a zero divisor. -/
theorem witness_FdivRoundsToNearestEvenOrRaises :
    expField 0x7F7FFFFF#32 ≠ 255 ∧ expField 0x3F800000#32 ≠ 255 ∧ expField 0x3F000000#32 ≠ 255 ∧
      (0x3F800000#32 : Word).extractLsb' 0 31 ≠ 0#31 ∧ (0x3F000000#32 : Word).extractLsb' 0 31 ≠ 0#31 ∧
      absVal 0x7F7FFFFF#32 / absVal 0x3F800000#32 < 2 ^ 128 - 2 ^ 103 ∧
      2 ^ 128 - 2 ^ 103 ≤ absVal 0x7F7FFFFF#32 / absVal 0x3F000000#32 ∧
      expField 0x7FC00000#32 = 255 ∧ (0x80000000#32 : Word).extractLsb' 0 31 = 0#31 := by
  have h2 : magnitude 0x3F000000#32 = 2 ^ 23 ∧ scaleExp 0x3F000000#32 = 126 := by decide +kernel
  have e2 : absVal 0x3F000000#32 = 1 / 2 := by rw [absVal, h2.1, h2.2]; norm_num
  refine ⟨by decide, by decide, by decide, by decide, by decide, ?_, ?_, by decide, by decide⟩
  · rw [absVal_maximum, absVal_one]; norm_num
  · rw [absVal_maximum, e2]; norm_num

/-! RCU. -/

/-- INTRES 0, 1, 24 and 25; shift 255 and 256; q at both ends of the 24-bit range and past it; a outside 1..254; a first
product that is DOMAIN, and one that is not. -/
theorem witness_ReconChecksThenMultipliesTwice :
    ((0#5 : BitVec 5).toNat = 0 ∧ 24 < (25#5 : BitVec 5).toNat ∧ 1 ≤ (1#5 : BitVec 5).toNat ∧
      (24#5 : BitVec 5).toNat ≤ 24) ∧
    (255 < (256#32 : Word).toNat ∧ (255#32 : Word).toNat ≤ 255) ∧
    ((0xFF800000#32 : Word).toInt = -2 ^ 23 ∧ (0x7FFFFF#32 : Word).toInt = 2 ^ 23 - 1 ∧
      2 ^ 23 - 1 < (0x800000#32 : Word).toInt) ∧
    (expField 0x7F800000#32 = 255 ∧ expField 0x3F800000#32 = 127) ∧
    multiply (decompose (intToBinary32 1)) (decompose (powerOfTwo (255 + 1 - 24))) = none ∧
    (∃ t, multiply (decompose (intToBinary32 1)) (decompose (powerOfTwo (0 + 1 - 24))) = some t ∧
      (multiply t (decompose 0x00800000#32)).isNone ∧ (multiply t (decompose 0x3F800000#32)).isSome) :=
  ⟨by decide, by decide, by decide, by decide, by decide +kernel,
    ⟨false, -23, 2 ^ 23⟩, by decide +kernel, by decide +kernel, by decide +kernel⟩

theorem witness_ReconIsExactForUnitMultiplier :
    1 ≤ State.reset.intres.toNat ∧ State.reset.intres.toNat ≤ 24 ∧ (103#32 : Word).toNat ≤ 103 ∧
      (0xFF800000#32 : Word).toInt = -2 ^ (State.reset.intres.toNat - 1) ∧ (0#32 : Word).toInt = 0 := by decide

/-- Not normal; signs differ, a smaller x, a negative delta; D at 2^24 - 1 or less and past it. -/
theorem witness_ResidGivesTheMantissaDelta :
    expField 0x00000001#32 = 0 ∧ signBit 0xBF800000#32 ≠ signBit 0x3F800000#32 ∧
      expField 0x3F000000#32 < expField 0x3F800000#32 ∧ fracField 0x3F800000#32 < fracField 0x3F800001#32 ∧
      ends (exec (.resid 0x3FFFFFFF#32 0x3F800000#32) State.reset) (fun t => t.err == none) = true ∧
      raises (exec (.resid 0x40000000#32 0x3F000000#32) State.reset) .rcuRange 0x21000000#32 = true := by decide +kernel

/-- D at 2^24; T odd; the exponent at 254; T at 2^24 - 1; T at 2^24. -/
theorem witness_UnresAddsTheDelta :
    2 ^ 24 ≤ (0x01000000#32 : Word).toNat ∧ (2 ^ 23 + fracField 0x3FFFFFFF#32 + 2) % 2 = 1 ∧
      expField 0x7F7FFFFF#32 = 254 ∧ 2 ^ 23 + fracField 0x3F800000#32 + (0x7FFFFF#32 : Word).toNat = 2 ^ 24 - 1 ∧
      2 ^ 23 + fracField 0x3FFFFFFF#32 + 1 = 2 ^ 24 ∧ expField 0x3FFFFFFF#32 < 254 := by decide

theorem witness_UnresInvertsResid : ∃ t, exec (.resid 0x40000001#32 0x3FFFFFFF#32) State.reset = .next t ∧
    decide (t.err = none) = true :=
  exists_next (by decide +kernel)

/-- |q| at 0, 1, 2^24 - 1 and 2^24; hb at 3 and 4; L at 1 and 24. -/
theorem witness_NwidthGivesThePartBWidth :
    (0#32 : Word).toInt.natAbs = 0 ∧ (0xFF000000#32 : Word).toInt.natAbs = 2 ^ 24 ∧ (3#32 : Word).toNat ≤ 3 ∧
      3 < (4#32 : Word).toNat ∧ (2 ^ (1 - 1) ≤ (0xFFFFFFFF#32 : Word).toInt.natAbs ∧
        (0xFFFFFFFF#32 : Word).toInt.natAbs < 2 ^ 1) ∧
      (2 ^ (24 - 1) ≤ (0xFFFFFF#32 : Word).toInt.natAbs ∧ (0xFFFFFF#32 : Word).toInt.natAbs < 2 ^ 24) := by decide

theorem witness_PackaStoresFourSymbols :
    State.reset.params.symDepth < (1021#32 : Word).toNat + 4 ∧
      (1020#32 : Word).toNat + 4 ≤ State.reset.params.symDepth := by decide

/-- W at 25 and 24; D at 2^W and 2^W - 1; the last entry past the end and at it; W = 0. -/
theorem witness_PackbStoresTheResidualSymbols :
    24 < (25#32 : Word).toNat ∧ 2 ^ (24#32 : Word).toNat ≤ (0x1000000#32 : Word).toNat ∧
      (0xFFFFFF#32 : Word).toNat < 2 ^ (24#32 : Word).toNat ∧
      State.reset.params.symDepth < (1022#32 : Word).toNat + ((24#32 : Word).toNat + 7) / 8 ∧
      (1021#32 : Word).toNat + ((24#32 : Word).toNat + 7) / 8 ≤ State.reset.params.symDepth ∧
      (0#32 : Word).toNat < 2 ^ (0#32 : Word).toNat := by decide

/-- The sample has entries 0 to 3 written of 16: index 13 is past the end, index 1 has an unwritten entry, 0 has none. -/
theorem witness_UnpackReadsWrittenEntries :
    sample.params.symDepth < (13#32 : Word).toNat + 4 ∧ (1#32 : Word).toNat + 4 ≤ sample.params.symDepth ∧
      sample.sym.read ((1#32 : Word).toNat + 3) = none ∧
      (∀ j, j < 4 → sample.sym.read ((0#32 : Word).toNat + j) ≠ none) ∧ (24#32 : Word).toNat ≤ 24 ∧
      24 < (25#32 : Word).toNat ∧ sample.params.symDepth < (14#32 : Word).toNat + ((24#32 : Word).toNat + 7) / 8 := by
  decide

/-- PACKA of a NaN; PACKB 0x123, 12 at 10, and a state whose first byte differs below the width. -/
theorem witness_UnpackInvertsPack :
    (∃ t, exec (.packa 0x7FC00001#32 12#32) sample = .next t ∧ decide (t.err = none) = true) ∧
    ∃ t u : State, exec (.packb 0x123#32 12#32 10#32) State.reset = .next t ∧ t.err = none ∧ u.params = t.params ∧
      t.sym ≠ u.sym ∧
      ∀ j, j < ((12#32 : Word).toNat + 7) / 8 → ∃ x y : Sym, t.sym.read ((10#32 : Word).toNat + j) = some x ∧
        u.sym.read ((10#32 : Word).toNat + j) = some y ∧ topBits x.width.toNat y.sym = topBits x.width.toNat x.sym := by
  refine ⟨exists_next (by decide +kernel), ?_⟩
  obtain ⟨t, ht, h⟩ := exists_next (r := exec (.packb 0x123#32 12#32 10#32) State.reset)
    (p := fun t => t.err == none && t.params == Params.standard && t.sym == [(10, ⟨0x10#8, 4#4⟩), (11, ⟨0x23#8, 8#4⟩)])
    (by decide +kernel)
  simp only [Bool.and_eq_true, beq_iff_eq] at h
  refine ⟨t, { State.reset with sym := [(10, ⟨0x1F#8, 8#4⟩), (11, ⟨0x23#8, 8#4⟩)] }, ht, h.1.1, h.1.2.symm, ?_, ?_⟩
  · rw [h.2]; decide
  · rw [h.2]
    intro j hj
    have : j = 0 ∨ j = 1 := by simp at hj; omega
    rcases this with rfl | rfl
    · exact ⟨_, _, rfl, rfl, by decide⟩
    · exact ⟨_, _, rfl, rfl, by decide⟩

/-! MDC. The channels 0 and 1 of the sample exist, channel 2 does not. -/

theorem witness_DflushLeavesFreshDictionaries :
    1 ≠ 255 ∧ 1 < sample.params.nch ∧ 2 ≠ 255 ∧ sample.params.nch ≤ 2 := by decide

theorem witness_DbackupAndDresumeCopyTheDictionary :
    sample.params.nch ≤ 2 ∧ 1 < sample.params.nch ∧ poisonedSample.dict[0]? = some .poisoned ∧
      sample.dict[1]? = some (.live smallDict) ∧ sample.snap[1]? = some none ∧
      sample.snap[0]? = some (some Dict.fresh) := by decide

theorem witness_DstatReportsTheScalars :
    sample.params.nch ≤ 2 ∧ 1 < sample.params.nch ∧ sample.dict[1]? = some (.live smallDict) ∧
      sample.snap[1]? = some none ∧ poisonedSample.dict[0]? = some .poisoned ∧
      poisonedSample.snap[0]? = some (some Dict.fresh) := by decide

/-- The one chain below 65 over the symbol 66. -/
theorem witness_MatchIsTheFirstLongestChain : smallDict.Inv ∧ Chain smallDict.ent 65 [⟨0x42#8, 4#4⟩] [258] :=
  ⟨smallDict_inv, (mem_candidates_iff smallDict_inv.ent_wf).1 (by decide), trivial⟩

/-- The last symbol; then, with a symbol left: FRZ = 1; NEXT + 1 just below the BUMP code; at it, width 9; past it, width 9;
at it, width 15. -/
theorem witness_EncodingEmitsMatchesAndGrows :
    (smallDict.Inv ∧ (longestMatch smallDict.ent ⟨0x41#8, 8#4⟩ [⟨0x42#8, 4#4⟩]).2 = 1 + 1) ∧
    (({ Dict.fresh with frz := true } : Dict).Inv ∧
      [⟨67#8, 8#4⟩, (⟨65#8, 8#4⟩ : Sym)].drop (longestMatch Dict.fresh.ent ⟨67#8, 8#4⟩ [⟨65#8, 8#4⟩]).2 = [⟨65#8, 8#4⟩]) ∧
    (∀ w n, (w, n) ∈ [(9, 251), (9, 252), (9, 253), (15, 32508)] → (filled w n).Inv ∧ (filled w n).frz = false ∧
      [⟨67#8, 8#4⟩, (⟨65#8, 8#4⟩ : Sym)].drop (longestMatch (filled w n).ent ⟨67#8, 8#4⟩ [⟨65#8, 8#4⟩]).2 =
        [⟨65#8, 8#4⟩]) ∧
    (filled 9 251).next + 1 < 2 ^ 9 - 1 ∧ 2 ^ 9 - 1 = (filled 9 252).next + 1 ∧ 2 ^ 9 - 1 < (filled 9 253).next + 1 ∧
      2 ^ 15 - 1 = (filled 15 32508).next + 1 := by
  refine ⟨⟨smallDict_inv, by decide⟩, ⟨?_, by decide⟩, fun w n h => ?_, by simp [filled_fields], by simp [filled_fields],
    by simp [filled_fields], by simp [filled_fields]⟩
  · have h := Dict.inv_fresh
    exact ⟨⟨h.ent_wf, h.first_le_next, h.w_lower, h.w_upper, h.record_iff, h.record⟩, h.next_le⟩
  · have hi : (filled w n).Inv := by
      simp only [List.mem_cons, Prod.mk.injEq, List.not_mem_nil, or_false] at h
      rcases h with ⟨rfl, rfl⟩ | ⟨rfl, rfl⟩ | ⟨rfl, rfl⟩ | ⟨rfl, rfl⟩ <;> exact filled_inv (by decide) (by decide)
    exact ⟨hi, (filled_fields w n).2.2, by rw [filled_match hi]; rfl⟩

/-- The four symbols of the sample. -/
def sampleSyms : List Sym := [⟨0x41#8, 8#4⟩, ⟨0x42#8, 4#4⟩, ⟨0x41#8, 8#4⟩, ⟨0x43#8, 1#4⟩]

/-- DENC of all four symbols fits (18 bits: codes 258 and 258 under the masks). -/
theorem witness_DencWritesTheCodeSequence :
    0 < sample.params.nch ∧ sample.dict[0]? = some (.live smallDict) ∧
      (0#32 : Word).toNat + (4#32 : Word).toNat ≤ sample.params.symDepth ∧ sampleSyms.length = (4#32 : Word).toNat ∧
      (∀ j, j < (4#32 : Word).toNat → sample.sym.read ((0#32 : Word).toNat + j) = sampleSyms[j]?) ∧
      (∀ x ∈ sampleSyms, 1 ≤ x.width.toNat ∧ x.width.toNat ≤ 8) ∧
      sample.wptr.toNat + (smallDict.encode sampleSyms).1.length ≤ sample.bitLen := by decide +kernel

theorem witness_DencOfAtMostOneSymbol :
    sample.params.valid ∧ sample.wptr.toNat ≤ sample.bitLen ∧ 1 < sample.params.nch ∧
      sample.dict[1]? = some (.live smallDict) ∧ (3#32 : Word).toNat + (1#32 : Word).toNat ≤ sample.params.symDepth ∧
      sample.sym.read (3#32 : Word).toNat = some ⟨0x43#8, 1#4⟩ ∧
      sample.wptr.toNat + smallDict.w ≤ sample.bitLen := by decide

/-- Each check: the channel; the poison; index 16 of 16; a width of 0 and of 9; entry 4, unwritten; WPTR too near the end. -/
theorem witness_DencChecksInOrder :
    sample.params.nch ≤ 2 ∧ poisonedSample.dict[0]? = some .poisoned ∧
      sample.params.symDepth < (16#32 : Word).toNat + (1#32 : Word).toNat ∧
      (let s := { sample with sym := [(0, ⟨0x41#8, 9#4⟩)] }
       s.sym.read ((0#32 : Word).toNat + 0) = some ⟨0x41#8, 9#4⟩ ∧ ¬ (1 ≤ (9#4 : BitVec 4).toNat ∧ (9#4 : BitVec 4).toNat ≤ 8) ∧
         ¬ (1 ≤ (0#4 : BitVec 4).toNat ∧ (0#4 : BitVec 4).toNat ≤ 8)) ∧
      sample.sym.read ((3#32 : Word).toNat + 1) = none ∧
      (∀ k, k < 1 → ∃ x, sample.sym.read ((3#32 : Word).toNat + k) = some x ∧ 1 ≤ x.width.toNat ∧ x.width.toNat ≤ 8) ∧
      ({ sample with wptr := 64#32 } : State).bitLen < (64#32 : Word).toNat + (smallDict.encode sampleSyms).1.length := by
  refine ⟨by decide, by decide, by decide, by decide, by decide, ?_, by decide +kernel⟩
  intro k hk
  obtain rfl : k = 0 := by omega
  exact ⟨_, rfl, by decide, by decide⟩

/-- The code 65 stands at bits 0 to 8 of the sample, at RPTR = 0. -/
theorem witness_DdecOfAtMostOneLiteral :
    sample.params.valid ∧ sample.rptr.toNat ≤ sample.bitLen ∧ 1 < sample.params.nch ∧
      sample.dict[1]? = some (.live smallDict) ∧ 9 ≤ smallDict.w ∧
      (15#32 : Word).toNat + (1#32 : Word).toNat ≤ sample.params.symDepth ∧
      sample.rptr.toNat + smallDict.w ≤ sample.bitLen ∧
      ∀ j, j < smallDict.w → sample.bit.read (sample.rptr.toNat + j) = some ((65#8 : Byte).toNat.testBit j) := by
  decide +kernel

/-- Each control code before the literal 65, at width 9 (FLUSH, FREEZE, BUMP) and at width 15 (the alias of FLUSH). -/
theorem witness_DdecAppliesControlCodes :
    (∀ j, j < 9 → (withCodes [(9, 256), (9, 65)]).bit.read (0 + j) = some ((256 : Nat).testBit j)) ∧
    (∀ j, j < 9 → (withCodes [(9, 257), (9, 65)]).bit.read (0 + 9 + j) = some ((65 : Nat).testBit j)) ∧
    (∀ j, j < 10 → (withCodes [(9, 511), (10, 65)]).bit.read (0 + 9 + j) = some ((65 : Nat).testBit j)) ∧
    (∀ j, j < 15 → (withCodes [(15, 32767), (9, 65)]).bit.read (0 + j) = some ((32767 : Nat).testBit j)) ∧
    State.reset.params.valid ∧ State.reset.dict[1]? = some (.live Dict.fresh) ∧ 0 + 9 + 10 ≤ State.reset.bitLen := by
  decide +kernel

/-- The state in which `code` stands alone at RPTR. -/
def sampleWithCode (code : Nat) : State := { sample with bit := (withCodes [(9, code)]).bit }

/-- The locals of R171 at the start of a DDEC on a channel of the sample. -/
def sampleStart : Decoding := { p := 0, d := smallDict, prev := none, out := [] }

/-- After no code: `n = 0`; a code without bytes (NEXT with no previous code) and one that would not fit; an unwritten bit
(RPTR = 1); RPTR too near the end. After the one code 65: `n = 1`. -/
theorem witness_DdecFollowsItsCodes :
    (1 < sample.params.nch ∧ sample.dict[1]? = some (.live smallDict) ∧ smallDict.Inv ∧
      (15#32 : Word).toNat + (1#32 : Word).toNat ≤ sample.params.symDepth) ∧
    (Relation.ReflTransGen (DecodeRound sample.bit sample.bitLen 0) sampleStart sampleStart ∧
      sampleStart.out.length = (0#32 : Word).toNat) ∧
    (Relation.ReflTransGen (DecodeRound sample.bit sample.bitLen 1) sampleStart
      { p := 9, d := smallDict, prev := some 65, out := [0x41#8] } ∧ [0x41#8].length = (1#32 : Word).toNat) ∧
    (CodeAt (sampleWithCode 259).bit 64 sampleStart 259 ∧ CodeEffect 1 { sampleStart with p := 0 + 9 } 259 none) ∧
    (CodeAt (sampleWithCode 258).bit 64 sampleStart 258 ∧ CodeEffect 1 { sampleStart with p := 0 + 9 } 258 none) ∧
    (sample.bit.read (1 + 8) = none ∧ 1 + smallDict.w ≤ sample.bitLen) ∧ sample.bitLen < 56 + smallDict.w := by
  have known : Decoding.Known sampleStart := by rintro q ⟨⟩
  refine ⟨⟨by decide, by decide, smallDict_inv, by decide⟩, ⟨.refl, rfl⟩,
    ⟨.single ⟨by decide, 65, ⟨by decide, by decide, by decide +kernel⟩, ?_⟩, rfl⟩,
    ⟨⟨by decide, by decide, by decide +kernel⟩, ?_⟩, ⟨⟨by decide, by decide, by decide +kernel⟩, ?_⟩,
    by decide +kernel, by decide⟩
  · exact (applyCode_eq_iff (t := { sampleStart with p := 9 }) smallDict_inv known).1 (by decide +kernel)
  · exact (applyCode_eq_iff (t := { sampleStart with p := 9 }) smallDict_inv known).1 (by decide +kernel)
  · exact (applyCode_eq_iff (t := { sampleStart with p := 9 }) smallDict_inv known).1 (by decide +kernel)

/-- A DDEC that ends with MDC_CORRUPT and one that ends with BIT_RANGE; first codes at both ends of the corrupt range
(259 = NEXT and 510), and RPTR too near the end. -/
theorem witness_DdecFatalErrorsPoison :
    (sample.err = none ∧
      (∃ t, exec (.ddec 0 0#32 1#32) (sampleWithCode 258) = .next t ∧ decide (t.err = some .mdcCorrupt) = true) ∧
      (∃ t, exec (.ddec 0 0#32 1#32) { sample with rptr := 56#32 } = .next t ∧
        decide (t.err = some .bitRange) = true)) ∧
    sample.dict[0]? = some (.live smallDict) ∧ smallDict.Inv ∧ (1#32 : Word) ≠ 0#32 ∧
      (smallDict.next ≤ 259 ∧ 510 < 2 ^ smallDict.w - 1) ∧
      (∀ j, j < smallDict.w → (sampleWithCode 259).bit.read (0 + j) = some ((259 : Nat).testBit j)) ∧
      sample.bitLen < (56#32 : Word).toNat + smallDict.w :=
  ⟨⟨rfl, exists_next (by decide +kernel), exists_next (by decide +kernel)⟩, by decide, smallDict_inv, by decide, by decide,
    by decide +kernel, by decide⟩

/-- Each check: the channel; the poison; index 16 of 16; an unwritten bit in the first code (RPTR = 1). -/
theorem witness_DdecChecksInOrder :
    sample.params.nch ≤ 2 ∧ poisonedSample.dict[0]? = some .poisoned ∧
      sample.params.symDepth < (16#32 : Word).toNat + (1#32 : Word).toNat ∧
      (1#32 : Word).toNat + smallDict.w ≤ sample.bitLen ∧ 8 < smallDict.w ∧
      sample.bit.read ((1#32 : Word).toNat + 8) = none := by decide +kernel

theorem witness_DdecInvertsDenc :
    sample.Inv ∧ (0 : Nat) ≠ 1 ∧ sample.dict[0]? = some (.live smallDict) ∧ sample.dict[1]? = some (.live smallDict) ∧
      (12#32 : Word).toNat + (4#32 : Word).toNat ≤ sample.params.symDepth ∧ sampleSyms.length = (4#32 : Word).toNat ∧
      (∀ j, j < (4#32 : Word).toNat → sample.sym.read ((0#32 : Word).toNat + j) = sampleSyms[j]?) ∧
      (∀ x ∈ sampleSyms, 1 ≤ x.width.toNat ∧ x.width.toNat ≤ 8) ∧
      sample.wptr.toNat + (smallDict.encode sampleSyms).1.length ≤ sample.bitLen :=
  ⟨sample_inv, by decide, by decide, by decide, by decide, by decide, by decide, by decide, by decide +kernel⟩

theorem witness_DencAfterResumeWritesTheSameBits :
    sample.Inv ∧ sample.err = none ∧ ∃ s1 s2, exec (.dbackup 1) sample = .next s1 ∧ s1.err = none ∧
      exec (.denc 1 0#32 4#32) s1 = .next s2 ∧ s2.err = none := by
  obtain ⟨s2, h2, e2⟩ := exists_next (r := exec (.denc 1 0#32 4#32)
    (State.count (State.setSnap sample 1 (some smallDict)))) (p := fun t => t.err == none) (by decide +kernel)
  exact ⟨sample_inv, rfl, _, s2, rfl, rfl, h2, by simpa using e2⟩

/-- Channel 0 of the sample and channel 1 of the poisoned one, flushed, then the same four symbols. -/
theorem witness_EncodingAfterFlushForgetsThePast :
    ∃ t t' u u', exec (.dflush 0) sample = .next t ∧ exec (.dflush 1) { sample with wptr := 0#32 } = .next t' ∧
      t.err = none ∧ t'.err = none ∧ exec (.denc 0 0#32 4#32) t = .next u ∧ exec (.denc 1 0#32 4#32) t' = .next u' ∧
      u.err = none ∧ u'.err = none := by
  obtain ⟨u, hu, eu⟩ := exists_next (r := exec (.denc 0 0#32 4#32) (State.count (State.setDict sample 0 (.live Dict.fresh))))
    (p := fun t => t.err == none) (by decide +kernel)
  obtain ⟨u', hu', eu'⟩ := exists_next (r := exec (.denc 1 0#32 4#32)
    (State.count (State.setDict { sample with wptr := 0#32 } 1 (.live Dict.fresh)))) (p := fun t => t.err == none)
    (by decide +kernel)
  exact ⟨_, _, u, u', rfl, rfl, rfl, rfl, hu, hu', by simpa using eu, by simpa using eu'⟩

/-- NEXT below the BUMP code, at it (511 at width 9), and at its greatest value (32767). -/
theorem witness_EncodingKeepsTheDictionaryInvariant :
    (smallDict.Inv ∧ smallDict.next < 2 ^ smallDict.w - 1) ∧
      ((filled 9 253).Inv ∧ (filled 9 253).next = 2 ^ 9 - 1) ∧ ((filled 15 32509).Inv ∧ (filled 15 32509).next = 32767) :=
  ⟨⟨smallDict_inv, by decide⟩, ⟨filled_inv (by decide) (by decide), (filled_fields _ _).1⟩,
    ⟨filled_inv (by decide) (by decide), (filled_fields _ _).1⟩⟩

/-! Bit port. -/

/-- n at 0, 1, 32 and 33; WPTR + n at the end and past it. -/
theorem witness_BwrWritesTheField :
    ((0 : Nat) < 1 ∧ 32 < (33 : Nat)) ∧ ({ sample with wptr := 33#32 } : State).bitLen < (33#32 : Word).toNat + 32 ∧
      (32#32 : Word).toNat + 32 ≤ ({ sample with wptr := 32#32 } : State).bitLen := by decide

/-- RPTR + n past the end; an unwritten bit (9); all bits written (0 to 8). -/
theorem witness_BrdReadsTheField :
    ({ sample with rptr := 64#32 } : State).bitLen < (64#32 : Word).toNat + 1 ∧ sample.bit.read (sample.rptr.toNat + 9) = none ∧
      ∀ j, j < 9 → sample.bit.read (sample.rptr.toNat + j) ≠ none := by decide +kernel

theorem witness_BrdInvertsBwr : sample.params.valid ∧ sample.wptr.toNat ≤ sample.bitLen ∧ sample.err = none ∧
    ∃ t, exec (.bwr 32 0xDEADBEEF#32) sample = .next t ∧ decide (t.err = none) = true :=
  ⟨by decide, by decide, rfl, exists_next (by decide +kernel)⟩

theorem witness_NopOnlyCounts : (0x00800000#32 : Word).extractLsb' 24 8 = 0#8 ∧
    (0x00800000#32 : Word).extractLsb' 0 24 ≠ 0#24 := by decide

theorem witness_AlignMovesToTheByteBoundary :
    sample.params.valid ∧ sample.wptr.toNat ≤ sample.bitLen ∧ sample.rptr.toNat ≤ sample.bitLen := by decide

theorem witness_SetPositionsWithinTheBitMemory :
    (64#32 : Word).toNat ≤ 8 * sample.params.bitBytes ∧ 8 * sample.params.bitBytes < (65#32 : Word).toNat := by decide

/-! Exceptions and whole-machine rules. -/

/-- A command that raises while ERR = 1; with ERR = 0 one that raises and writes nothing, a fatal DDEC, a DENC that does not
fit. -/
theorem witness_RaisingCommandsWriteNothing :
    (∃ t, exec (.dstat 2) { sample with err := some .fifoOverflow } = .next t ∧
      decide (t.cmdcnt = sample.cmdcnt) = true) ∧
    sample.err = none ∧
    (∃ t, exec (.dstat 2) sample = .next t ∧ decide (t.err ≠ none) = true) ∧
    (∃ t, exec (.ddec 0 0#32 1#32) { sample with rptr := 60#32 } = .next t ∧ decide (t.err = some .bitRange) = true) ∧
    (∃ t, exec (.denc 0 0#32 4#32) { sample with wptr := 60#32 } = .next t ∧ decide (t.err = some .bitRange) = true) :=
  ⟨exists_next (by decide +kernel), rfl, exists_next (by decide +kernel), exists_next (by decide +kernel),
    exists_next (by decide +kernel)⟩

/-- A command completes, raises, and raises while ERR = 1. -/
theorem witness_EveryCommandCompletesOrRaises :
    (∃ t, exec .nop sample = .next t ∧ decide (t.cmdcnt = 1#32) = true) ∧
    (∃ t, exec (.dstat 2) sample = .next t ∧ decide (t.err = some .badChan) = true) ∧
    (∃ t, exec (.dstat 2) { sample with err := some .fifoOverflow } = .next t ∧
      decide (t.err = some .fifoOverflow) = true) :=
  ⟨exists_next (by decide +kernel), exists_next (by decide +kernel), exists_next (by decide +kernel)⟩

/-- A command that writes no result, and a DDEC that completes. -/
theorem witness_CommandsChangeOnlyWhatTheyName :
    (∃ t, exec (.bwr 3 5#32) sample = .next t ∧ decide (t.res0 = sample.res0) = true) ∧
      ∃ t, exec (.ddec 1 15#32 1#32) sample = .next t ∧ decide (t.cmdcnt ≠ sample.cmdcnt) = true :=
  ⟨exists_next (by decide +kernel), exists_next (by decide +kernel)⟩

theorem witness_ChannelsAreIndependent :
    Instr.denc 0 0#32 4#32 ≠ .dflush 255 ∧ 1 ≠ (Instr.denc 0 0#32 4#32).chField ∧
      (Instr.denc 0 0#32 4#32).op ∈ [Op.dflush, .denc, .ddec, .dbackup, .dresume, .dstat] ∧
      ∃ t, exec (.denc 0 0#32 4#32) sample = .next t ∧ decide (t.err = none) = true :=
  ⟨by decide, by decide, by decide, exists_next (by decide +kernel)⟩

/-! The host's window, the invariant, reset. -/

/-- A halted engine; a full FIFO (four words); one word of room. -/
theorem witness_CmdWritesPushOverflowOrAreIgnored :
    sample.params.valid ∧ ({ sample with err := some .config } : State).err ≠ none ∧
      sample.params.fifoDepth ≤ [0#32, 0#32, 0#32, 0#32].length ∧ [0#32, 0#32, 0#32].length < sample.params.fifoDepth ∧
      ({ sample with agenda := [.hostWrite (sample.params.base + 0x018) 7#32] } : State).agenda =
        .hostWrite (sample.params.base + 0x018) 7#32 :: [] := by decide

theorem witness_CtrlWritesClearOrReset :
    (0x200#32 : Word).getLsbD 9 = true ∧ State.reset.idle = true ∧
      ({ sample with running := some .nop } : State).running ≠ none ∧ (0x100#32 : Word).getLsbD 9 = false ∧
      (0x100#32 : Word).getLsbD 8 = true ∧ (0x3#32 : Word).getLsbD 8 = false := by decide

theorem witness_StatusWordAndIrq :
    sample.err = none ∧ ({ sample with err := some .mdcNoSnap } : State).err = some .mdcNoSnap ∧
      (Cause.mdcNoSnap, 0x32#8) ∈ [(Cause.mdcNoSnap, 0x32#8)] := by decide

/-- Small parameters whose bit memory ends inside a host word. -/
def oddParams : Params := { smallParams with bitBytes := 6 }

/-- The last SYM entry, and the last BIT word, whole and partial; idle and not idle; the ends of the ignored ranges. -/
theorem witness_HostWindowStoresAndReads :
    sample.params.valid ∧ oddParams.valid ∧ 15 < sample.params.symDepth ∧ 4 * 1 < sample.params.bitBytes ∧
      (4 * 1 < oddParams.bitBytes ∧ oddParams.bitBytes < 4 * 1 + 4) ∧
      ({ sample with fifo := [] } : State).idle = true ∧ sample.idle = false ∧ (0x1FFFFC % 4 = 0 ∧ 0x1FFFFC < 2 ^ 21) ∧
      (0x038 % 4 = 0 ∧ 0xFFFC % 4 = 0 ∧ 0xFFFC < 0x10000) ∧ (0x50000 % 4 = 0 ∧ 0xFFFFC < 0x100000) ∧
      (0x10000 + 4 * sample.params.symDepth ≤ 0x10040 ∧ 0x10040 < 0x50000) ∧
      (0x100000 + sample.params.bitBytes ≤ 0x100008 ∧ 0x100000 + oddParams.bitBytes ≤ 0x100008 ∧ 0x100008 < 0x200000) := by
  decide

/-- A busy state and the last register readable at any time; an idle state and the last listed register; the first and last
reserved offset. -/
theorem witness_HostReadsTheRegisters :
    sample.params.valid ∧ sample.idle = false ∧ (0x014, sample.errseq) ∈ [((0x014 : Nat), sample.errseq)] ∧
      (withTurns [.hostRead (Params.standard.base + 0x034)]).idle = true ∧
      (0x034, State.reset.cmdcnt) ∈ [((0x034 : Nat), State.reset.cmdcnt)] ∧
      (0x038 ≤ 0x038 ∧ 0x038 % 4 = 0) ∧ (0xFFC ≤ 0xFFC ∧ 0xFFC % 4 = 0) := by decide

/-- A NOP is pushed and run; a SYM write and the reset input come after the end. -/
theorem witness_TurnsAfterTheEndAreNotOfTheRun :
    (let s := withTurns [.hostWrite 0x200018 0#32, .engineRun]
     2 ≤ s.agenda.length ∧ (endOfRun 2 s).isSome = true ∧ (endOfRun 1 s).isSome = false) ∧
      ∀ u ∈ [Turn.hostWrite 0x210000 5#32, .resetInput], u.writesCommand Params.standard = false := by
  decide +kernel

theorem witness_StepKeepsTheInvariant : sample.Inv ∧ ∃ t, step sample = .next t ∧ decide (t.cmdcnt = 1#32) = true :=
  ⟨sample_inv, exists_next (by decide +kernel)⟩

theorem witness_ResetMeetsTheInvariant :
    Params.valid { nch := 1, symDepth := 1, bitBytes := 1, fifoDepth := 4, base := 0 } ∧
      Params.valid { nch := 255, symDepth := 65536, bitBytes := 1048576, fifoDepth := 4, base := 2 ^ 21 } := by decide

theorem witness_ResetInputGivesTheResetState :
    ({ sample with agenda := [.resetInput] } : State).agenda = .resetInput :: [] ∧ 1 ≤ sample.params.fifoDepth := by decide

end Sys2Proof.Tests
end

section
/-! The host's window, one turn at a time: a step whose turn is a host access reads or writes what its offset names. -/

namespace Sys2Proof.Machine

variable {s : State} {ts : List Turn} {v : Word} {off : Nat}

/-- A host write inside the window is a write to what its offset names (R20, R52). -/
theorem step_hostWrite (hp : s.params.valid) (h4 : off % 4 = 0) (hoff : off < 2 ^ 21)
    (ha : s.agenda = .hostWrite (s.params.base + off) v :: ts) :
    step s = writeTarget { s with agenda := ts } v (targetAt s.params off) := by
  rw [step_of_turn ha, takeTurn, hostWrite]
  exact withTarget_offset (s := { s with agenda := ts }) hp h4 hoff _

/-- A host read inside the window changes only the model's own `rdata` and `draws` (R57). -/
theorem step_hostRead (hp : s.params.valid) (h4 : off % 4 = 0) (hoff : off < 2 ^ 21)
    (ha : s.agenda = .hostRead (s.params.base + off) :: ts) :
    step s = .next { s with
      agenda := ts
      rdata := readTarget s (Config.draw s.draws) (targetAt s.params off)
      draws := s.draws + 1 } := by
  rw [step_of_turn ha, takeTurn, hostRead, ← readTarget_withAgenda ts]
  exact withTarget_offset (s := { s with agenda := ts }) hp h4 hoff _

/-- The offsets below 0x1000 are the registers (R20). -/
theorem targetAt_of_lt (p : Params) (h : off < 0x1000) : targetAt p off = .reg (regAt off) := if_pos h

/-- A host write to a register's offset is a write to that register. -/
theorem step_writeReg (hp : s.params.valid) (h4 : off % 4 = 0) (hoff : off < 0x1000)
    (ha : s.agenda = .hostWrite (s.params.base + off) v :: ts) :
    step s = writeReg { s with agenda := ts } v (regAt off) := by
  rw [step_hostWrite hp h4 (by omega) ha, targetAt_of_lt _ hoff, writeTarget]

/-- A host read of a register's offset returns that register's word. -/
theorem step_readReg (hp : s.params.valid) (h4 : off % 4 = 0) (hoff : off < 0x1000)
    (ha : s.agenda = .hostRead (s.params.base + off) :: ts) :
    step s = .next { s with
      agenda := ts, rdata := readReg s (Config.draw s.draws) (regAt off), draws := s.draws + 1 } := by
  rw [step_hostRead hp h4 (by omega) ha, targetAt_of_lt _ hoff, readTarget]

end Sys2Proof.Machine
end

section
/-! The command port (R27, R222). -/

namespace Sys2Proof.Machine

variable {s : State} {ts : List Turn} {v : Word}

/-- While ERR = 1 a write to CMD is ignored. -/
theorem pushCommand_of_err (h : s.err.isSome) : s.pushCommand v = s := if_pos h

/-- A write to CMD with the FIFO full raises FIFO_OVERFLOW, with the word in ERRINFO. -/
theorem pushCommand_of_full (he : s.err = none) (hf : s.params.fifoDepth ≤ s.fifo.length) :
    s.pushCommand v = s.takeException .fifoOverflow v := by
  simp [State.pushCommand, State.full, he, hf]

/-- A write to CMD with room in the FIFO puts the word at its end. -/
theorem pushCommand_of_room (he : s.err = none) (hf : s.fifo.length < s.params.fifoDepth) :
    s.pushCommand v = { s with fifo := s.fifo ++ [v] } := by
  simp [State.pushCommand, State.full, he, hf]

/-- A host write at offset 0x018 is a write to CMD. -/
theorem step_writeCmd (hp : s.params.valid) (ha : s.agenda = .hostWrite (s.params.base + 0x018) v :: ts) :
    step s = .next ({ s with agenda := ts }.pushCommand v) :=
  step_writeReg hp (by decide) (by decide) ha

/-- A host read at offset 0x018 returns 0. -/
theorem step_readCmd (hp : s.params.valid) (ha : s.agenda = .hostRead (s.params.base + 0x018) :: ts) :
    step s = .next { s with agenda := ts, rdata := 0#32, draws := s.draws + 1 } :=
  step_readReg hp (by decide) (by decide) ha

/-- Settles O52: the step of a write to CMD is `pushCommand`, whose three cases are the three clauses; the step of a read
of CMD is `step_readCmd`. -/
theorem cmdWritesPushOverflowOrAreIgnored : Obligations.CmdWritesPushOverflowOrAreIgnored := by
  intro s ts v hp
  refine ⟨fun ha => ?_, fun ha => ⟨s.draws + 1, step_readCmd hp ha⟩⟩
  rw [step_writeCmd hp ha]
  refine ⟨fun he => ?ignored, fun he hf => ?overflow, fun he hf => ?pushed⟩
  case ignored =>
    rw [pushCommand_of_err (s := { s with agenda := ts }) (Option.isSome_iff_ne_none.2 he)]
  case overflow =>
    rw [pushCommand_of_full (s := { s with agenda := ts }) he hf,
      takeException_of_no_err (s := { s with agenda := ts }) he]
  case pushed =>
    rw [pushCommand_of_room (s := { s with agenda := ts }) he hf]

end Sys2Proof.Machine
end

section
/-! Illegal headers (R72, R75): a header no row of R73 admits, and the engine's turn that meets it. -/

namespace Sys2Proof

/-- Where the mask is all ones, a word the mask clears is 0. -/
theorem extractLsb'_eq_zero_of_and {h m : Word} {i w : Nat} (hz : h &&& m = 0#32)
    (hm : m.extractLsb' i w = BitVec.allOnes w) : h.extractLsb' i w = 0#w :=
  calc h.extractLsb' i w = (h &&& m).extractLsb' i w := by rw [BitVec.extractLsb'_and, hm, BitVec.and_allOnes]
    _ = 0#w := by rw [hz, BitVec.extractLsb'_zero]

/-- The header check fails on a value that is no row's OPC (R75). -/
theorem headerOp_eq_none_of_reserved {h : Word} (hr : ∀ o : Op, o.code ≠ headerOpc h) : headerOp h = none :=
  Option.eq_none_iff_forall_ne_some.2 fun o ho => hr o (headerOp_eq_some.1 ho).1.symm

/-- The header check fails on a 1 in the `w` bits from bit `i` up, if the OPC is among `codes` and every row with one of these
shows the bits as `0` (R75). -/
theorem headerOp_eq_none_of_field {h : Word} {codes : List Nat} {i w : Nat}
    (hz : ∀ o : Op, o.code ∈ codes → o.format.zeroMask.extractLsb' i w = BitVec.allOnes w)
    (hc : headerOpc h ∈ codes) (hf : h.extractLsb' i w ≠ 0#w) : headerOp h = none := by
  refine Option.eq_none_iff_forall_ne_some.2 fun o ho => hf ?_
  obtain ⟨hcode, hmask⟩ := headerOp_eq_some.1 ho
  exact extractLsb'_eq_zero_of_and hmask (hz o (hcode ▸ hc))

/-- The values R75 lists as reserved are no row's OPC. -/
theorem Op.code_not_reserved (o : Op) :
    ¬ ((0x01 ≤ o.code ∧ o.code ≤ 0x0F) ∨ (0x15 ≤ o.code ∧ o.code ≤ 0x1F) ∨ (0x28 ≤ o.code ∧ o.code ≤ 0x2F) ∨
      (0x36 ≤ o.code ∧ o.code ≤ 0x3F) ∨ 0x46 ≤ o.code) := by
  cases o <;> decide

/-- The OPC values of the formats F0 to F3. -/
def plainCodes : List Nat :=
  [0x00, 0x10, 0x11, 0x12, 0x13, 0x14, 0x20, 0x21, 0x22, 0x24, 0x25, 0x26, 0x27, 0x42, 0x43, 0x44, 0x45]

/-- F0 to F3 show CH, N and bits 7:0 as `0`. -/
theorem Op.zeroMask_of_plain (o : Op) : o.code ∈ plainCodes →
    o.format.zeroMask.extractLsb' 0 24 = BitVec.allOnes 24 := by
  cases o <;> decide

/-- FC0 and FC2 show N and bits 7:0 as `0`. -/
theorem Op.zeroMask_of_channel (o : Op) : o.code ∈ [0x30, 0x31, 0x32, 0x33, 0x34, 0x35] →
    o.format.zeroMask.extractLsb' 0 16 = BitVec.allOnes 16 := by
  cases o <;> decide

/-- FN0 and FN1 show CH and bits 7:0 as `0`. -/
theorem Op.zeroMask_of_count (o : Op) : o.code ∈ [0x40, 0x41] →
    o.format.zeroMask.extractLsb' 16 8 = BitVec.allOnes 8 ∧ o.format.zeroMask.extractLsb' 0 8 = BitVec.allOnes 8 := by
  cases o <;> decide

/-- FF2 shows bits 23:9 and 7:0 as `0`. -/
theorem Op.zeroMask_of_flag (o : Op) : o.code ∈ [0x23] →
    o.format.zeroMask.extractLsb' 9 15 = BitVec.allOnes 15 ∧ o.format.zeroMask.extractLsb' 0 8 = BitVec.allOnes 8 := by
  cases o <;> decide

/-- A header that fails the header check is illegal, whatever follows it. -/
theorem decode_of_headerOp_none {h : Word} (hn : headerOp h = none) (ops : List Word) :
    decode (h :: ops) = .illegal h := by
  rw [decode_cons, hn]

end Sys2Proof

namespace Sys2Proof.Machine

/-- An illegal header at the front of the words is ILLEGAL_CMD at that header (R72). -/
theorem assemble_of_illegal {s : State} {h : Word} (k : Instr → State → Result) (he : s.err = none)
    (hd : decode (s.assembler ++ s.fifo) = .illegal h) : assemble k s = .next (s.takeException .illegalCmd h) := by
  simp [assemble, fetch, illegalHeader, he, hd]

/-- The engine's turn with an illegal header at the front of the words. -/
theorem step_of_illegal {s : State} {ts : List Turn} {h : Word} (ha : s.engineActs ts) (hr : s.running = none)
    (he : s.err = none) (hd : decode (s.assembler ++ s.fifo) = .illegal h) :
    step s = .next ({ s with agenda := ts }.takeException .illegalCmd h) := by
  rw [step_of_engineActs ha, engineRun_of_not_running (s := { s with agenda := ts }) hr,
    assemble_of_illegal (s := { s with agenda := ts }) exec he hd]

/-- Settles O3: each of R75's cases fails the header check, by the OPC or by a field its format's mask covers, and the
engine's turn at such a header is `step_of_illegal`. -/
theorem illegalHeadersRaiseIllegalCmd : Obligations.IllegalHeadersRaiseIllegalCmd := by
  intro s ts h ops ha hr he has hf hbad
  have hn : headerOp h = none := by
    obtain hres | ⟨hc, hz⟩ | ⟨hc, hz⟩ | ⟨hc, hz | hz⟩ | ⟨hc, hz | hz⟩ := hbad
    · exact headerOp_eq_none_of_reserved fun o ho => o.code_not_reserved (ho ▸ hres)
    · exact headerOp_eq_none_of_field Op.zeroMask_of_plain hc hz
    · exact headerOp_eq_none_of_field Op.zeroMask_of_channel hc hz
    · exact headerOp_eq_none_of_field (fun o ho => (o.zeroMask_of_count ho).1) hc hz
    · exact headerOp_eq_none_of_field (fun o ho => (o.zeroMask_of_count ho).2) hc hz
    · exact headerOp_eq_none_of_field (fun o ho => (o.zeroMask_of_flag ho).1) (List.mem_singleton.2 hc) hz
    · exact headerOp_eq_none_of_field (fun o ho => (o.zeroMask_of_flag ho).2) (List.mem_singleton.2 hc) hz
  have hd : decode (s.assembler ++ s.fifo) = .illegal h := by
    rw [has, hf, List.nil_append, decode_of_headerOp_none hn]
  rw [step_of_illegal ha hr he hd, takeException_of_no_err (s := { s with agenda := ts }) he]

end Sys2Proof.Machine
end

section
/-! The FDU's words: a packed word as a number (R8), what FDEC, FREC and FPOW2 write (R102, R103, R109). -/

namespace Sys2Proof.Machine

/-! ### Packed words and triples (R8, R100, R101) -/

/-- The number a packed word is, for an exponent that fits its field. -/
theorem packWord_eq_ofNat (s : Bool) {e : Nat} (he : e < 2 ^ 8) (f : Nat) :
    packWord s e f = BitVec.ofNat 32 (s.toNat * 2 ^ 31 + e * 2 ^ 23 + f % 2 ^ 23) := by
  rw [← BitVec.setWidth_eq (packWord s e f), ← BitVec.ofNat_toNat, packWord_toNat, Nat.mod_eq_of_lt he]

/-- A sign as a result word is 1 or 0. -/
theorem signWord_eq (b : Bool) : signWord b = if b then 1#32 else 0#32 := by
  cases b <;> rfl

/-- The exponent of `decompose` as an i32 word. -/
theorem ofInt_decompose_exp (x : Word) :
    BitVec.ofInt 32 (decompose x).exp =
      if expField x = 0 then 0xFFFFFF81#32 else if expField x = 255 then 0x00000080#32
      else BitVec.ofNat 32 (expField x) - 127#32 := by
  unfold decompose
  split
  · rfl
  · split
    · rfl
    · rw [Int.sub_eq_add_neg, BitVec.ofInt_add, BitVec.ofInt_natCast, BitVec.sub_eq_add_neg]
      rfl

/-- The mantissa of `decompose`: the fraction, with the implicit one for a normal word. -/
theorem decompose_mant (x : Word) :
    (decompose x).mant = if expField x = 0 ∨ expField x = 255 then fracField x else 2 ^ 23 + fracField x := by
  unfold decompose
  split
  · next h0 => rw [if_pos (.inl h0)]
  · next h0 =>
    split
    · next h255 => rw [if_pos (.inr h255)]
    · next h255 => rw [if_neg (not_or.2 ⟨h0, h255⟩)]

/-- `recompose` of a triple with the exponent of a zero or subnormal word (R101). -/
theorem recompose_zeroExp {t : Triple} (h : t.exp = -127) : recompose t = packWord t.sign 0 t.mant := if_pos h

/-- `recompose` of a triple with the exponent of an Infinity or NaN (R101). -/
theorem recompose_special {t : Triple} (h : t.exp = 128) : recompose t = packWord t.sign 255 t.mant := by
  unfold recompose; rw [if_neg (by omega), if_pos h]

theorem legalExpMant_iff {e : Int} {m : Nat} :
    legalExpMant e m = true ↔
      (e = -127 ∧ m < 2 ^ 23) ∨ (-126 ≤ e ∧ e ≤ 127 ∧ 2 ^ 23 ≤ m ∧ m < 2 ^ 24) ∨ (e = 128 ∧ m < 2 ^ 23) := by
  rw [legalExpMant, decide_eq_true_iff]

/-! ### FREC (R103) -/

section frec

variable {sg e m : Word}

/-- A sign operand of 0 or 1 is its bit 0. -/
theorem toNat_getLsbD_zero_of_le_one (h : sg.toNat ≤ 1) : (sg.getLsbD 0).toNat = sg.toNat := by
  rw [BitVec.getLsbD, Nat.toNat_testBit, pow_zero, Nat.div_one, Nat.mod_eq_of_lt (by omega)]

/-- The triple FREC's operands are read as. -/
def frecTriple (sg e m : Word) : Triple := { sign := sg.getLsbD 0, exp := e.toInt, mant := m.toNat }

/-- FREC of a legal triple completes with its word in RES0. -/
theorem exec_frec_of_legal (s : State) (hs : sg.toNat ≤ 1) (hl : legalExpMant e.toInt m.toNat = true) :
    exec (.frec sg e m) s = .next { s with res0 := recompose (frecTriple sg e m), cmdcnt := s.cmdcnt + 1#32 } := by
  have hok : ¬ (1 < sg.toNat ∨ legalExpMant e.toInt m.toNat = false) := by simp [hs, hl]
  rw [exec_frec, execFrec, if_neg hok]
  rfl

theorem header_frec : (Instr.frec sg e m).header = 0x11000000#32 := (by decide : mkHeader 0x11 0 0 = 0x11000000#32)

/-- FREC of any other triple raises FDU_DOMAIN. -/
theorem exec_frec_of_illegal (s : State) (h : 1 < sg.toNat ∨ legalExpMant e.toInt m.toNat = false) :
    exec (.frec sg e m) s = .next (s.takeException .fduDomain 0x11000000#32) := by
  rw [exec_frec, execFrec, if_pos h, raise_eq, header_frec]

/-- The word packed from FREC's sign operand. -/
theorem packWord_frecSign (hs : sg.toNat ≤ 1) {k : Nat} (hk : k < 2 ^ 8) (f : Nat) :
    packWord (sg.getLsbD 0) k f = BitVec.ofNat 32 (sg.toNat * 2 ^ 31 + k * 2 ^ 23 + f % 2 ^ 23) := by
  rw [packWord_eq_ofNat _ hk, toNat_getLsbD_zero_of_le_one hs]

end frec

/-- Settles O8: a case of `recompose` per kind of legal triple (R101), its packed word as a number, and `exec_frec_of_illegal`
for the rest. -/
theorem frecRecomposesLegalTriples : Obligations.FrecRecomposesLegalTriples := by
  intro sg e m s
  refine ⟨fun hs he hm => ?zeroExp, fun hs h1 h2 h3 h4 => ?normal, fun hs he hm => ?special, fun h => ?illegal⟩
  case zeroExp =>
    rw [exec_frec_of_legal s hs (legalExpMant_iff.2 (.inl ⟨he, hm⟩)), recompose_zeroExp (t := frecTriple sg e m) he,
      frecTriple, packWord_frecSign hs (by decide), Nat.mod_eq_of_lt hm, Nat.zero_mul, Nat.add_zero]
  case normal =>
    have hmant : m.toNat % 2 ^ 23 = m.toNat - 2 ^ 23 := by omega
    have hexp : (e.toInt + 127).toNat < 2 ^ 8 := by omega
    rw [exec_frec_of_legal s hs (legalExpMant_iff.2 (.inr (.inl ⟨h1, h2, h3, h4⟩))),
      recompose_normal (t := frecTriple sg e m) h1 h2, frecTriple, packWord_frecSign hs hexp, hmant]
  case special =>
    rw [exec_frec_of_legal s hs (legalExpMant_iff.2 (.inr (.inr ⟨he, hm⟩))), recompose_special (t := frecTriple sg e m) he,
      frecTriple, packWord_frecSign hs (by decide), Nat.mod_eq_of_lt hm]
  case illegal =>
    rw [← legalExpMant_iff, Bool.not_eq_true] at h
    exact exec_frec_of_illegal s h

/-! ### FDEC (R102) -/

/-- FDEC writes the three parts of `decompose`. -/
theorem exec_fdec_eq (x : Word) (s : State) :
    exec (.fdec x) s = .next { s with
      res0 := signWord (decompose x).sign
      res1 := BitVec.ofInt 32 (decompose x).exp
      res2 := BitVec.ofNat 32 (decompose x).mant
      cmdcnt := s.cmdcnt + 1#32 } := rfl

/-- Settles O7: the parts of `decompose` as words. -/
theorem fdecGivesSignExponentMantissa : Obligations.FdecGivesSignExponentMantissa := by
  intro x s
  rw [exec_fdec_eq, decompose_sign, signWord_eq, ofInt_decompose_exp, decompose_mant]
  rfl

/-! ### FPOW2 (R108, R109) -/

/-- `power_of_two` in its four ranges, each word as a number. -/
theorem powerOfTwo_eq (k : Int) :
    powerOfTwo k =
      if -126 ≤ k ∧ k ≤ 127 then BitVec.ofNat 32 ((k + 127).toNat * 2 ^ 23)
      else if -149 ≤ k ∧ k ≤ -127 then BitVec.ofNat 32 (2 ^ (k + 149).toNat)
      else if 127 < k then 0x7F800000#32
      else 0#32 := by
  unfold powerOfTwo
  refine ite_congr rfl (fun hnormal => ?_) fun _ => ite_congr rfl (fun hsub => ?_) fun _ => rfl
  · rw [packWord_eq_ofNat _ (by omega)]
    simp
  · have hfrac : 2 ^ (k + 149).toNat < 2 ^ 23 := Nat.pow_lt_pow_right (by decide) (by omega)
    rw [packWord_eq_ofNat _ (by decide), Nat.mod_eq_of_lt hfrac]
    simp

/-- Settles O13: FPOW2 writes `power_of_two` of its operand to RES0. -/
theorem fpow2GivesThePowerOfTwo : Obligations.Fpow2GivesThePowerOfTwo := by
  intro sh s
  rw [← powerOfTwo_eq]
  rfl

end Sys2Proof.Machine
end

section
/-! Exception entry of a command whose header word is known (R225, R226). -/

namespace Sys2Proof.Machine

/-- A command raises with its header word in ERRINFO (R225, R226). -/
theorem raise_of_header {i : Instr} {h : Word} (hi : i.header = h) (c : Cause) (s : State) :
    raise i c s = .next (s.takeException c h) := by
  rw [raise_eq, hi]

end Sys2Proof.Machine
end

section
/-! The RCU's commands on the symbol memory (R138 to R142): PACKA, PACKB, UNPACKA and UNPACKB. -/

namespace Sys2Proof.Machine

/-! ### Symbols of words and residuals (R138, R139) -/

/-- The number of symbols of a residual, as the statements write it. -/
theorem nsym_eq (w : Nat) : nsym w = (w + 7) / 8 := rfl

theorem extractLsb'_eq_ofNat_div (x : Word) (i : Nat) : x.extractLsb' i 8 = BitVec.ofNat 8 (x.toNat / 2 ^ i) := by
  rw [← Nat.shiftRight_eq_div_pow, BitVec.extractLsb']

/-- Symbol `j` of a verbatim word is its byte `j`, counted from the most significant one (R139). -/
theorem wordSyms_getElem? (x : Word) {j : Nat} (hj : j < 4) :
    (wordSyms x)[j]? = some { sym := BitVec.ofNat 8 (x.toNat / 2 ^ (24 - 8 * j)), width := 8#4 } := by
  simp only [wordSyms, extractLsb'_eq_ofNat_div]
  match j, hj with
  | 0, _ | 1, _ | 2, _ | 3, _ => rfl

@[simp] theorem length_residualSyms (d w : Nat) : (residualSyms d w).length = nsym w := by simp [residualSyms]

/-- The first symbol of a residual is the partial one (R138). -/
theorem residualSyms_getElem?_zero (d : Nat) {w : Nat} (h : 0 < nsym w) :
    (residualSyms d w)[0]? = some {
      sym := BitVec.ofNat 8 (d / 2 ^ (8 * (nsym w - 1)) * 2 ^ (8 - (w - 8 * (nsym w - 1))))
      width := BitVec.ofNat 4 (w - 8 * (nsym w - 1)) } := by
  simp [residualSyms, h]

/-- Every later symbol of a residual is a whole byte (R138). -/
theorem residualSyms_getElem?_of_pos (d : Nat) {w j : Nat} (h0 : j ≠ 0) (h : j < nsym w) :
    (residualSyms d w)[j]? = some { sym := BitVec.ofNat 8 (d / 2 ^ (8 * (nsym w - 1 - j))), width := 8#4 } := by
  simp [residualSyms, h, h0]

/-! ### PACKA and PACKB (R139, R140) -/

theorem header_packa (x idx : Word) : (Instr.packa x idx).header = 0x24000000#32 :=
  (by decide : mkHeader 0x24 0 0 = 0x24000000#32)

/-- PACKA with its last entry inside the symbol memory. -/
theorem exec_packa_of_room (x : Word) {idx : Word} {s : State} (h : idx.toNat + 4 ≤ s.params.symDepth) :
    exec (.packa x idx) s = .next { s with
      sym := s.sym.writeList idx.toNat (wordSyms x)
      res0 := BitVec.ofNat 32 (idx.toNat + 4)
      cmdcnt := s.cmdcnt + 1#32 } := by
  rw [exec_packa, execPacka, if_neg (Nat.not_lt.2 h)]
  rfl

/-- Settles O20: an address inside the run reads its byte of the word, by `wordSyms_getElem?`, and any other reads as
before, by `Memory.read_writeList`. -/
theorem packaStoresFourSymbols : Obligations.PackaStoresFourSymbols := by
  intro x idx s
  refine ⟨fun h => ?_, fun h => ⟨_, exec_packa_of_room x h, fun a => ?_⟩⟩
  · rw [exec_packa, execPacka, if_pos h, raise_of_header (header_packa x idx)]
  · rw [Memory.read_writeList]
    refine ite_congr rfl (fun ha => wordSyms_getElem? x ?_) fun _ => rfl
    omega

theorem header_packb (d w idx : Word) : (Instr.packb d w idx).header = 0x25000000#32 :=
  (by decide : mkHeader 0x25 0 0 = 0x25000000#32)

/-- PACKB of a residual that fits its width, with its last entry inside the symbol memory. -/
theorem exec_packb_of_room {d w idx : Word} {s : State} (hw : w.toNat ≤ 24) (hd : d.toNat < 2 ^ w.toNat)
    (h : idx.toNat + nsym w.toNat ≤ s.params.symDepth) :
    exec (.packb d w idx) s = .next { s with
      sym := s.sym.writeList idx.toNat (residualSyms d.toNat w.toNat)
      res0 := BitVec.ofNat 32 (idx.toNat + nsym w.toNat)
      cmdcnt := s.cmdcnt + 1#32 } := by
  rw [exec_packb, execPackb, if_neg (Nat.not_lt.2 hw), if_neg (Nat.not_le.2 hd), if_neg (Nat.not_lt.2 h)]
  rfl

/-- Settles O21: the checks in order; then the first address of the run reads the partial symbol, a later one a whole byte,
and any other reads as before. -/
theorem packbStoresTheResidualSymbols : Obligations.PackbStoresTheResidualSymbols := by
  simp only [Obligations.PackbStoresTheResidualSymbols, ← nsym_eq]
  intro d w idx s
  refine ⟨fun hw => ?width, fun hw hd => ?residual, fun hw hd hi => ?range,
    fun hw hd hi => ⟨_, exec_packb_of_room hw hd hi, fun a => ?stored⟩⟩
  case width =>
    rw [exec_packb, execPackb, if_pos hw, raise_of_header (header_packb d w idx)]
  case residual =>
    rw [exec_packb, execPackb, if_neg (Nat.not_lt.2 hw), if_pos hd, raise_of_header (header_packb d w idx)]
  case range =>
    rw [exec_packb, execPackb, if_neg (Nat.not_lt.2 hw), if_neg (Nat.not_le.2 hd), if_pos hi,
      raise_of_header (header_packb d w idx)]
  case stored =>
    rw [Memory.read_writeList, length_residualSyms]
    refine ite_congr rfl (fun ha => ?_) fun _ => rfl
    have hlt : a - idx.toNat < nsym w.toNat := by omega
    split
    · next h0 =>
      rw [h0, Nat.sub_self] at hlt ⊢
      exact residualSyms_getElem?_zero _ hlt
    · next h0 => exact residualSyms_getElem?_of_pos _ (by omega) hlt

/-! ### Reading a run of entries (R37) -/

/-- A run of addresses has no value exactly when one of them is unwritten. -/
theorem Memory.readList_eq_none {α : Type} {m : Memory α} {k n : Nat} :
    m.readList k n = none ↔ ∃ j, j < n ∧ m.read (k + j) = none := by
  induction n generalizing k with
  | zero => simp [Memory.readList]
  | succ n ih =>
    rw [Nat.exists_lt_succ_left, Nat.add_zero, Memory.readList]
    cases m.read k with
    | none => simp
    | some v => simp [ih, Nat.add_assoc, Nat.add_comm 1]

/-! ### The value of a run of bytes (R141, R142) -/

/-- A word with a byte appended, as a number. -/
theorem toNat_append_byte {n : Nat} (x : BitVec n) (b : Byte) : (x ++ b).toNat = x.toNat * 2 ^ 8 + b.toNat := by
  rw [BitVec.toNat_append, ← Nat.shiftLeft_add_eq_or_of_lt b.isLt, Nat.shiftLeft_eq]

/-- Four bytes, first most significant, are the four bytes appended (R141). -/
theorem ofNat_fold_four (e0 e1 e2 e3 : Sym) :
    BitVec.ofNat 32 ([e0, e1, e2, e3].foldl (fun v e => v * 2 ^ 8 + e.sym.toNat) 0) =
      e0.sym ++ e1.sym ++ e2.sym ++ e3.sym := by
  have hval : (e0.sym ++ e1.sym ++ e2.sym ++ e3.sym).toNat =
      [e0, e1, e2, e3].foldl (fun v e => v * 2 ^ 8 + e.sym.toNat) 0 := by
    simp only [toNat_append_byte, List.foldl_cons, List.foldl_nil, Nat.zero_mul, Nat.zero_add]
  rw [← hval]
  exact (BitVec.ofNat_toNat ..).trans (BitVec.setWidth_eq _)

/-- Each byte appended to a number widens its bound by 8 bits. -/
theorem foldl_bytes_lt (bs : List Byte) {a k : Nat} (h : a < 2 ^ k) :
    bs.foldl (fun d c => d * 2 ^ 8 + c.toNat) a < 2 ^ (k + 8 * bs.length) := by
  induction bs generalizing a k with
  | nil => exact h
  | cons b bs ih =>
    have hb := b.isLt
    have hstep : a * 2 ^ 8 + b.toNat < 2 ^ (k + 8) := by rw [pow_add]; omega
    have hlen : k + 8 * (b :: bs).length = k + 8 + 8 * bs.length := by rw [List.length_cons]; omega
    rw [hlen]
    exact ih hstep

/-- A residual of width `w` read back from `nsym w` bytes is below `2 ^ w` (R142). -/
theorem residualOfBytes_lt {w : Nat} {bs : List Byte} (h : bs.length = nsym w) : residualOfBytes w bs < 2 ^ w := by
  cases bs with
  | nil => exact Nat.two_pow_pos w
  | cons b bs =>
    have hn := nsym_eq w
    rw [List.length_cons] at h
    obtain ⟨r, hr, hrw⟩ : ∃ r ≤ 8, w = r + 8 * bs.length := ⟨w - 8 * bs.length, by omega, by omega⟩
    have hfirst : b.toNat / 2 ^ (8 - r) < 2 ^ r := by
      apply Nat.div_lt_of_lt_mul
      rw [← pow_add, Nat.sub_add_cancel hr]
      exact b.isLt
    have hrest : w - 8 * (nsym w - 1) = r := by omega
    rw [residualOfBytes, hrest, hrw]
    exact foldl_bytes_lt bs hfirst

/-! ### UNPACKA and UNPACKB (R141, R142) -/

section unpack

variable {idx w : Word} {s : State}

theorem header_unpacka (idx : Word) : (Instr.unpacka idx).header = 0x26000000#32 :=
  (by decide : mkHeader 0x26 0 0 = 0x26000000#32)

theorem header_unpackb (idx w : Word) : (Instr.unpackb idx w).header = 0x27000000#32 :=
  (by decide : mkHeader 0x27 0 0 = 0x27000000#32)

/-- UNPACKA meets an unwritten entry. -/
theorem exec_unpacka_of_unwritten (h : idx.toNat + 4 ≤ s.params.symDepth) (hr : s.sym.readList idx.toNat 4 = none) :
    exec (.unpacka idx) s = .fault .readUnwritten := by
  rw [exec_unpacka, execUnpacka, if_neg (Nat.not_lt.2 h), hr]

/-- UNPACKA of written entries. -/
theorem exec_unpacka_of_written {es : List Sym} (h : idx.toNat + 4 ≤ s.params.symDepth)
    (hr : s.sym.readList idx.toNat 4 = some es) :
    exec (.unpacka idx) s = .next { s with
      res0 := BitVec.ofNat 32 (es.foldl (fun v e => v * 2 ^ 8 + e.sym.toNat) 0)
      res1 := BitVec.ofNat 32 (idx.toNat + 4)
      cmdcnt := s.cmdcnt + 1#32 } := by
  rw [exec_unpacka, execUnpacka, if_neg (Nat.not_lt.2 h), hr]
  rfl

/-- UNPACKB meets an unwritten entry. -/
theorem exec_unpackb_of_unwritten (hw : w.toNat ≤ 24) (h : idx.toNat + nsym w.toNat ≤ s.params.symDepth)
    (hr : s.sym.readList idx.toNat (nsym w.toNat) = none) : exec (.unpackb idx w) s = .fault .readUnwritten := by
  rw [exec_unpackb, execUnpackb, if_neg (Nat.not_lt.2 hw), if_neg (Nat.not_lt.2 h), hr]

/-- UNPACKB of written entries. -/
theorem exec_unpackb_of_written {es : List Sym} (hw : w.toNat ≤ 24) (h : idx.toNat + nsym w.toNat ≤ s.params.symDepth)
    (hr : s.sym.readList idx.toNat (nsym w.toNat) = some es) :
    exec (.unpackb idx w) s = .next { s with
      res0 := BitVec.ofNat 32 (residualOfBytes w.toNat (es.map Sym.sym))
      res1 := BitVec.ofNat 32 (idx.toNat + nsym w.toNat)
      cmdcnt := s.cmdcnt + 1#32 } := by
  rw [exec_unpackb, execUnpackb, if_neg (Nat.not_lt.2 hw), if_neg (Nat.not_lt.2 h), hr]
  rfl

end unpack

/-- Settles O22: the run the command reads is `none` exactly when an entry is unwritten (`Memory.readList_eq_none`); four
written entries are their bytes appended, and `nsym w` of them stand for a number below `2 ^ w`. -/
theorem unpackReadsWrittenEntries : Obligations.UnpackReadsWrittenEntries := by
  simp only [Obligations.UnpackReadsWrittenEntries, ← nsym_eq]
  refine ⟨fun idx s => ⟨fun hi => ?rangeA, fun hi hu => ?unwrittenA, fun e0 e1 e2 e3 hi h0 h1 h2 h3 => ?writtenA⟩,
    fun idx w s => ⟨fun hw => ?widthB, fun hw hi => ?rangeB, fun hw hi hu => ?unwrittenB, fun hw hi hall => ?writtenB⟩⟩
  case rangeA =>
    rw [exec_unpacka, execUnpacka, if_pos hi, raise_of_header (header_unpacka idx)]
  case unwrittenA => exact exec_unpacka_of_unwritten hi (Memory.readList_eq_none.2 hu)
  case writtenA =>
    have hr : s.sym.readList idx.toNat 4 = some [e0, e1, e2, e3] := by simp [Memory.readList, h0, h1, h2, h3]
    rw [exec_unpacka_of_written hi hr, ofNat_fold_four]
  case widthB =>
    rw [exec_unpackb, execUnpackb, if_pos hw, raise_of_header (header_unpackb idx w)]
  case rangeB =>
    rw [exec_unpackb, execUnpackb, if_neg (Nat.not_lt.2 hw), if_pos hi, raise_of_header (header_unpackb idx w)]
  case unwrittenB => exact exec_unpackb_of_unwritten hw hi (Memory.readList_eq_none.2 hu)
  case writtenB =>
    obtain ⟨es, hr⟩ : ∃ es, s.sym.readList idx.toNat (nsym w.toNat) = some es := by
      refine Option.ne_none_iff_exists'.1 fun hnone => ?_
      obtain ⟨j, hj, hread⟩ := Memory.readList_eq_none.1 hnone
      exact hall j hj hread
    have hlen : (es.map Sym.sym).length = nsym w.toNat := by rw [List.length_map, Memory.length_readList hr]
    refine ⟨_, ?_, exec_unpackb_of_written hw hi hr⟩
    rw [BitVec.toNat_ofNat]
    exact (Nat.mod_le _ _).trans_lt (residualOfBytes_lt hlen)

end Sys2Proof.Machine
end

section
/-! The RCU's arithmetic commands (R131, R132, R135): RECON, RESID and NWIDTH. -/

namespace Sys2Proof.Machine

/-! ### RECON (R131) -/

theorem header_recon (q sh a : Word) : (Instr.recon q sh a).header = 0x20000000#32 :=
  (by decide : mkHeader 0x20 0 0 = 0x20000000#32)

/-- The reconstruction has no value exactly when one of its two multiplications is DOMAIN. -/
theorem reconstruct_eq_none {q e : Int} {a : Word} :
    reconstruct q e a = none ↔
      multiply (decompose (intToBinary32 q)) (decompose (powerOfTwo e)) = none ∨
        ∃ t, multiply (decompose (intToBinary32 q)) (decompose (powerOfTwo e)) = some t ∧
          multiply t (decompose a) = none := by
  cases hfirst : multiply (decompose (intToBinary32 q)) (decompose (powerOfTwo e)) with
  | none => simp [reconstruct, hfirst]
  | some t => cases hsecond : multiply t (decompose a) <;> simp [reconstruct, hfirst, hsecond]

/-- The reconstruction is the word of the second product. -/
theorem reconstruct_of_some {q e : Int} {a : Word} {t y : Triple}
    (ht : multiply (decompose (intToBinary32 q)) (decompose (powerOfTwo e)) = some t)
    (hy : multiply t (decompose a) = some y) : reconstruct q e a = some (recompose y) := by
  simp [reconstruct, ht, hy]

section recon

variable {q sh a : Word} {s : State} (hlo : 1 ≤ s.intres.toNat) (hhi : s.intres.toNat ≤ 24) (hsh : sh.toNat ≤ 255)

/-- RECON with INTRES outside 1..24. -/
theorem exec_recon_of_config (h : s.intres.toNat = 0 ∨ 24 < s.intres.toNat) :
    exec (.recon q sh a) s = .next (s.takeException .config 0x20000000#32) := by
  rw [exec_recon, execRecon, if_pos (by omega), raise_of_header (header_recon q sh a)]

include hlo hhi in
/-- RECON with a shift operand above 255. -/
theorem exec_recon_of_shift (h : 255 < sh.toNat) :
    exec (.recon q sh a) s = .next (s.takeException .badOperand 0x20000000#32) := by
  rw [exec_recon, execRecon, if_neg (not_not.2 ⟨hlo, hhi⟩), if_pos h, raise_of_header (header_recon q sh a)]

include hlo hhi hsh

/-- RECON with q outside the range of an INTRES-bit integer. -/
theorem exec_recon_of_not_inRange
    (h : ¬ (-2 ^ (s.intres.toNat - 1) ≤ q.toInt ∧ q.toInt ≤ 2 ^ (s.intres.toNat - 1) - 1)) :
    exec (.recon q sh a) s = .next (s.takeException .rcuRange 0x20000000#32) := by
  rw [not_and_or, not_le, not_le] at h
  rw [exec_recon, execRecon, if_neg (not_not.2 ⟨hlo, hhi⟩), if_neg (Nat.not_lt.2 hsh), if_pos h,
    raise_of_header (header_recon q sh a)]

variable (hq : -2 ^ (s.intres.toNat - 1) ≤ q.toInt ∧ q.toInt ≤ 2 ^ (s.intres.toNat - 1) - 1)
include hq

/-- RECON of an admitted q past the first three checks. -/
theorem exec_recon_of_inRange :
    exec (.recon q sh a) s =
      if isNormalWord a = false then .next (s.takeException .rcuDomain 0x20000000#32)
      else (reconstruct q.toInt (sh.toNat + 1 - s.intres.toNat) a).elim
        (.next (s.takeException .rcuDomain 0x20000000#32))
        fun y => .next { s with res0 := y, cmdcnt := s.cmdcnt + 1#32 } := by
  have hq' : ¬ (q.toInt < -2 ^ (s.intres.toNat - 1) ∨ 2 ^ (s.intres.toNat - 1) - 1 < q.toInt) := by
    rwa [not_or, not_lt, not_lt]
  rw [exec_recon, execRecon, if_neg (not_not.2 ⟨hlo, hhi⟩), if_neg (Nat.not_lt.2 hsh), if_neg hq',
    raise_of_header (header_recon q sh a)]
  refine ite_congr rfl (fun _ => rfl) fun _ => ?_
  cases reconstruct q.toInt (sh.toNat + 1 - s.intres.toNat) a <;> rfl

/-- RECON of an admitted q raises RCU_DOMAIN on a multiplier that is not normal, or when a multiplication is DOMAIN. -/
theorem exec_recon_of_domain
    (h : isNormalWord a = true → reconstruct q.toInt (sh.toNat + 1 - s.intres.toNat) a = none) :
    exec (.recon q sh a) s = .next (s.takeException .rcuDomain 0x20000000#32) := by
  rw [exec_recon_of_inRange hlo hhi hsh hq]
  cases hn : isNormalWord a with
  | false => rfl
  | true => rw [h hn]; rfl

/-- RECON of an admitted q and a normal multiplier completes with the reconstruction. -/
theorem exec_recon_of_reconstruct (hn : isNormalWord a = true) {y : Word}
    (h : reconstruct q.toInt (sh.toNat + 1 - s.intres.toNat) a = some y) :
    exec (.recon q sh a) s = .next { s with res0 := y, cmdcnt := s.cmdcnt + 1#32 } := by
  rw [exec_recon_of_inRange hlo hhi hsh hq, hn, h]
  rfl

end recon

/-- Settles O14: one lemma per check, in R131's order; the two multiplications are `reconstruct_eq_none` and
`reconstruct_of_some`. -/
theorem reconChecksThenMultipliesTwice : Obligations.ReconChecksThenMultipliesTwice := by
  intro q sh a s
  refine ⟨exec_recon_of_config, exec_recon_of_shift, exec_recon_of_not_inRange,
    fun hlo hhi hsh hq hdomain => ?domain, fun hlo hhi hsh hq hn t y ht hy => ?completes⟩
  case domain =>
    refine exec_recon_of_domain hlo hhi hsh hq fun hn => ?_
    exact reconstruct_eq_none.2 (hdomain.resolve_left (not_not.2 ((isNormalWord_iff a).1 hn)))
  case completes =>
    exact exec_recon_of_reconstruct hlo hhi hsh hq ((isNormalWord_iff a).2 hn) (reconstruct_of_some ht hy)

/-! ### RESID (R132) -/

theorem header_resid (x y : Word) : (Instr.resid x y).header = 0x21000000#32 :=
  (by decide : mkHeader 0x21 0 0 = 0x21000000#32)

/-- The mantissa difference of two normal words, from their fields. -/
def residDelta (x y : Word) : ℤ :=
  (2 ^ 23 + (fracField x : ℤ)) * 2 ^ (expField x - expField y) - (2 ^ 23 + (fracField y : ℤ))

theorem residDelta_eq (x y : Word) :
    residDelta x y = (2 ^ 23 + (fracField x : ℤ)) * 2 ^ (expField x - expField y) - (2 ^ 23 + (fracField y : ℤ)) := rfl

/-- The count of the low-order bytes that hold a difference, as a word. -/
theorem ofNat_highestByte {D : ℤ} (h : 0 ≤ D) :
    BitVec.ofNat 32 (highestByte D.toNat) =
      if D = 0 then 0#32 else if D < 2 ^ 8 then 1#32 else if D < 2 ^ 16 then 2#32 else 3#32 := by
  rw [highestByte, apply_ite (BitVec.ofNat 32), apply_ite (BitVec.ofNat 32), apply_ite (BitVec.ofNat 32)]
  exact ite_congr (propext (by omega)) (fun _ => rfl) fun _ =>
    ite_congr (propext (by omega)) (fun _ => rfl) fun _ => ite_congr (propext (by omega)) (fun _ => rfl) fun _ => rfl

section resid

variable {x y : Word} {s : State}

/-- RESID of a word that is not normal. -/
theorem exec_resid_of_not_normal (h : isNormalWord x = false ∨ isNormalWord y = false) :
    exec (.resid x y) s = .next (s.takeException .rcuDomain 0x21000000#32) := by
  rw [exec_resid, execResid, if_pos h, raise_of_header (header_resid x y)]

variable (hx : 1 ≤ expField x ∧ expField x ≤ 254) (hy : 1 ≤ expField y ∧ expField y ≤ 254)
include hx hy

/-- The model's mantissa difference of two normal words is the one of their fields. -/
theorem mantissaDelta_decompose : mantissaDelta (decompose x) (decompose y) = residDelta x y := by
  have he : ((expField x : ℤ) - 127 - ((expField y : ℤ) - 127)).toNat = expField x - expField y := by omega
  rw [decompose_normal hx.1 hx.2, decompose_normal hy.1 hy.2, mantissaDelta, he, residDelta_eq]
  push_cast
  rfl

/-- RESID of two normal words: R132's three order checks, its range check, and its results. -/
theorem exec_resid_of_normal :
    exec (.resid x y) s =
      if ¬ (signBit x = signBit y ∧ expField y ≤ expField x ∧ 0 ≤ residDelta x y) then
        .next (s.takeException .rcuOrder 0x21000000#32)
      else if 2 ^ 24 ≤ residDelta x y then .next (s.takeException .rcuRange 0x21000000#32)
      else .next { s with
        res0 := BitVec.ofNat 32 (residDelta x y).toNat
        res1 := BitVec.ofNat 32 (expField x - expField y)
        res2 := BitVec.ofNat 32 (highestByte (residDelta x y).toNat)
        cmdcnt := s.cmdcnt + 1#32 } := by
  have hn : ¬ (isNormalWord x = false ∨ isNormalWord y = false) := by
    simp [(isNormalWord_iff x).2 hx, (isNormalWord_iff y).2 hy]
  have he : (decompose x).exp - (decompose y).exp = (expField x : ℤ) - expField y := by
    rw [decompose_normal hx.1 hx.2, decompose_normal hy.1 hy.2]; dsimp only; omega
  have hle : (expField x : ℤ) - expField y < 0 ↔ ¬ expField y ≤ expField x := by omega
  have hsub : ((expField x : ℤ) - expField y).toNat = expField x - expField y := by omega
  rw [exec_resid, execResid, if_neg hn]
  simp only [mantissaDelta_decompose hx hy, he, hle, hsub, decompose_sign, raise_of_header (header_resid x y)]
  by_cases hs : signBit x = signBit y
  · by_cases hexp : expField y ≤ expField x
    · by_cases hD : 0 ≤ residDelta x y
      · rw [if_neg (not_not.2 hs), if_neg (not_not.2 hexp), if_neg (not_lt.2 hD), if_neg (not_not.2 ⟨hs, hexp, hD⟩)]
        rfl
      · rw [if_neg (not_not.2 hs), if_neg (not_not.2 hexp), if_pos (not_le.1 hD), if_pos fun h => hD h.2.2]
    · rw [if_neg (not_not.2 hs), if_pos hexp, if_pos fun h => hexp h.2.1]
  · rw [if_pos hs, if_pos fun h => hs h.1]

end resid

/-- Settles O16: the clauses are the branches of `exec_resid_of_normal`, with the difference and its byte count as words. -/
theorem residGivesTheMantissaDelta : Obligations.ResidGivesTheMantissaDelta := by
  simp only [Obligations.ResidGivesTheMantissaDelta, ← residDelta_eq]
  intro x y s
  refine ⟨fun hn => ?domain, fun ⟨hx, hx', hy, hy'⟩ ho => ?order, fun ⟨hx, hx', hy, hy'⟩ ho hD => ?range,
    fun ⟨hx, hx', hy, hy'⟩ ho hD => ?completes⟩
  case domain =>
    refine exec_resid_of_not_normal ?_
    rw [← Bool.not_eq_true, ← Bool.not_eq_true, isNormalWord_iff, isNormalWord_iff, ← not_and_or, and_assoc]
    exact hn
  case order => exact (exec_resid_of_normal ⟨hx, hx'⟩ ⟨hy, hy'⟩).trans (if_pos ho)
  case range =>
    rw [exec_resid_of_normal ⟨hx, hx'⟩ ⟨hy, hy'⟩, if_neg (not_not.2 ho), if_pos hD]
  case completes =>
    have hpos : 0 ≤ residDelta x y := ho.2.2
    have hword : BitVec.ofInt 32 (residDelta x y) = BitVec.ofNat 32 (residDelta x y).toNat := by
      rw [← BitVec.ofInt_natCast, Int.toNat_of_nonneg hpos]
    rw [exec_resid_of_normal ⟨hx, hx'⟩ ⟨hy, hy'⟩, if_neg (not_not.2 ho), if_neg (not_le.2 hD), ofNat_highestByte hpos,
      hword]
    rfl -- the two sides differ in the decision procedures of their conditions only

/-! ### NWIDTH (R135) -/

section nwidth

variable {f : Bool} {q hb : Word} {s : State}

theorem header_nwidth (f : Bool) (q hb : Word) :
    (Instr.nwidth f q hb).header = if f then 0x23000100#32 else 0x23000000#32 := by
  cases f with
  | false => exact (by decide : mkHeader 0x23 0 0 = 0x23000000#32)
  | true => exact (by decide : mkHeader 0x23 0 1 = 0x23000100#32)

/-- NWIDTH of q = 0 or of a magnitude of 2^24 or more. -/
theorem exec_nwidth_of_not_inRange (h : q.toInt.natAbs = 0 ∨ 2 ^ 24 ≤ q.toInt.natAbs) :
    exec (.nwidth f q hb) s = .next (s.takeException .rcuRange (if f then 0x23000100#32 else 0x23000000#32)) := by
  rw [Int.natAbs_eq_zero] at h
  rw [exec_nwidth, execNwidth, if_pos h, raise_of_header (header_nwidth f q hb)]

/-- NWIDTH of a sample in range: R135's check of the byte count, and its result. -/
theorem exec_nwidth_of_inRange (h0 : q.toInt.natAbs ≠ 0) (h24 : q.toInt.natAbs < 2 ^ 24) :
    exec (.nwidth f q hb) s =
      if 3 < hb.toNat then .next (s.takeException .badOperand (if f then 0x23000100#32 else 0x23000000#32))
      else .next { s with
        res0 := BitVec.ofNat 32 (if f then min (8 * hb.toNat) (24 - bitlen q.toInt.natAbs) else 8 * hb.toNat)
        cmdcnt := s.cmdcnt + 1#32 } := by
  have hq : ¬ (q.toInt = 0 ∨ 2 ^ 24 ≤ q.toInt.natAbs) := by
    rw [← Int.natAbs_eq_zero]
    exact not_or.2 ⟨h0, Nat.not_le.2 h24⟩
  rw [exec_nwidth, execNwidth, if_neg hq, raise_of_header (header_nwidth f q hb)]
  rfl

end nwidth

/-- Settles O19: the two checks in order, and the bit length fixed by its two bounds (`bitlen_unique`). -/
theorem nwidthGivesThePartBWidth : Obligations.NwidthGivesThePartBWidth := by
  intro f q hb s L
  refine ⟨exec_nwidth_of_not_inRange, fun h0 h24 hhb => ?operand, fun h24 hhb hL hlo hhi => ?completes⟩
  case operand => exact (exec_nwidth_of_inRange h0 h24).trans (if_pos hhb)
  case completes =>
    have h0 : q.toInt.natAbs ≠ 0 := ((Nat.two_pow_pos (L - 1)).trans_le hlo).ne'
    rw [exec_nwidth_of_inRange h0 h24, if_neg (Nat.not_lt.2 hhb), bitlen_unique hL hlo hhi]

end Sys2Proof.Machine
end

section
/-! The match search (R168): the path its depth-first walk keeps, which is the first longest chain. -/

namespace Sys2Proof.Machine

/-! ### The path the search keeps -/

/-- Of two paths the longer, the first of equal ones. -/
def longer (p q : List Nat) : List Nat := if p.length < q.length then q else p

/-- The path R168 keeps among those below `node`: its candidates are met in order, each with the path kept below it. -/
def longestPath (ent : Memory Entry) : List Sym → Nat → List Nat
  | [], _ => []
  | y :: ys, node => (candidates ent node y).foldl (fun p k => longer p (k :: longestPath ent ys k)) []

/-- R168's comparison of the best match so far with a code at hand. -/
def offer (best m : Nat × Nat) : Nat × Nat := if best.2 < m.2 then m else best

/-- The match a path gives, below a node that covers `depth` symbols: its last code, and the symbols that code covers. -/
def pathMatch (node depth : Nat) (p : List Nat) : Nat × Nat := (p.getLastD node, depth + p.length)

theorem offer_assoc (a b c : Nat × Nat) : offer (offer a b) c = offer a (offer b c) := by
  by_cases hab : a.2 < b.2 <;> by_cases hbc : b.2 < c.2
  · simp [offer, hab, hbc, hab.trans hbc]
  · simp [offer, hab, hbc]
  · simp [offer, hab, hbc]
  · have hac : ¬ a.2 < c.2 := by omega
    simp [offer, hab, hbc, hac]

theorem pathMatch_cons (node depth k : Nat) (p : List Nat) :
    pathMatch node depth (k :: p) = pathMatch k (depth + 1) p := by
  simp only [pathMatch, List.getLastD_cons, List.length_cons, Nat.add_assoc, Nat.add_comm 1]

/-- To compare two paths is to compare their matches. -/
theorem pathMatch_longer (node depth : Nat) (p q : List Nat) :
    pathMatch node depth (longer p q) = offer (pathMatch node depth p) (pathMatch node depth q) := by
  simp only [longer, offer, pathMatch, Nat.add_lt_add_iff_left, apply_ite]
  split_ifs <;> rfl

/-- The search below a node, the node itself offered first, offers the match of the path it keeps. -/
theorem explore_eq_offer (ent : Memory Entry) (xs : List Sym) (node depth : Nat) (best : Nat × Nat) :
    explore ent xs node depth (offer best (node, depth)) =
      offer best (pathMatch node depth (longestPath ent xs node)) := by
  induction xs generalizing node depth best with
  | nil => rfl
  | cons y ys ih =>
    simp only [explore, longestPath]
    induction candidates ent node y using List.reverseRecOn with
    | nil => rfl
    | append_singleton ks k ihks =>
      simp only [List.foldl_append, List.foldl_cons, List.foldl_nil]
      rw [ihks, pathMatch_longer, ← offer_assoc, pathMatch_cons]
      exact ih k (depth + 1) _

theorem longestMatch_eq_pathMatch (ent : Memory Entry) (x : Sym) (xs : List Sym) :
    longestMatch ent x xs = pathMatch x.sym.toNat 1 (longestPath ent xs x.sym.toNat) := by
  refine (explore_eq_offer ent xs x.sym.toNat 1 (0, 0)).trans (if_pos ?_)
  exact Nat.add_pos_left Nat.one_pos _

/-! ### The kept path is the first longest chain -/

/-- `p` is longer than `q`, or as long and the same or before it in the depth-first order. -/
def Preferred (p q : List Nat) : Prop :=
  q.length < p.length ∨ (q.length = p.length ∧ (q = p ∨ List.Lex (· < ·) p q))

theorem Preferred.length_le {p q : List Nat} (h : Preferred p q) : q.length ≤ p.length := by
  obtain h | ⟨h, -⟩ := h <;> omega

theorem Preferred.of_nil (p : List Nat) : Preferred p [] := by
  cases p with
  | nil => exact .inr ⟨rfl, .inl rfl⟩
  | cons k p => exact .inl (Nat.succ_pos _)

theorem Preferred.cons {p q : List Nat} (k : Nat) (h : Preferred p q) : Preferred (k :: p) (k :: q) := by
  obtain h | ⟨hl, rfl | hlex⟩ := h
  · exact .inl (Nat.succ_lt_succ h)
  · exact .inr ⟨rfl, .inl rfl⟩
  · exact .inr ⟨congrArg Nat.succ hl, .inr (.cons hlex)⟩

/-- A path with a smaller first code is preferred to one that is no longer. -/
theorem Preferred.of_head_lt {j k : Nat} {p q : List Nat} (hjk : j < k) (h : q.length ≤ p.length) :
    Preferred (j :: p) (k :: q) :=
  (Nat.lt_or_eq_of_le h).imp Nat.succ_lt_succ fun e => ⟨congrArg Nat.succ e, .inr (.rel hjk)⟩

/-- When the path `f k` is kept below each code `k` of an ascending list, the path kept over them all is empty or goes on
from one of them, and is preferred to each path from a code `k` that goes on no better than `f k`. -/
theorem foldl_longer_preferred (f : Nat → List Nat) {ks : List Nat} (hks : ks.Pairwise (· < ·)) :
    (ks.foldl (fun p k => longer p (k :: f k)) [] = [] ∨
        ∃ k ∈ ks, ks.foldl (fun p k => longer p (k :: f k)) [] = k :: f k) ∧
      ∀ k ∈ ks, ∀ q, Preferred (f k) q → Preferred (ks.foldl (fun p k => longer p (k :: f k)) []) (k :: q) := by
  induction ks using List.reverseRecOn with
  | nil => exact ⟨.inl rfl, by simp⟩
  | append_singleton ks l ih =>
    obtain ⟨hks, -, hlt⟩ := List.pairwise_append.1 hks
    obtain ⟨hr, hpref⟩ := ih hks
    simp only [List.foldl_append, List.foldl_cons, List.foldl_nil, List.forall_mem_append, List.forall_mem_singleton]
    generalize ks.foldl (fun p k => longer p (k :: f k)) [] = r at hr hpref
    by_cases hlen : r.length < (l :: f l).length
    · rw [longer, if_pos hlen]
      exact ⟨.inr ⟨l, by simp, rfl⟩, fun k hk q hq => .inl ((hpref k hk q hq).length_le.trans_lt hlen),
        fun q hq => hq.cons l⟩
    · rw [longer, if_neg hlen]
      refine ⟨hr.imp id fun ⟨k, hk, e⟩ => ⟨k, List.mem_append_left _ hk, e⟩, hpref, fun q hq => ?_⟩
      obtain rfl | ⟨j, hj, rfl⟩ := hr
      · exact absurd (Nat.succ_pos _) hlen
      · exact .of_head_lt (hlt j hj l List.mem_cons_self)
          (hq.length_le.trans (Nat.le_of_succ_le_succ (Nat.le_of_not_lt hlen)))

/-- The path kept below a node is an explored chain, preferred to every other. -/
theorem longestPath_preferred {ent : Memory Entry} (h : ent.wf) (xs : List Sym) (node : Nat) :
    Chain ent node xs (longestPath ent xs node) ∧
      ∀ q, Chain ent node xs q → Preferred (longestPath ent xs node) q := by
  induction xs generalizing node with
  | nil =>
    refine ⟨trivial, fun q hq => ?_⟩
    cases q with
    | nil => exact .of_nil _
    | cons k q => exact hq.elim
  | cons y ys ih =>
    obtain ⟨hr, hpref⟩ := foldl_longer_preferred (longestPath ent ys) (candidates_ascending h node y)
    refine ⟨?chain, fun q hq => ?preferred⟩
    case chain =>
      rw [longestPath]
      obtain e | ⟨k, hk, e⟩ := hr <;> rw [e]
      · trivial
      · exact ⟨(mem_candidates_iff h).1 hk, (ih k).1⟩
    case preferred =>
      cases q with
      | nil => exact .of_nil _
      | cons k q =>
        obtain ⟨hk, hq⟩ := hq
        exact hpref k ((mem_candidates_iff h).2 hk) q ((ih k).2 q hq)

/-- Settles O27: the search answers the match of the path it keeps (`longestMatch_eq_pathMatch`), and that path is the
first longest chain (`longestPath_preferred`). -/
theorem matchIsTheFirstLongestChain : Obligations.MatchIsTheFirstLongestChain := by
  intro d x xs h
  obtain ⟨hchain, hpref⟩ := longestPath_preferred h.ent_wf xs x.sym.toNat
  refine ⟨longestPath d.ent xs x.sym.toNat, hchain, ?_, hpref⟩
  rw [longestMatch_eq_pathMatch, pathMatch, Nat.add_comm]

end Sys2Proof.Machine
end

section
/-! The MDC's commands on whole dictionaries and their scalars (R172 to R175): DFLUSH, DBACKUP, DRESUME and DSTAT. -/

namespace Sys2Proof.Machine

/-! ### DFLUSH (R172) -/

/-- Settles O24: the three branches of DFLUSH. -/
theorem dflushLeavesFreshDictionaries : Obligations.DflushLeavesFreshDictionaries := by
  intro c s
  refine ⟨fun hc => ⟨s.dict.map fun _ => .live Dict.fresh, ?all, List.length_map _, fun k hk => ?entry⟩,
    fun hc hn => ?one, fun hc hn => ?badChan⟩
  case all => rw [exec_dflush, execDflush, if_pos hc]; rfl
  case entry => rw [List.getElem?_map, List.getElem?_eq_getElem hk]; rfl
  case one => rw [exec_dflush, execDflush, if_neg hc, if_neg (Nat.not_le.2 hn)]; rfl
  case badChan => rw [exec_dflush, execDflush, if_neg hc, if_pos hn, raise_eq]

/-! ### DBACKUP and DRESUME (R173, R174) -/

/-- Settles O25: the check of the channel, then the poison of the dictionary or the validity of the snapshot. -/
theorem dbackupAndDresumeCopyTheDictionary : Obligations.DbackupAndDresumeCopyTheDictionary := by
  intro c s
  refine ⟨⟨fun hn => ?backupBadChan, fun hn hd => ?poisoned, fun d hn hd => ?backup⟩,
    fun hn => ?resumeBadChan, fun hn hd => ?noSnap, fun d hn hd => ?resume⟩
  case backupBadChan => rw [exec_dbackup, execDbackup, if_pos hn, raise_eq]
  case poisoned =>
    rw [exec_dbackup, execDbackup, if_neg (Nat.not_le.2 hn), State.channel_of_getElem? hd]
    rfl
  case backup =>
    rw [exec_dbackup, execDbackup, if_neg (Nat.not_le.2 hn), State.channel_of_getElem? hd]
    rfl
  case resumeBadChan => rw [exec_dresume, execDresume, if_pos hn, raise_eq]
  case noSnap =>
    rw [exec_dresume, execDresume, if_neg (Nat.not_le.2 hn), State.snapshot_of_getElem? hd]
    rfl
  case resume =>
    rw [exec_dresume, execDresume, if_neg (Nat.not_le.2 hn), State.snapshot_of_getElem? hd]
    rfl

/-! ### DSTAT (R175) -/

/-- RES2 of DSTAT as a number: FRZ, POISON and the snapshot bit at weights 1, 2 and 4. -/
theorem statFlags_eq (frz poison snap : Bool) :
    statFlags frz poison snap = BitVec.ofNat 32 (frz.toNat + 2 * poison.toNat + 4 * snap.toNat) := by
  revert frz poison snap
  decide

/-- DSTAT of a live channel. -/
theorem exec_dstat_of_live {c : Nat} {s : State} {d : Dict} (hn : c < s.params.nch) (hd : s.channel c = .live d) :
    exec (.dstat c) s = .next { s with
      res0 := BitVec.ofNat 32 d.next
      res1 := BitVec.ofNat 32 d.w
      res2 := statFlags d.frz false (s.snapshot c).isSome
      res3 := BitVec.ofNat 32 d.bumpCode
      cmdcnt := s.cmdcnt + 1#32 } := by
  rw [exec_dstat, execDstat, if_neg (Nat.not_le.2 hn), hd]
  rfl

/-- DSTAT of a poisoned channel: the words R175 leaves unspecified are draws (U6). -/
theorem exec_dstat_of_poisoned {c : Nat} {s : State} (hn : c < s.params.nch) (hd : s.channel c = .poisoned) :
    exec (.dstat c) s = .next { s with
      res0 := Config.draw s.draws
      res1 := Config.draw (s.draws + 1)
      res2 := statFlags ((Config.draw (s.draws + 2)).getLsbD 0) true (s.snapshot c).isSome
      res3 := Config.draw (s.draws + 3)
      draws := s.draws + 4
      cmdcnt := s.cmdcnt + 1#32 } := by
  rw [exec_dstat, execDstat, if_neg (Nat.not_le.2 hn), hd]
  rfl

/-- Settles O26: the check of the channel, then its two cases, with RES2's flags as a number (`statFlags_eq`). -/
theorem dstatReportsTheScalars : Obligations.DstatReportsTheScalars := by
  intro c s
  refine ⟨fun hn => ?badChan, fun d sn hn hd hs => ?live, fun sn hn hd hs => ?poisoned⟩
  case badChan => rw [exec_dstat, execDstat, if_pos hn, raise_eq]
  case live =>
    rw [exec_dstat_of_live hn (State.channel_of_getElem? hd), State.snapshot_of_getElem? hs, statFlags_eq]
    rfl
  case poisoned =>
    refine ⟨Config.draw s.draws, Config.draw (s.draws + 1), Config.draw (s.draws + 3),
      (Config.draw (s.draws + 2)).getLsbD 0, s.draws + 4, ?_⟩
    rw [exec_dstat_of_poisoned hn (State.channel_of_getElem? hd), State.snapshot_of_getElem? hs, statFlags_eq]
    rfl

end Sys2Proof.Machine
end

section
/-! The bit port (R200 to R207): NOP, BWR, BRD, BALIGNW, BALIGNR, SETWP and SETRP. -/

namespace Sys2Proof.Machine

/-! ### Bits, most significant first (R201) -/

@[simp] theorem length_bitsMsb (n v : Nat) : (bitsMsb n v).length = n := by simp [bitsMsb]

theorem getElem?_bitsMsb {n j : Nat} (v : Nat) (h : j < n) : (bitsMsb n v)[j]? = some (v.testBit (n - 1 - j)) := by
  simp [bitsMsb, h]

/-- What a memory holds after `putbits` (R201): the `n` low bits of `v` from `k` up, and every other bit as before. -/
theorem Memory.read_writeList_bitsMsb (m : Memory Bool) (k n v p : Nat) :
    Memory.read (m.writeList k (bitsMsb n v)) p =
      if k ≤ p ∧ p < k + n then some (v.testBit (n - 1 - (p - k))) else m.read p := by
  rw [Memory.read_writeList, length_bitsMsb]
  split
  · exact getElem?_bitsMsb v (by omega)
  · rfl

/-- A bit read after a run of bits is the new least significant bit of its value. -/
theorem valMsb_concat (bs : List Bool) (b : Bool) : valMsb (bs ++ [b]) = Nat.bit b (valMsb bs) := by
  rw [valMsb, List.foldl_append, Nat.bit_val]
  rfl

/-- The bits of the value of a run, counted from its last bit; past its first bit they are 0. -/
theorem testBit_valMsb (bs : List Bool) (i : Nat) : (valMsb bs).testBit i = bs.reverse[i]?.getD false := by
  induction bs using List.reverseRecOn generalizing i with
  | nil => simp [valMsb]
  | append_singleton bs b ih =>
    rw [valMsb_concat, List.reverse_concat]
    cases i with
    | zero => simp
    | succ i => simp [Nat.testBit_bit_succ, ih]

theorem valMsb_lt (bs : List Bool) : valMsb bs < 2 ^ bs.length := by
  refine Nat.lt_pow_two_of_testBit _ fun i hi => ?_
  rw [testBit_valMsb, List.getElem?_eq_none (by rwa [List.length_reverse])]
  rfl

/-- The bits of a run are those of its value, the first one most significant. -/
theorem getElem?_eq_testBit_valMsb {bs : List Bool} {j : Nat} (h : j < bs.length) :
    bs[j]? = some ((valMsb bs).testBit (bs.length - 1 - j)) := by
  have hlast : bs.length - 1 - (bs.length - 1 - j) = j := by omega
  rw [testBit_valMsb, List.getElem?_reverse (by omega), hlast, List.getElem?_eq_getElem h]
  rfl

/-! ### NOP (R200) -/

/-- Settles O41: the row of R73 with OPC 0 is NOP, and its format shows bits 23:0 as `0`. -/
theorem nopOnlyCounts : Obligations.NopOnlyCounts := by
  refine ⟨fun s => rfl, fun ops => rfl, fun h ops hopc hbits => ?_⟩
  have hcode : headerOpc h = 0 := by rw [headerOpc, hopc]; rfl
  exact decode_of_headerOp_none (headerOp_eq_none_of_field Op.zeroMask_of_plain (hcode ▸ List.mem_cons_self) hbits) ops

/-! ### BWR (R202) -/

/-- BWR of a legal count that fits. -/
theorem exec_bwr_of_fits {n : Nat} {s : State} (v : Word) (h1 : 1 ≤ n) (h2 : n ≤ 32)
    (h : s.wptr.toNat + n ≤ s.bitLen) :
    exec (.bwr n v) s = .next { s with
      bit := s.bit.writeList s.wptr.toNat (bitsMsb n v.toNat)
      wptr := BitVec.ofNat 32 (s.wptr.toNat + n)
      cmdcnt := s.cmdcnt + 1#32 } := by
  rw [exec_bwr, execBwr, if_neg (by omega), if_neg (Nat.not_lt.2 h)]
  rfl

/-- Settles O42: the two checks in order, then `putbits` (`Memory.read_writeList_bitsMsb`). -/
theorem bwrWritesTheField : Obligations.BwrWritesTheField := by
  intro n v s
  refine ⟨fun hn => ?count, fun h1 h2 hp => ?range, fun h1 h2 hp => ⟨_, exec_bwr_of_fits v h1 h2 hp, fun p => ?field⟩⟩
  case count => rw [exec_bwr, execBwr, if_pos hn, raise_eq]
  case range => rw [exec_bwr, execBwr, if_neg (by omega), if_pos hp, raise_eq]
  case field => rw [Memory.read_writeList_bitsMsb, BitVec.testBit_toNat]

/-! ### BRD (R203) -/

section brd

variable {n : Nat} {s : State}

/-- BRD meets an unwritten bit. -/
theorem exec_brd_of_unwritten (h1 : 1 ≤ n) (h2 : n ≤ 32) (h : s.rptr.toNat + n ≤ s.bitLen)
    (hr : s.bit.readList s.rptr.toNat n = none) : exec (.brd n) s = .fault .readUnwritten := by
  rw [exec_brd, execBrd, if_neg (by omega), if_neg (Nat.not_lt.2 h), hr]

/-- BRD of written bits. -/
theorem exec_brd_of_written {bs : List Bool} (h1 : 1 ≤ n) (h2 : n ≤ 32) (h : s.rptr.toNat + n ≤ s.bitLen)
    (hr : s.bit.readList s.rptr.toNat n = some bs) :
    exec (.brd n) s = .next { s with
      res0 := BitVec.ofNat 32 (valMsb bs)
      rptr := BitVec.ofNat 32 (s.rptr.toNat + n)
      cmdcnt := s.cmdcnt + 1#32 } := by
  rw [exec_brd, execBrd, if_neg (by omega), if_neg (Nat.not_lt.2 h), hr]
  rfl

end brd

/-- Settles O43: the run the command reads is `none` exactly when a bit is unwritten (`Memory.readList_eq_none`); the value
of `n` written bits is below `2 ^ n` and has them as its bits, so that a result word of 32 bits holds all of it. -/
theorem brdReadsTheField : Obligations.BrdReadsTheField := by
  intro n s
  refine ⟨fun hn => ?count, fun h1 h2 hp => ?range, fun h1 h2 hp hu => ?unwritten, fun h1 h2 hp hall => ?written⟩
  case count => rw [exec_brd, execBrd, if_pos hn, raise_eq]
  case range => rw [exec_brd, execBrd, if_neg (by omega), if_pos hp, raise_eq]
  case unwritten => exact exec_brd_of_unwritten h1 h2 hp (Memory.readList_eq_none.2 hu)
  case written =>
    obtain ⟨bs, hr⟩ : ∃ bs, s.bit.readList s.rptr.toNat n = some bs := by
      refine Option.ne_none_iff_exists'.1 fun hnone => ?_
      obtain ⟨j, hj, hread⟩ := Memory.readList_eq_none.1 hnone
      exact hall j hj hread
    obtain ⟨rfl, hbits⟩ := Memory.readList_eq_some.1 hr
    have hword : (BitVec.ofNat 32 (valMsb bs)).toNat = valMsb bs :=
      Nat.mod_eq_of_lt ((valMsb_lt bs).trans_le (Nat.pow_le_pow_right (by decide) h2))
    refine ⟨_, exec_brd_of_written h1 h2 hp hr, ?_, fun j hj => ?_⟩
    · rw [hword]
      exact valMsb_lt bs
    · rw [hbits j hj, getElem?_eq_testBit_valMsb hj, ← BitVec.testBit_toNat, hword]

/-! ### BALIGNW and BALIGNR (R204, R205) -/

theorem padBits_lt (p : Nat) : padBits p < 8 := Nat.mod_lt _ (by decide)

theorem add_padBits_mod (p : Nat) : (p + padBits p) % 8 = 0 := by
  unfold padBits
  omega

/-- The bit memory is whole bytes (R4, R36), so that the byte boundary after a legal position is in it. -/
theorem State.add_padBits_le_bitLen {s : State} {p : Nat} (h : p ≤ s.bitLen) : p + padBits p ≤ s.bitLen := by
  have hlen : s.bitLen = 8 * s.params.bitBytes := rfl
  have hlt := padBits_lt p
  have hmod := add_padBits_mod p
  omega

/-- BALIGNW at a legal position. -/
theorem exec_balignw_of_legal {s : State} (h : s.wptr.toNat ≤ s.bitLen) :
    exec .balignw s = .next { s with
      bit := s.bit.writeList s.wptr.toNat (bitsMsb (padBits s.wptr.toNat) 0)
      wptr := BitVec.ofNat 32 (s.wptr.toNat + padBits s.wptr.toNat)
      res0 := BitVec.ofNat 32 (padBits s.wptr.toNat)
      cmdcnt := s.cmdcnt + 1#32 } := by
  rw [exec_balignw, execBalignw]
  exact if_neg (Nat.not_lt.2 (State.add_padBits_le_bitLen h))

/-- Settles O45: the number of bits is `padBits`, and `putbits` of 0 writes zero bits (`Memory.read_writeList_bitsMsb`). -/
theorem alignMovesToTheByteBoundary : Obligations.AlignMovesToTheByteBoundary := by
  intro s _ hw _
  refine ⟨⟨padBits s.wptr.toNat, _, padBits_lt _, add_padBits_mod _, exec_balignw_of_legal hw, fun p => ?zeros⟩,
    ⟨padBits s.rptr.toNat, padBits_lt _, add_padBits_mod _, rfl⟩⟩
  case zeros => rw [Memory.read_writeList_bitsMsb, Nat.zero_testBit]

/-! ### SETWP and SETRP (R206, R207) -/

theorem header_setwp (p : Word) : (Instr.setwp p).header = 0x44000000#32 :=
  (by decide : mkHeader 0x44 0 0 = 0x44000000#32)

theorem header_setrp (p : Word) : (Instr.setrp p).header = 0x45000000#32 :=
  (by decide : mkHeader 0x45 0 0 = 0x45000000#32)

/-- Settles O46: both commands make the one check of the position, the end of the bit memory included. -/
theorem setPositionsWithinTheBitMemory : Obligations.SetPositionsWithinTheBitMemory := by
  intro p s
  refine ⟨fun (hp : p.toNat ≤ s.bitLen) => ⟨?setwp, ?setrp⟩, fun (hp : s.bitLen < p.toNat) => ⟨?rangew, ?ranger⟩⟩
  case setwp => rw [exec_setwp, execSetwp, if_neg (Nat.not_lt.2 hp)]; rfl
  case setrp => rw [exec_setrp, execSetrp, if_neg (Nat.not_lt.2 hp)]; rfl
  case rangew => rw [exec_setwp, execSetwp, if_pos hp, raise_of_header (header_setwp p)]
  case ranger => rw [exec_setrp, execSetrp, if_pos hp, raise_of_header (header_setrp p)]

end Sys2Proof.Machine
end

section
/-! The STATUS word and the interrupt output (R24, R220, R227): STATUS field by field, then the fields' meanings. -/

namespace Sys2Proof.Machine

/-! ### The fields of STATUS (R24) -/

theorem statusWord_bit_idle (s : State) : s.statusWord.getLsbD 0 = s.idle := by
  simp only [State.statusWord, BitVec.getLsbD_append]
  simp

theorem statusWord_bit_err (s : State) : s.statusWord.getLsbD 1 = s.err.isSome := by
  simp only [State.statusWord, BitVec.getLsbD_append]
  simp

theorem statusWord_bit_full (s : State) : s.statusWord.getLsbD 2 = s.full := by
  simp only [State.statusWord, BitVec.getLsbD_append]
  simp

/-- The fields above the three flag bits are those of the upper part of the word. -/
theorem extractLsb'_statusWord (s : State) {i : Nat} (n : Nat) (h : 3 ≤ i) :
    s.statusWord.extractLsb' i n = (0#16 ++ s.causeCode ++ 0#5).extractLsb' (i - 3) n :=
  calc
    _ = (0#16 ++ s.causeCode ++ 0#5 ++ BitVec.ofBool s.full ++ BitVec.ofBool s.err.isSome).extractLsb' (i - 1) n :=
      BitVec.extractLsb'_append_eq_of_le (by omega)
    _ = (0#16 ++ s.causeCode ++ 0#5 ++ BitVec.ofBool s.full).extractLsb' (i - 2) n :=
      BitVec.extractLsb'_append_eq_of_le (by omega)
    _ = _ := BitVec.extractLsb'_append_eq_of_le (by omega)

theorem statusWord_reserved_low (s : State) : s.statusWord.extractLsb' 3 5 = 0#5 :=
  (extractLsb'_statusWord s 5 (by decide)).trans BitVec.extractLsb'_append_eq_right

theorem statusWord_cause (s : State) : s.statusWord.extractLsb' 8 8 = s.causeCode :=
  calc
    _ = (0#16 ++ s.causeCode ++ 0#5).extractLsb' 5 8 := extractLsb'_statusWord s 8 (by decide)
    _ = (0#16 ++ s.causeCode).extractLsb' 0 8 := BitVec.extractLsb'_append_eq_of_le (by decide)
    _ = s.causeCode := BitVec.extractLsb'_append_eq_right

theorem statusWord_reserved_high (s : State) : s.statusWord.extractLsb' 16 16 = 0#16 :=
  calc
    _ = (0#16 ++ s.causeCode ++ 0#5).extractLsb' 13 16 := extractLsb'_statusWord s 16 (by decide)
    _ = (0#16 ++ s.causeCode).extractLsb' 8 16 := BitVec.extractLsb'_append_eq_of_le (by decide)
    _ = 0#16 := BitVec.extractLsb'_append_eq_left

/-! ### What the fields say of the state -/

theorem full_iff (s : State) : s.full = true ↔ s.params.fifoDepth ≤ s.fifo.length := decide_eq_true_iff

theorem causeCode_of_noErr {s : State} (h : s.err = none) : s.causeCode = 0#8 := by rw [State.causeCode, h]

theorem causeCode_of_err {s : State} {c : Cause} (h : s.err = some c) : s.causeCode = c.code := by
  rw [State.causeCode, h]

theorem irq_iff (s : State) :
    s.irq = true ↔ (s.ieErr = true ∧ s.err.isSome = true) ∨ (s.ieIdle = true ∧ s.idle = true) := by
  simp [State.irq]

/-- The codes of R220's table, cause by cause. -/
def causeTable : List (Cause × BitVec 8) :=
  [(.illegalCmd, 0x01#8), (.badChan, 0x02#8), (.badOperand, 0x03#8), (.symRange, 0x04#8), (.bitRange, 0x05#8),
    (.config, 0x06#8), (.fifoOverflow, 0x07#8), (.fduDomain, 0x10#8), (.rcuDomain, 0x20#8), (.rcuOrder, 0x21#8),
    (.rcuRange, 0x22#8), (.mdcCorrupt, 0x30#8), (.mdcPoisoned, 0x31#8), (.mdcNoSnap, 0x32#8)]

theorem code_of_mem_causeTable : ∀ row ∈ causeTable, row.1.code = row.2 := by decide

/-- Settles O54: each part reads one field of STATUS and says what that field means; the code of a cause is its row of
R220's table. -/
theorem statusWordAndIrq : Obligations.StatusWordAndIrq := by
  intro s
  refine ⟨?idle, ?err, ?full, statusWord_reserved_low s, fun h => ?noCause, fun c hc code hrow => ?cause,
    statusWord_reserved_high s, ?irq⟩
  case idle => rw [statusWord_bit_idle, idle_iff]
  case err => rw [statusWord_bit_err, Option.isSome_iff_ne_none]
  case full => rw [statusWord_bit_full, full_iff]
  case noCause => rw [statusWord_cause, causeCode_of_noErr h]
  case cause => rw [statusWord_cause, causeCode_of_err hc, code_of_mem_causeTable (c, code) hrow]
  case irq => rw [statusWord_bit_err, statusWord_bit_idle, irq_iff]

end Sys2Proof.Machine
end

section
/-! The command encoding both ways (R70 to R73): a command's words decode to it, and no other words do. -/

namespace Sys2Proof

/-- The header check accepts every command's header, as the command's row. -/
theorem headerOp_header (i : Instr) : headerOp i.header = some i.op := by
  cases i with
  | nop => exact Laws.HeaderOpcode.nop.1
  | fdec x => exact (Laws.HeaderOpcode.fdec x).1
  | frec sg e m => exact (Laws.HeaderOpcode.frec sg e m).1
  | fmul a b => exact (Laws.HeaderOpcode.fmul a b).1
  | fdiv x y => exact (Laws.HeaderOpcode.fdiv x y).1
  | fpow2 sh => exact (Laws.HeaderOpcode.fpow2 sh).1
  | recon q sh a => exact (Laws.HeaderOpcode.recon q sh a).1
  | resid x y => exact (Laws.HeaderOpcode.resid x y).1
  | unres y d => exact (Laws.HeaderOpcode.unres y d).1
  | nwidth f q hb => exact (Laws.HeaderOpcode.nwidth f q hb).1
  | packa x idx => exact (Laws.HeaderOpcode.packa x idx).1
  | packb d w idx => exact (Laws.HeaderOpcode.packb d w idx).1
  | unpacka idx => exact (Laws.HeaderOpcode.unpacka idx).1
  | unpackb idx w => exact (Laws.HeaderOpcode.unpackb idx w).1
  | dflush c => exact (Laws.HeaderOpcode.dflush c).1
  | denc c base n => exact (Laws.HeaderOpcode.denc c base n).1
  | ddec c base n => exact (Laws.HeaderOpcode.ddec c base n).1
  | dbackup c => exact (Laws.HeaderOpcode.dbackup c).1
  | dresume c => exact (Laws.HeaderOpcode.dresume c).1
  | dstat c => exact (Laws.HeaderOpcode.dstat c).1
  | bwr n v => exact (Laws.HeaderOpcode.bwr n v).1
  | brd n => exact (Laws.HeaderOpcode.brd n).1
  | balignw => exact Laws.HeaderOpcode.balignw.1
  | balignr => exact Laws.HeaderOpcode.balignr.1
  | setwp p => exact (Laws.HeaderOpcode.setwp p).1
  | setrp p => exact (Laws.HeaderOpcode.setrp p).1

/-- The CH and N fields of a well-formed command fit their header fields. -/
theorem Instr.fields_lt {i : Instr} (h : i.WellFormed) : i.chField < 256 ∧ i.nField < 256 := by
  have zero : 0 < 256 := by decide
  cases i
  case dflush | denc | ddec | dbackup | dresume | dstat => exact ⟨of_decide_eq_true h, zero⟩
  case bwr | brd => exact ⟨zero, of_decide_eq_true h⟩
  case nwidth f _ _ => exact ⟨zero, (Bool.toNat_le f).trans_lt (by decide)⟩
  all_goals exact ⟨zero, zero⟩

theorem headerF_header_nwidth (f : Bool) (q hb : Word) : headerF (Instr.nwidth f q hb).header = f := by
  cases f with
  | false => exact (by decide : headerF (mkHeader 0x23 0 0) = false)
  | true => exact (by decide : headerF (mkHeader 0x23 0 1) = true)

/-- The operand words of a command are read back after its header, and nothing after them is. -/
theorem decodeOperands_operands {i : Instr} (h : i.WellFormed) (rest : List Word) :
    decodeOperands i.op i.header (i.operands ++ rest) = .ok i rest := by
  obtain ⟨hc, hn⟩ := Instr.fields_lt h
  have hch : headerCh i.header = i.chField := by rw [Instr.header, headerCh_mkHeader, Nat.mod_eq_of_lt hc]
  have hcount : headerN i.header = i.nField := by rw [Instr.header, headerN_mkHeader, Nat.mod_eq_of_lt hn]
  cases i
  case dflush | dbackup | dresume | dstat | denc | ddec =>
    simp only [Instr.op, decodeOperands, hch]
    rfl
  case bwr | brd =>
    simp only [Instr.op, decodeOperands, hcount]
    rfl
  case nwidth =>
    simp only [Instr.op, decodeOperands, headerF_header_nwidth]
    rfl
  all_goals rfl

/-- Settles O1: the header check gives the command's row (`headerOp_header`), and that row's operands are read back
(`decodeOperands_operands`). -/
theorem decodeOfEncodeIsTheCommand : Obligations.DecodeOfEncodeIsTheCommand := by
  intro i rest h
  rw [encode, List.cons_append, decode_cons, headerOp_header]
  exact decodeOperands_operands h rest

/-! ### Only the encoding decodes -/

/-- A header whose bits 7:0 are 0 is made of its fields (R70). -/
theorem eq_mkHeader {h : Word} (h0 : h.extractLsb' 0 8 = 0#8) : h = mkHeader (headerOpc h) (headerCh h) (headerN h) := by
  have hsplit : h = h.extractLsb' 24 8 ++ h.extractLsb' 16 8 ++ h.extractLsb' 8 8 ++ h.extractLsb' 0 8 := by
    have := h.isLt
    apply BitVec.eq_of_getLsbD_eq
    intro i hi
    simp only [BitVec.getLsbD_append, BitVec.getLsbD_extractLsb']
    grind
  rw [mkHeader, headerOpc, headerCh, headerN]
  simp only [BitVec.ofNat_toNat, BitVec.setWidth_eq]
  rw [← h0]
  exact hsplit

/-- The fields of a header that passes the header check: bits 7:0 are 0, and so are CH and N where the row's format shows
them as `0` (R71). -/
theorem extractLsb'_of_headerOp {h : Word} {o : Op} (ho : headerOp h = some o) {i w : Nat}
    (hm : o.format.zeroMask.extractLsb' i w = BitVec.allOnes w) : h.extractLsb' i w = 0#w :=
  extractLsb'_eq_zero_of_and (headerOp_eq_some.1 ho).2 hm

theorem Op.zeroMask_low (o : Op) : o.format.zeroMask.extractLsb' 0 8 = BitVec.allOnes 8 := by
  cases o <;> decide

theorem headerCh_of_headerOp {h : Word} {o : Op} (ho : headerOp h = some o)
    (hm : o.format.zeroMask.extractLsb' 16 8 = BitVec.allOnes 8) : headerCh h = 0 :=
  congrArg BitVec.toNat (extractLsb'_of_headerOp ho hm)

theorem headerN_of_headerOp {h : Word} {o : Op} (ho : headerOp h = some o)
    (hm : o.format.zeroMask.extractLsb' 8 8 = BitVec.allOnes 8) : headerN h = 0 :=
  congrArg BitVec.toNat (extractLsb'_of_headerOp ho hm)

/-- The N field of an NWIDTH header is its flag: bits 15:9 are 0 (FF2). -/
theorem headerN_of_flag {h : Word} (ho : headerOp h = some .nwidth) : headerN h = (headerF h).toNat := by
  have hz : h.extractLsb' 9 7 = 0#7 := extractLsb'_of_headerOp ho (by decide)
  have hz' := congrArg BitVec.toNat hz
  simp only [headerN, headerF, BitVec.extractLsb'_toNat, Nat.shiftRight_eq_div_pow, BitVec.getLsbD, Nat.toNat_testBit,
    BitVec.toNat_ofNat] at hz' ⊢
  omega

/-- What a command read after a header that passes the header check is: its row, its fields and its operand words. -/
theorem decodeOperands_eq_ok {h : Word} {o : Op} {ops rest : List Word} {i : Instr} (ho : headerOp h = some o)
    (hd : decodeOperands o h ops = .ok i rest) :
    i.op = o ∧ i.chField = headerCh h ∧ i.nField = headerN h ∧ i.operands ++ rest = ops ∧ i.WellFormed := by
  have hc : headerCh h < 256 := (h.extractLsb' 16 8).isLt
  have hn : headerN h < 256 := (h.extractLsb' 8 8).isLt
  cases o
  case nop | balignw | balignr =>
    cases hd
    exact ⟨rfl, (headerCh_of_headerOp ho (by decide)).symm, (headerN_of_headerOp ho (by decide)).symm, rfl, rfl⟩
  case fdec | fpow2 | unpacka | setwp | setrp =>
    match ops, hd with
    | _ :: _, rfl =>
      exact ⟨rfl, (headerCh_of_headerOp ho (by decide)).symm, (headerN_of_headerOp ho (by decide)).symm, rfl, rfl⟩
  case fmul | fdiv | resid | unres | packa | unpackb =>
    match ops, hd with
    | _ :: _ :: _, rfl =>
      exact ⟨rfl, (headerCh_of_headerOp ho (by decide)).symm, (headerN_of_headerOp ho (by decide)).symm, rfl, rfl⟩
  case frec | recon | packb =>
    match ops, hd with
    | _ :: _ :: _ :: _, rfl =>
      exact ⟨rfl, (headerCh_of_headerOp ho (by decide)).symm, (headerN_of_headerOp ho (by decide)).symm, rfl, rfl⟩
  case nwidth =>
    match ops, hd with
    | _ :: _ :: _, rfl => exact ⟨rfl, (headerCh_of_headerOp ho (by decide)).symm, (headerN_of_flag ho).symm, rfl, rfl⟩
  case dflush | dbackup | dresume | dstat =>
    cases hd
    exact ⟨rfl, rfl, (headerN_of_headerOp ho (by decide)).symm, rfl, decide_eq_true hc⟩
  case denc | ddec =>
    match ops, hd with
    | _ :: _ :: _, rfl => exact ⟨rfl, rfl, (headerN_of_headerOp ho (by decide)).symm, rfl, decide_eq_true hc⟩
  case brd =>
    cases hd
    exact ⟨rfl, (headerCh_of_headerOp ho (by decide)).symm, rfl, rfl, decide_eq_true hn⟩
  case bwr =>
    match ops, hd with
    | _ :: _, rfl => exact ⟨rfl, (headerCh_of_headerOp ho (by decide)).symm, rfl, rfl, decide_eq_true hn⟩

/-- Settles O2: the header is the command's, because its fields are (`decodeOperands_eq_ok`) and a header is made of its
fields (`eq_mkHeader`). -/
theorem decodedWordsAreTheEncoding : Obligations.DecodedWordsAreTheEncoding := by
  intro ws rest i hd
  cases ws with
  | nil => cases hd
  | cons h ops =>
    rw [decode_cons] at hd
    split at hd
    · cases hd
    · next o ho =>
      obtain ⟨rfl, hch, hn, hops, hwf⟩ := decodeOperands_eq_ok ho hd
      have hheader : i.header = h := by
        rw [Instr.header, hch, hn, ← (headerOp_eq_some.1 ho).1, ← eq_mkHeader (extractLsb'_of_headerOp ho i.op.zeroMask_low)]
      exact ⟨hwf, by rw [encode, hheader, List.cons_append, hops]⟩

end Sys2Proof
end

section
/-! The machine's invariant in two halves, what the commands store and what waits for the engine; every named update, every
command and every turn keeps them (10_state.md). -/

namespace Sys2Proof.Machine

/-- The half of `State.Inv` about the parameters, the memories, the positions and the dictionaries. -/
structure State.StoreInv (s : State) : Prop where
  params_valid : s.params.valid
  sym_wf : s.sym.wf
  sym_bound : ∀ c ∈ s.sym, c.1 < s.params.symDepth
  bit_wf : s.bit.wf
  bit_bound : ∀ c ∈ s.bit, c.1 < s.bitLen
  wptr_le : s.wptr.toNat ≤ s.bitLen
  rptr_le : s.rptr.toNat ≤ s.bitLen
  dict_length : s.dict.length = s.params.nch
  snap_length : s.snap.length = s.params.nch
  dict_inv : ∀ d, Channel.live d ∈ s.dict → d.Inv
  snap_inv : ∀ d, some d ∈ s.snap → d.Inv

/-- The half of `State.Inv` about the FIFO, the assembler, ERR and the executing command. -/
structure State.QueueInv (s : State) : Prop where
  fifo_length : s.fifo.length ≤ s.params.fifoDepth
  assembler_incomplete : decode s.assembler = .incomplete
  err_empties : s.err.isSome → s.fifo = [] ∧ s.assembler = []
  running_assembled : s.running.isSome → s.assembler = []
  running_wf : ∀ i, s.running = some i → i.WellFormed

theorem State.inv_iff {s : State} : s.Inv ↔ s.StoreInv ∧ s.QueueInv :=
  ⟨fun h => ⟨⟨h.params_valid, h.sym_wf, h.sym_bound, h.bit_wf, h.bit_bound, h.wptr_le, h.rptr_le, h.dict_length,
      h.snap_length, h.dict_inv, h.snap_inv⟩,
      ⟨h.fifo_length, h.assembler_incomplete, h.err_empties, h.running_assembled, h.running_wf⟩⟩,
    fun ⟨h, q⟩ => ⟨h.params_valid, h.sym_wf, h.sym_bound, h.bit_wf, h.bit_bound, h.wptr_le, h.rptr_le, h.dict_length,
      h.snap_length, h.dict_inv, h.snap_inv, q.fifo_length, q.assembler_incomplete, q.err_empties, q.running_assembled,
      q.running_wf⟩⟩

/-! ### What is stored, update by update -/

namespace State.StoreInv

variable {s t : State}

/-- The stored half is about seven fields only. -/
theorem of_eq (h : s.StoreInv) (hp : t.params = s.params) (hs : t.sym = s.sym) (hb : t.bit = s.bit) (hw : t.wptr = s.wptr)
    (hr : t.rptr = s.rptr) (hd : t.dict = s.dict) (hn : t.snap = s.snap) : t.StoreInv := by
  obtain ⟨h1, h2, h3, h4, h5, h6, h7, h8, h9, h10, h11⟩ := h
  constructor <;> simp only [State.bitLen, hp, hs, hb, hw, hr, hd, hn] <;> assumption

theorem setRes0 (h : s.StoreInv) (v : Word) : (s.setRes0 v).StoreInv := h.of_eq rfl rfl rfl rfl rfl rfl rfl

theorem count (h : s.StoreInv) : s.count.StoreInv := h.of_eq rfl rfl rfl rfl rfl rfl rfl

theorem takeException (h : s.StoreInv) (c : Cause) (w : Word) : (s.takeException c w).StoreInv :=
  h.of_eq (by simp) (by simp) (by simp) (by simp) (by simp) (by simp) (by simp)

theorem setWptr (h : s.StoreInv) {v : Word} (hv : v.toNat ≤ s.bitLen) : (s.setWptr v).StoreInv :=
  { h.of_eq (t := s) rfl rfl rfl rfl rfl rfl rfl with wptr_le := hv }

theorem setRptr (h : s.StoreInv) {v : Word} (hv : v.toNat ≤ s.bitLen) : (s.setRptr v).StoreInv :=
  { h.of_eq (t := s) rfl rfl rfl rfl rfl rfl rfl with rptr_le := hv }

theorem setSym (h : s.StoreInv) {m : Memory Sym} (hw : m.wf) (hb : ∀ c ∈ m, c.1 < s.params.symDepth) :
    (s.setSym m).StoreInv :=
  { h.of_eq (t := s) rfl rfl rfl rfl rfl rfl rfl with sym_wf := hw, sym_bound := hb }

theorem setBit (h : s.StoreInv) {m : Memory Bool} (hw : m.wf) (hb : ∀ c ∈ m, c.1 < s.bitLen) : (s.setBit m).StoreInv :=
  { h.of_eq (t := s) rfl rfl rfl rfl rfl rfl rfl with bit_wf := hw, bit_bound := hb }

theorem setDict (h : s.StoreInv) (c : Nat) {ch : Channel} (hc : ∀ d, ch = .live d → d.Inv) : (s.setDict c ch).StoreInv :=
  { h.of_eq (t := s) rfl rfl rfl rfl rfl rfl rfl with
    dict_length := (List.length_set ..).trans h.dict_length
    dict_inv := fun d hd => (List.mem_or_eq_of_mem_set hd).elim (h.dict_inv d) fun e => hc d e.symm }

theorem setSnap (h : s.StoreInv) (c : Nat) {d : Dict} (hc : d.Inv) : (s.setSnap c (some d)).StoreInv :=
  { h.of_eq (t := s) rfl rfl rfl rfl rfl rfl rfl with
    snap_length := (List.length_set ..).trans h.snap_length
    snap_inv := fun e he => (List.mem_or_eq_of_mem_set he).elim (h.snap_inv e) fun e' => Option.some.inj e' ▸ hc }

/-- A run of symbols inside the symbol memory can be stored. -/
theorem writeSyms (h : s.StoreInv) {k : Nat} {xs : List Sym} (hk : k + xs.length ≤ s.params.symDepth) :
    (s.setSym (s.sym.writeList k xs)).StoreInv :=
  h.setSym (Memory.wf_writeList h.sym_wf k xs) fun c hc =>
    (Memory.mem_writeList hc).elim (h.sym_bound c) fun ⟨_, hlt⟩ => hlt.trans_le hk

/-- A run of bits inside the bit memory can be stored. -/
theorem writeBits (h : s.StoreInv) {k : Nat} {bs : List Bool} (hk : k + bs.length ≤ s.bitLen) :
    (s.setBit (s.bit.writeList k bs)).StoreInv :=
  h.setBit (Memory.wf_writeList h.bit_wf k bs) fun c hc =>
    (Memory.mem_writeList hc).elim (h.bit_bound c) fun ⟨_, hlt⟩ => hlt.trans_le hk

/-- A live channel's dictionary has R32's invariants. -/
theorem channel (h : s.StoreInv) {c : Nat} {d : Dict} (hc : s.channel c = .live d) : d.Inv := by
  rw [State.channel, List.getD_eq_getElem?_getD] at hc
  cases hg : s.dict[c]? with
  | none =>
    rw [hg] at hc
    exact (Channel.live.inj hc) ▸ Dict.inv_fresh
  | some ch =>
    rw [hg] at hc
    exact h.dict_inv d (hc ▸ List.mem_of_getElem? hg)

/-- A valid snapshot has R32's invariants. -/
theorem snapshot (h : s.StoreInv) {c : Nat} {d : Dict} (hc : s.snapshot c = some d) : d.Inv := by
  rw [State.snapshot, List.getD_eq_getElem?_getD] at hc
  cases hg : s.snap[c]? with
  | none => rw [hg] at hc; cases hc
  | some sn =>
    rw [hg] at hc
    exact h.snap_inv d (hc ▸ List.mem_of_getElem? hg)

end State.StoreInv

/-- A position reached inside the bit memory is one the register holds. -/
theorem ofNat_toNat_le {p limit : Nat} (h : p ≤ limit) : (BitVec.ofNat 32 p).toNat ≤ limit :=
  (Nat.mod_le p _).trans h

/-! ### What waits, update by update -/

namespace State.QueueInv

variable {s t : State}

/-- The waiting half is about five fields only. -/
theorem of_eq (h : s.QueueInv) (hp : t.params = s.params) (hf : t.fifo = s.fifo) (ha : t.assembler = s.assembler)
    (he : t.err = s.err) (hr : t.running = s.running) : t.QueueInv := by
  obtain ⟨h1, h2, h3, h4, h5⟩ := h
  constructor <;> simp only [hp, hf, ha, he, hr] <;> assumption

/-- With nothing waiting, the half is about the executing command only. -/
theorem of_empty (hf : s.fifo = []) (ha : s.assembler = []) (hr : ∀ i, s.running = some i → i.WellFormed) : s.QueueInv where
  fifo_length := by simp [hf]
  assembler_incomplete := by rw [ha]; rfl
  err_empties _ := ⟨hf, ha⟩
  running_assembled _ := ha
  running_wf := hr

theorem takeException (h : s.QueueInv) (c : Cause) (w : Word) : (s.takeException c w).QueueInv := by
  obtain ⟨-, e⟩ | ⟨-, e⟩ := takeException_cases s c w <;> rw [e]
  · exact h
  · exact of_empty rfl rfl h.running_wf

end State.QueueInv

/-! ### The reset state -/

/-- The reset state with any memories that are canonical and inside their bounds has the invariant. -/
theorem State.inv_afterReset {s : State} (hp : s.params.valid) {sym : Memory Sym} {bit : Memory Bool} (hs : sym.wf)
    (hsb : ∀ c ∈ sym, c.1 < s.params.symDepth) (hb : bit.wf) (hbb : ∀ c ∈ bit, c.1 < s.params.bitLen) :
    (s.afterReset sym bit).Inv :=
  State.inv_iff.2 ⟨
    { params_valid := hp
      sym_wf := hs
      sym_bound := hsb
      bit_wf := hb
      bit_bound := hbb
      wptr_le := Nat.zero_le _
      rptr_le := Nat.zero_le _
      dict_length := List.length_replicate
      snap_length := List.length_replicate
      dict_inv := fun _ hd => Channel.live.inj (List.eq_of_mem_replicate hd) ▸ Dict.inv_fresh
      snap_inv := fun _ hd => nomatch List.eq_of_mem_replicate hd },
    .of_empty rfl rfl fun _ hi => nomatch hi⟩

/-- Settles O59: the reset state is what a reset with empty memories leaves (`State.inv_afterReset`). -/
theorem resetMeetsTheInvariant : Obligations.ResetMeetsTheInvariant := by
  have initial : ∀ p : Params, p.valid → (State.initial p).Inv := fun p hp =>
    State.inv_afterReset (s := State.initial p) hp Memory.wf_nil (fun _ h => nomatch h) Memory.wf_nil fun _ h => nomatch h
  exact ⟨initial _ (by decide), initial⟩

/-! ### Commands -/

/-- Whenever the result is a next state, the state has the property. -/
def NextHas (P : State → Prop) (r : Result) : Prop := ∀ t, r = .next t → P t

theorem nextHas_next {P : State → Prop} {t : State} (h : P t) : NextHas P (.next t) := by
  rintro _ ⟨⟩
  exact h

theorem nextHas_fault {P : State → Prop} (f : Fault) : NextHas P (.fault f) := by
  rintro _ ⟨⟩

theorem nextHas_complete {s : State} (h : s.StoreInv) : NextHas State.StoreInv (complete s) := nextHas_next h.count

theorem nextHas_raise {s : State} (h : s.StoreInv) (i : Instr) (c : Cause) : NextHas State.StoreInv (raise i c s) :=
  nextHas_next (h.takeException c i.header)

/-- The rows of R73 that write a memory, a position, a dictionary or a snapshot. -/
def storingOps : List Op :=
  [.packa, .packb, .dflush, .denc, .ddec, .dbackup, .dresume, .bwr, .brd, .balignw, .balignr, .setwp, .setrp]

/-- A command of any other row keeps the stored half, by what its row may write. -/
theorem exec_storeInv_of_not_storing {i : Instr} {s : State} (h : s.StoreInv) (hi : i.op ∉ storingOps) :
    NextHas State.StoreInv (exec i s) := by
  have e := exec_ends s i
  generalize exec i s = r at e
  simp only [storingOps, List.mem_cons, List.not_mem_nil, or_false, not_or] at hi
  cases e with
  | done u hu =>
    refine nextHas_complete (h.of_eq hu.params (hu.sym ?_) (hu.bit ?_) (hu.wptr ?_) (hu.rptr ?_) (hu.dict ?_)
      (hu.snap ?_)) <;>
      simp [hi]
  | raised c => exact nextHas_raise h i c
  | fatal c base n k hi' =>
    subst hi'
    simp [Instr.op] at hi
  | tooLong c base n hi' =>
    subst hi'
    simp [Instr.op] at hi
  | unwritten => exact nextHas_fault _

section storing

variable {s : State} (h : s.StoreInv)
include h

theorem execPacka_storeInv (x idx : Word) : NextHas State.StoreInv (execPacka x idx s) := by
  unfold execPacka
  split
  · exact nextHas_raise h _ _
  · next hi => exact nextHas_complete ((h.writeSyms (Nat.le_of_not_lt hi)).setRes0 _)

theorem execPackb_storeInv (d w idx : Word) : NextHas State.StoreInv (execPackb d w idx s) := by
  unfold execPackb
  split_ifs with _ _ hi
  iterate 3 exact nextHas_raise h _ _
  have hlen : idx.toNat + (residualSyms d.toNat w.toNat).length ≤ s.params.symDepth := by
    rw [length_residualSyms]
    exact Nat.le_of_not_lt hi
  exact nextHas_complete ((h.writeSyms hlen).setRes0 _)

theorem execDflush_storeInv (c : Nat) : NextHas State.StoreInv (execDflush c s) := by
  have fresh : ∀ d, Channel.live Dict.fresh = .live d → d.Inv := fun _ e => Channel.live.inj e ▸ Dict.inv_fresh
  unfold execDflush
  split_ifs
  · refine nextHas_complete { h with dict_length := (List.length_map _).trans h.dict_length, dict_inv := fun d hd => ?_ }
    obtain ⟨_, -, e⟩ := List.mem_map.1 hd
    exact fresh d e
  · exact nextHas_raise h _ _
  · exact nextHas_complete (h.setDict c fresh)

theorem execDenc_storeInv (c : Nat) (base n : Word) : NextHas State.StoreInv (execDenc c base n s) := by
  unfold execDenc
  split
  · exact nextHas_raise h _ _
  · split
    · exact nextHas_raise h _ _
    · next d hd =>
      split
      · exact nextHas_raise h _ _
      · split
        · exact nextHas_fault _
        · exact nextHas_raise h _ _
        · next xs _ =>
          unfold encodeEnd
          split
          · exact nextHas_raise (h.setBit (Memory.wf_eraseFrom h.bit_wf _) fun c hc =>
              h.bit_bound c (Memory.mem_eraseFrom hc)) _ _
          · next hl =>
            have he : ∀ e, Channel.live (d.encode xs).2 = .live e → e.Inv := fun _ e =>
              Channel.live.inj e ▸ encodeSyms_inv _ _ (h.channel hd)
            exact nextHas_complete ((((h.setDict c he).writeBits (Nat.le_of_not_lt hl)).setRes0 _).setWptr
              (ofNat_toNat_le (Nat.le_of_not_lt hl)))

theorem execDdec_storeInv (c : Nat) (base n : Word) : NextHas State.StoreInv (execDdec c base n s) := by
  unfold execDdec
  split
  · exact nextHas_raise h _ _
  · split
    · exact nextHas_raise h _ _
    · next d hd =>
      split
      · exact nextHas_raise h _ _
      · next hsym =>
        generalize hr : decodeSyms s.bit s.bitLen n.toNat s.rptr.toNat d = r
        cases r with
        | unwritten => exact nextHas_fault _
        | fatal k =>
          exact nextHas_raise ((h.setDict c fun _ e => Channel.noConfusion e).setSym
            (Memory.wf_eraseRange h.sym_wf _ _) fun c hc =>
            h.sym_bound c (Memory.mem_eraseRange hc)) _ _
        | done t =>
          obtain ⟨ht, hout, -, hp⟩ := decodeLoop_inv hr (h.channel hd) (by rintro _ ⟨⟩) (Nat.zero_le _) h.rptr_le
          have hlen : base.toNat + (t.out.map fun b => ({ sym := b, width := 8#4 } : Sym)).length ≤ s.params.symDepth := by
            rw [List.length_map, hout]
            exact Nat.le_of_not_lt hsym
          exact nextHas_complete ((((h.setDict c fun _ e => Channel.live.inj e ▸ ht).writeSyms hlen).setRes0 _).setRptr
            (ofNat_toNat_le hp))

theorem execDbackup_storeInv (c : Nat) : NextHas State.StoreInv (execDbackup c s) := by
  unfold execDbackup
  split
  · exact nextHas_raise h _ _
  · split
    · exact nextHas_raise h _ _
    · next d hd => exact nextHas_complete (h.setSnap c (h.channel hd))

theorem execDresume_storeInv (c : Nat) : NextHas State.StoreInv (execDresume c s) := by
  unfold execDresume
  split
  · exact nextHas_raise h _ _
  · split
    · exact nextHas_raise h _ _
    · next d hd => exact nextHas_complete (h.setDict c fun _ e => Channel.live.inj e ▸ h.snapshot hd)

theorem execBwr_storeInv (n : Nat) (v : Word) : NextHas State.StoreInv (execBwr n v s) := by
  unfold execBwr
  split_ifs with _ hp
  iterate 2 exact nextHas_raise h _ _
  have hlen : s.wptr.toNat + (bitsMsb n v.toNat).length ≤ s.bitLen := by
    rw [length_bitsMsb]
    exact Nat.le_of_not_lt hp
  exact nextHas_complete ((h.writeBits hlen).setWptr (ofNat_toNat_le (Nat.le_of_not_lt hp)))

theorem execBrd_storeInv (n : Nat) : NextHas State.StoreInv (execBrd n s) := by
  unfold execBrd
  split_ifs with _ hp
  iterate 2 exact nextHas_raise h _ _
  split
  · exact nextHas_fault _
  · exact nextHas_complete ((h.setRes0 _).setRptr (ofNat_toNat_le (Nat.le_of_not_lt hp)))

theorem execBalignw_storeInv : NextHas State.StoreInv (execBalignw s) := by
  have hp := State.add_padBits_le_bitLen h.wptr_le
  have hlen : s.wptr.toNat + (bitsMsb (padBits s.wptr.toNat) 0).length ≤ s.bitLen := by rwa [length_bitsMsb]
  unfold execBalignw
  exact (if_neg (Nat.not_lt.2 hp)).symm ▸ nextHas_complete (((h.writeBits hlen).setWptr (ofNat_toNat_le hp)).setRes0 _)

theorem execBalignr_storeInv : NextHas State.StoreInv (execBalignr s) :=
  nextHas_complete ((h.setRptr (ofNat_toNat_le (State.add_padBits_le_bitLen h.rptr_le))).setRes0 _)

theorem execSetwp_storeInv (p : Word) : NextHas State.StoreInv (execSetwp p s) := by
  unfold execSetwp
  split
  · exact nextHas_raise h _ _
  · next hp => exact nextHas_complete (h.setWptr (Nat.le_of_not_lt hp))

theorem execSetrp_storeInv (p : Word) : NextHas State.StoreInv (execSetrp p s) := by
  unfold execSetrp
  split
  · exact nextHas_raise h _ _
  · next hp => exact nextHas_complete (h.setRptr (Nat.le_of_not_lt hp))

/-- Every command keeps the stored half of the invariant. -/
theorem exec_storeInv (i : Instr) : NextHas State.StoreInv (exec i s) := by
  cases i with
  | packa x idx => exact execPacka_storeInv h x idx
  | packb d w idx => exact execPackb_storeInv h d w idx
  | dflush c => exact execDflush_storeInv h c
  | denc c base n => exact execDenc_storeInv h c base n
  | ddec c base n => exact execDdec_storeInv h c base n
  | dbackup c => exact execDbackup_storeInv h c
  | dresume c => exact execDresume_storeInv h c
  | bwr n v => exact execBwr_storeInv h n v
  | brd n => exact execBrd_storeInv h n
  | balignw => exact execBalignw_storeInv h
  | balignr => exact execBalignr_storeInv h
  | setwp p => exact execSetwp_storeInv h p
  | setrp p => exact execSetrp_storeInv h p
  | _ => exact exec_storeInv_of_not_storing h (by simp [Instr.op, storingOps])

end storing

/-- Every command keeps the waiting half: a completed one leaves it alone, and exception entry empties it. -/
theorem exec_queueInv {s : State} (h : s.QueueInv) (i : Instr) : NextHas State.QueueInv (exec i s) := by
  have e := exec_ends s i
  generalize exec i s = r at e
  cases e with
  | done u hu => exact nextHas_next (h.of_eq hu.params hu.fifo hu.assembler hu.err hu.running)
  | raised c => exact nextHas_next (h.takeException c _)
  | fatal c base n k =>
    refine nextHas_next (State.QueueInv.takeException ?_ k _)
    exact h.of_eq rfl rfl rfl rfl rfl
  | tooLong =>
    refine nextHas_next (State.QueueInv.takeException ?_ _ _)
    exact h.of_eq rfl rfl rfl rfl rfl
  | unwritten => exact nextHas_fault _

theorem exec_inv {s : State} (h : s.Inv) (i : Instr) : NextHas State.Inv (exec i s) := fun t ht => by
  obtain ⟨hs, hq⟩ := State.inv_iff.1 h
  exact State.inv_iff.2 ⟨exec_storeInv hs i t ht, exec_queueInv hq i t ht⟩

/-! ### Turns -/

/-- Command assembly keeps the invariant when what it does with a whole, well-formed command does. -/
theorem assemble_inv {k : Instr → State → Result}
    (hk : ∀ i t, i.WellFormed → t.Inv → t.running = none → t.assembler = [] → NextHas State.Inv (k i t)) {s : State}
    (h : s.Inv) (hr : s.running = none) : NextHas State.Inv (assemble k s) := by
  obtain ⟨hs, hq⟩ := State.inv_iff.1 h
  obtain ⟨-, e⟩ | ⟨he, hf, e⟩ | ⟨-, w, -, e⟩ | ⟨he, i, rest, hf, e⟩ := assemble_cases k s <;> rw [e]
  · exact nextHas_next h
  · refine nextHas_next (State.inv_iff.2 ⟨hs.of_eq rfl rfl rfl rfl rfl rfl rfl, ?_⟩)
    exact {
      fifo_length := Nat.zero_le _
      assembler_incomplete := hf
      err_empties := fun hsome => by simp [he] at hsome
      running_assembled := fun hsome => by simp [hr] at hsome
      running_wf := hq.running_wf }
  · exact nextHas_next (State.inv_iff.2 ⟨hs.takeException _ _, hq.takeException _ _⟩)
  · obtain ⟨taken, hfifo⟩ := decode_ok_of_incomplete hq.assembler_incomplete hf
    have hwf : i.WellFormed := (decodedWordsAreTheEncoding _ _ _ hf).1
    refine hk i _ hwf (State.inv_iff.2 ⟨hs.of_eq rfl rfl rfl rfl rfl rfl rfl, ?_⟩) hr rfl
    exact {
      fifo_length := by
        have := hq.fifo_length
        rw [hfifo, List.length_append] at this
        exact (Nat.le_add_left ..).trans this
      assembler_incomplete := rfl
      err_empties := fun hsome => by simp [he] at hsome
      running_assembled := fun _ => rfl
      running_wf := hq.running_wf }

theorem engineRun_inv {s : State} (h : s.Inv) : NextHas State.Inv (engineRun s) := by
  obtain hr | ⟨i, hr⟩ := s.running.eq_none_or_eq_some
  · rw [engineRun_of_not_running hr]
    exact assemble_inv (fun i t _ ht _ _ => exec_inv ht i) h hr
  · rw [engineRun_of_running hr]
    exact exec_inv (s := { s with running := none })
      { h with running_assembled := fun hsome => (Bool.false_ne_true hsome).elim, running_wf := fun _ e => nomatch e } i

theorem engineBegin_inv {s : State} (h : s.Inv) : NextHas State.Inv (engineBegin s) := by
  obtain hr | ⟨i, hr⟩ := s.running.eq_none_or_eq_some
  · rw [engineBegin_of_not_running hr]
    refine assemble_inv (fun i t hi ht _ ha => nextHas_next ?_) h hr
    exact { ht with running_assembled := fun _ => ha, running_wf := fun j hj => Option.some.inj hj ▸ hi }
  · rw [engineBegin_of_running hr]
    exact nextHas_next h

theorem resetInput_inv {s : State} (h : s.Inv) : s.resetInput.Inv :=
  State.inv_afterReset h.params_valid Memory.wf_nil (fun _ hc => nomatch hc) Memory.wf_nil fun _ hc => nomatch hc

theorem softReset_inv {s : State} (h : s.Inv) : s.softReset.Inv := by
  obtain ⟨-, e⟩ | ⟨-, e⟩ := softReset_cases s <;> rw [e]
  · exact State.inv_afterReset h.params_valid h.sym_wf h.sym_bound h.bit_wf h.bit_bound
  · exact resetInput_inv h

theorem writeCtrl_inv {s : State} (h : s.Inv) (v : Word) : (s.writeCtrl v).Inv := by
  obtain ⟨-, e⟩ | ⟨-, -, e⟩ | ⟨-, -, e⟩ := writeCtrl_cases s v <;> rw [e]
  · exact softReset_inv h
  · exact { h with err_empties := fun hsome => (Bool.false_ne_true hsome).elim }
  · exact { h with }

theorem pushCommand_inv {s : State} (h : s.Inv) (v : Word) : (s.pushCommand v).Inv := by
  obtain ⟨-, e⟩ | ⟨-, -, e⟩ | ⟨he, hlen, e⟩ := pushCommand_cases s v <;> rw [e]
  · exact h
  · obtain ⟨hs, hq⟩ := State.inv_iff.1 h
    exact State.inv_iff.2 ⟨hs.takeException _ _, hq.takeException _ _⟩
  · exact { h with
      fifo_length := by simpa using hlen
      err_empties := fun hsome => by simp [he] at hsome }

theorem storeIdle_inv {s u : State} (hu : u.Inv) : NextHas State.Inv (storeIdle s u) := by
  unfold storeIdle
  split
  · exact nextHas_next hu
  · exact nextHas_fault _

/-- The entry of a SYM target exists (R21, R35). -/
theorem targetAt_eq_sym {p : Params} {off i : Nat} (h : targetAt p off = .sym i) : i < p.symDepth := by
  unfold targetAt at h
  split_ifs at h with _ _ hi
  exact Target.sym.inj h ▸ hi

/-- A host word at a BIT target is stored inside the bit memory (R21, R36). -/
theorem writeBitWord_inv {s : State} (h : s.StoreInv) (j : Nat) (v : Word) (hj : 32 * j ≤ s.bitLen) :
    (s.setBit (writeBitWord s j v)).StoreInv := by
  refine h.writeBits ?_
  rw [List.length_take, length_bitsMsb]
  omega

theorem targetAt_eq_bits {p : Params} {off j : Nat} (h : targetAt p off = .bits j) : 32 * j ≤ p.bitLen := by
  unfold targetAt at h
  split_ifs at h with _ _ _ _ hj
  have := Target.bits.inj h
  simp only [Params.bitLen]
  omega

theorem writeTarget_inv {s : State} (h : s.Inv) (v : Word) {off : Nat} :
    NextHas State.Inv (writeTarget s v (targetAt s.params off)) := by
  obtain ⟨hs, hq⟩ := State.inv_iff.1 h
  generalize ht : targetAt s.params off = t
  cases t with
  | sym i =>
    refine storeIdle_inv (State.inv_iff.2
      ⟨hs.setSym (Memory.wf_write hs.sym_wf i _) fun c hc => ?_, hq.of_eq rfl rfl rfl rfl rfl⟩)
    rcases Memory.mem_write _ _ _ hc with rfl | hc
    · exact targetAt_eq_sym ht
    · exact hs.sym_bound c hc
  | bits j =>
    exact storeIdle_inv (State.inv_iff.2 ⟨writeBitWord_inv hs j v (targetAt_eq_bits ht), hq.of_eq rfl rfl rfl rfl rfl⟩)
  | hole => exact nextHas_next h
  | reg r =>
    cases r with
    | ctrl => exact nextHas_next (writeCtrl_inv h v)
    | cfg => exact storeIdle_inv { h with }
    | cmd => exact nextHas_next (pushCommand_inv h v)
    | _ => exact nextHas_next h

theorem withTarget_inv {s : State} {addr : Nat} {k : Target → Result}
    (hk : ∀ off, NextHas State.Inv (k (targetAt s.params off))) : NextHas State.Inv (withTarget s addr k) := by
  obtain ⟨-, e⟩ | ⟨-, -, e⟩ | ⟨-, -, -, e⟩ := withTarget_cases s addr k <;> rw [e]
  · exact nextHas_fault _
  · exact nextHas_fault _
  · exact hk _

theorem takeTurn_inv {s : State} (h : s.Inv) (t : Turn) : NextHas State.Inv (takeTurn t s) := by
  cases t with
  | hostRead addr =>
    exact withTarget_inv
      (k := fun t => .next { s with rdata := readTarget s (Config.draw s.draws) t, draws := s.draws + 1 })
      fun off => nextHas_next { h with }
  | hostWrite addr v => exact withTarget_inv fun off => writeTarget_inv h v
  | resetInput => exact nextHas_next (resetInput_inv h)
  | engineBegin => exact engineBegin_inv h
  | engineRun => exact engineRun_inv h

/-- Settles O58: a step is a turn or the engine's own, and each keeps the invariant (`takeTurn_inv`, `engineRun_inv`). -/
theorem stepKeepsTheInvariant : Obligations.StepKeepsTheInvariant := by
  intro s t h ht
  cases ha : s.agenda with
  | nil => exact engineRun_inv h t (step_of_no_turn ha ▸ ht)
  | cons u us => exact takeTurn_inv (s := { s with agenda := us }) { h with } u t (step_of_turn ha ▸ ht)

end Sys2Proof.Machine
end

section
/-! DENC (R170): the encoder's code sequence code by code, and what the command does with it. -/

namespace Sys2Proof.Machine

/-! ### The code sequence (R168 to R170) -/

theorem encode_nil (d : Dict) : d.encode [] = ([], d) := rfl

/-- A match that covers the last symbol is the last code. -/
theorem encode_of_drop_nil {d : Dict} {x : Sym} {xs : List Sym} (h : (x :: xs).drop (longestMatch d.ent x xs).2 = []) :
    d.encode (x :: xs) = (d.emit (longestMatch d.ent x xs).1, d) := by
  simp only [Dict.encode, List.length_cons, encodeSyms, h]

/-- A match that leaves symbols is followed by what the encoder learns, and by the code sequence of the rest. -/
theorem encode_of_drop_cons {d : Dict} {x y : Sym} {xs ys : List Sym}
    (h : (x :: xs).drop (longestMatch d.ent x xs).2 = y :: ys) :
    d.encode (x :: xs) =
      (d.emit (longestMatch d.ent x xs).1 ++ (d.learn (longestMatch d.ent x xs).1 y.sym).1 ++
          ((d.learn (longestMatch d.ent x xs).1 y.sym).2.encode (y :: ys)).1,
        ((d.learn (longestMatch d.ent x xs).1 y.sym).2.encode (y :: ys)).2) := by
  have hlen : (y :: ys).length ≤ xs.length := by
    have hl := congrArg List.length h
    have hpos := (longestMatch_bounds d.ent x xs).2.1
    rw [List.length_drop, List.length_cons] at hl
    omega
  have hrest := encodeSyms_eq_encode hlen (d.learn (longestMatch d.ent x xs).1 y.sym).2
  simp only [Dict.encode, List.length_cons, encodeSyms, h] at hrest ⊢
  rw [hrest]

/-- The entry made between two codes has the length of its match and one more (R163). -/
theorem create_longestMatch {d : Dict} (h : d.Inv) (x : Sym) (xs : List Sym) (b : Byte) :
    d.create (longestMatch d.ent x xs).1 b =
      { ent := d.ent.write d.next
          { parent := (longestMatch d.ent x xs).1, sym := b, len := (longestMatch d.ent x xs).2 + 1 }
        next := d.next + 1, w := d.w, frz := d.frz } := by
  rw [Dict.create, Dict.longestMatch_codeLen h]

/-- Settles O28: the two forms of `encode` on a nonempty list, with the cases of `Dict.learn_cases` between two codes. -/
theorem encodingEmitsMatchesAndGrows : Obligations.EncodingEmitsMatchesAndGrows := by
  intro d x xs h
  obtain ⟨-, hpos, hle⟩ := longestMatch_bounds d.ent x xs
  have hw : 1 ≤ d.w := (by decide : 1 ≤ 9).trans h.w_lower
  refine ⟨encode_nil d, hpos, hle, fun hL => encode_of_drop_nil ?_, fun y ys hdrop => ?_⟩
  · exact List.drop_eq_nil_of_le (by rw [hL, List.length_cons])
  · have hgo := encode_of_drop_cons hdrop
    have hmade := create_longestMatch h x xs y.sym
    obtain ⟨hf, e⟩ | ⟨hf, hn, e⟩ | ⟨hf, hn, hlt, e⟩ | ⟨hf, hn, hge, e⟩ :=
      Dict.learn_cases h.next_le hw (longestMatch d.ent x xs).1 y.sym <;>
      rw [e] at hgo <;> simp only [Dict.bumpCode, Config.codeBitsMax] at *
    · refine ⟨fun _ => hgo, fun hf' => ?_, fun hf' => ?_, fun hf' => ?_⟩ <;> simp [hf] at hf'
    · rw [hmade, hf] at hgo
      exact ⟨fun hf' => by simp [hf] at hf', fun _ _ => hgo, fun _ _ => by omega, fun _ _ => by omega⟩
    · rw [hmade, hf] at hgo
      exact ⟨fun hf' => by simp [hf] at hf', fun _ _ => by omega, fun _ _ _ => hgo, fun _ _ _ => by omega⟩
    · have hw15 : d.w = 15 := le_antisymm h.w_upper hge
      refine ⟨fun hf' => by simp [hf] at hf', fun _ _ => by omega, fun _ _ _ => by omega, fun _ _ _ => ?_⟩
      have hflush : d.emit Config.flushCode = bitsLsb 15 256 := by rw [Dict.emit, hw15]; rfl
      rw [hflush] at hgo
      exact hgo

/-- Encoding keeps NEXT below the BUMP code: what the encoder learns ends below it, and a frozen dictionary stays. -/
theorem encodeSyms_next_lt (fuel : Nat) (xs : List Sym) {d : Dict} (h : d.Inv) (hn : d.next < d.bumpCode) :
    (encodeSyms fuel xs d).2.next < (encodeSyms fuel xs d).2.bumpCode := by
  induction fuel generalizing xs d with
  | zero => exact hn
  | succ fuel ih =>
    match xs with
    | [] => exact hn
    | x :: xs =>
      simp only [encodeSyms]
      split
      · exact hn
      · next y ys _ =>
        obtain ⟨hinv, hlt⟩ := Dict.inv_learn h y.sym (Dict.longestMatch_code h x xs)
        cases hf : d.frz with
        | false => exact ih _ hinv (hlt hf)
        | true =>
          have hsame : (d.learn (longestMatch d.ent x xs).1 y.sym).2 = d := by simp [Dict.learn, hf]
          rw [hsame]
          exact ih _ h hn

/-- Settles O40: encoding keeps `Dict.Inv` (`encodeSyms_inv`), whose clauses bound the codes with a record, and keeps NEXT
below the BUMP code (`encodeSyms_next_lt`). -/
theorem encodingKeepsTheDictionaryInvariant : Obligations.EncodingKeepsTheDictionaryInvariant := by
  intro d xs h
  have hinv : (d.encode xs).2.Inv := encodeSyms_inv _ xs h
  refine ⟨hinv, hinv.next_le, fun k hk => ?_, encodeSyms_next_lt _ xs h⟩
  obtain ⟨hlo, hhi⟩ := (hinv.record_iff k).1 hk
  have hpow : 2 ^ (d.encode xs).2.w ≤ 2 ^ 15 := Nat.pow_le_pow_right (by decide) hinv.w_upper
  have hnext := hinv.next_le
  exact ⟨hlo, by omega⟩

/-! ### The command -/

section denc

variable {s : State} {c : Nat} {base n : Word} {d : Dict} {xs : List Sym}

/-- DENC past its checks of the channel and the range. -/
theorem exec_denc_of_live (hc : c < s.params.nch) (hd : s.channel c = .live d)
    (hr : base.toNat + n.toNat ≤ s.params.symDepth) :
    exec (.denc c base n) s =
      match readSymbols s.sym base.toNat n.toNat with
      | .error .unwritten => .fault .readUnwritten
      | .error .badWidth => raise (.denc c base n) .badOperand s
      | .ok xs => encodeEnd (.denc c base n) c s (d.encode xs) := by
  rw [exec_denc, execDenc, if_neg (Nat.not_le.2 hc), hd]
  exact if_neg (Nat.not_lt.2 hr)

/-- DENC past all its checks. -/
theorem exec_denc_of_readSymbols (hc : c < s.params.nch) (hd : s.channel c = .live d)
    (hr : base.toNat + n.toNat ≤ s.params.symDepth) (hx : readSymbols s.sym base.toNat n.toNat = .ok xs) :
    exec (.denc c base n) s = encodeEnd (.denc c base n) c s (d.encode xs) := by
  rw [exec_denc_of_live hc hd hr, hx]

/-- The state in which DENC completes with the code sequence `r`. -/
def encodedState (s : State) (c : Nat) (r : List Bool × Dict) : State :=
  { s with
    dict := s.dict.set c (.live r.2)
    bit := s.bit.writeList s.wptr.toNat r.1
    res0 := BitVec.ofNat 32 r.1.length
    wptr := BitVec.ofNat 32 (s.wptr.toNat + r.1.length)
    cmdcnt := s.cmdcnt + 1#32 }

theorem encodeEnd_of_fits (i : Instr) {r : List Bool × Dict} (h : s.wptr.toNat + r.1.length ≤ s.bitLen) :
    encodeEnd i c s r = .next (encodedState s c r) := by
  rw [encodeEnd, if_neg (Nat.not_lt.2 h)]
  rfl

/-- DENC of written symbols of width 1..8 with room for the code sequence completes. -/
theorem exec_denc_of_fits (hc : c < s.params.nch) (hd : s.channel c = .live d)
    (hr : base.toNat + n.toNat ≤ s.params.symDepth) (hx : readSymbols s.sym base.toNat n.toNat = .ok xs)
    (hl : s.wptr.toNat + (d.encode xs).1.length ≤ s.bitLen) :
    exec (.denc c base n) s = .next (encodedState s c (d.encode xs)) := by
  rw [exec_denc_of_readSymbols hc hd hr hx, encodeEnd_of_fits _ hl]

/-- A raised command ends with ERR = 1. -/
theorem err_of_raise {i : Instr} {k : Cause} {u t : State} (h : raise i k u = .next t) : t.err ≠ none := by
  rw [raise_eq] at h
  cases h
  exact Option.isSome_iff_ne_none.1 (takeException_err_isSome u k _)

/-- A DENC that ends with ERR = 0 has passed all its checks and completed. -/
theorem exec_denc_eq_next {t : State} (h : exec (.denc c base n) s = .next t) (ht : t.err = none) :
    ∃ d xs, c < s.params.nch ∧ s.channel c = .live d ∧ base.toNat + n.toNat ≤ s.params.symDepth ∧
      readSymbols s.sym base.toNat n.toNat = .ok xs ∧ s.wptr.toNat + (d.encode xs).1.length ≤ s.bitLen ∧
      t = encodedState s c (d.encode xs) := by
  rw [exec_denc, execDenc] at h
  split at h
  · exact absurd ht (err_of_raise h)
  · next hc =>
    split at h
    · exact absurd ht (err_of_raise h)
    · next d hd =>
      split at h
      · exact absurd ht (err_of_raise h)
      · next hr =>
        split at h
        · cases h
        · exact absurd ht (err_of_raise h)
        · next xs hx =>
          by_cases hl : s.wptr.toNat + (d.encode xs).1.length ≤ s.bitLen
          · rw [encodeEnd_of_fits _ hl] at h
            cases h
            exact ⟨d, xs, Nat.not_le.1 hc, hd, Nat.not_lt.1 hr, hx, hl, rfl⟩
          · rw [encodeEnd, if_pos (Nat.not_le.1 hl)] at h
            exact absurd ht (err_of_raise h)

end denc

/-- Settles O29: DENC completes in `encodedState`, and a run of bits reads back (`Memory.read_writeList`). -/
theorem dencWritesTheCodeSequence : Obligations.DencWritesTheCodeSequence := by
  intro s c base n d xs hc hd hr hlen hread hwidth hl
  exact ⟨_, exec_denc_of_fits hc (State.channel_of_getElem? hd) hr (readSymbols_eq_ok.2 ⟨hlen, hread, hwidth⟩) hl,
    fun p => Memory.read_writeList ..⟩

/-- Putting back what a list holds changes nothing. -/
theorem set_eq_self {α : Type} {l : List α} {k : Nat} {x : α} (h : l[k]? = some x) : l.set k x = l := by
  obtain ⟨hk, rfl⟩ := List.getElem?_eq_some_iff.1 h
  exact List.set_getElem_self hk

/-- The match of the only symbol is its literal. -/
theorem encode_singleton (d : Dict) (x : Sym) : d.encode [x] = (d.emit x.sym.toNat, d) := rfl

/-- Settles O30: no symbol gives no code; one symbol gives its literal and creates nothing (`encode_singleton`). -/
theorem dencOfAtMostOneSymbol : Obligations.DencOfAtMostOneSymbol := by
  intro s c base n d _ hwptr hc hd hr
  have hch := State.channel_of_getElem? hd
  refine ⟨fun hn => ?none, fun x hn hx h1 h8 hw =>
    ⟨s.bit.writeList s.wptr.toNat (d.emit x.sym.toNat), ?one, fun p => ?bits⟩⟩
  case none =>
    subst hn
    rw [exec_denc_of_fits (xs := []) hc hch hr rfl hwptr]
    simp [encodedState, encode_nil, set_eq_self hd, Memory.writeList]
  case one =>
    subst hn
    have hread : readSymbols s.sym base.toNat (1#32).toNat = .ok [x] := by simp [readSymbols, hx, h1, h8]
    have hlen : (d.encode [x]).1.length = d.w := by simp [encode_singleton, Dict.emit, bitsLsb]
    rw [exec_denc_of_fits hc hch hr hread (by rwa [hlen]), encodedState, hlen, encode_singleton, set_eq_self hd]
  case bits =>
    have hlen : (d.emit x.sym.toNat).length = d.w := by simp [Dict.emit, bitsLsb]
    rw [Memory.read_writeList, hlen]
    refine ite_congr rfl (fun hp => ?_) fun _ => rfl
    have hlt : p - s.wptr.toNat < d.w := by omega
    simp [Dict.emit, bitsLsb, hlt]

/-! ### The checks (R170, R223) -/

/-- The reading of the symbols stops at the first bad width, when every symbol before it is written. -/
theorem readSymbols_badWidth {m : Memory Sym} {i n j : Nat} {x : Sym} (hj : j < n) (hx : m.read (i + j) = some x)
    (hw : ¬ (1 ≤ x.width.toNat ∧ x.width.toNat ≤ 8)) (hb : ∀ k, k < j → m.read (i + k) ≠ none) :
    readSymbols m i n = .error .badWidth := by
  induction n generalizing i j with
  | zero => omega
  | succ n ih =>
    rw [readSymbols]
    cases j with
    | zero => rw [show m.read i = some x from hx]; exact if_neg hw
    | succ j =>
      obtain ⟨y, hy⟩ := Option.ne_none_iff_exists'.1 (hb 0 (Nat.succ_pos j))
      have hrest : readSymbols m (i + 1) n = .error .badWidth := by
        refine ih (j := j) (by omega) (by rw [Nat.add_assoc, Nat.add_comm 1]; exact hx) fun k hk => ?_
        rw [Nat.add_assoc, Nat.add_comm 1]
        exact hb (k + 1) (by omega)
      rw [show m.read i = some y from hy]
      simp only [hrest]
      exact ite_self _

/-- The reading of the symbols stops at the first unwritten one, when every symbol before it has a width of 1..8. -/
theorem readSymbols_unwritten {m : Memory Sym} {i n j : Nat} (hj : j < n) (hx : m.read (i + j) = none)
    (hb : ∀ k, k < j → ∃ x, m.read (i + k) = some x ∧ 1 ≤ x.width.toNat ∧ x.width.toNat ≤ 8) :
    readSymbols m i n = .error .unwritten := by
  induction n generalizing i j with
  | zero => omega
  | succ n ih =>
    rw [readSymbols]
    cases j with
    | zero => rw [show m.read i = none from hx]
    | succ j =>
      obtain ⟨y, hy, hw⟩ := hb 0 (Nat.succ_pos j)
      have hrest : readSymbols m (i + 1) n = .error .unwritten := by
        refine ih (j := j) (by omega) (by rw [Nat.add_assoc, Nat.add_comm 1]; exact hx) fun k hk => ?_
        rw [Nat.add_assoc, Nat.add_comm 1]
        exact hb (k + 1) (by omega)
      rw [show m.read i = some y from hy]
      simp only [hrest]
      exact if_pos hw

/-- Settles O31: the checks in order; the reading of the symbols is `readSymbols_badWidth` and `readSymbols_unwritten`; a code
sequence that does not fit erases the bits from WPTR on (`Memory.read_eraseFrom`). -/
theorem dencChecksInOrder : Obligations.DencChecksInOrder := by
  intro s c base n
  refine ⟨fun hc => ?badChan, fun hc hd => ?poisoned, fun d hc hd hr => ?range, fun d j x hc hd hr hj hx hw hb => ?width,
    fun d j hc hd hr hj hx hb => ?unwritten, fun d xs hc hd hr hlen hread hwidth hl => ⟨_, ?tooLong, fun p =>
      Memory.read_eraseFrom ..⟩⟩
  case badChan => rw [exec_denc, execDenc, if_pos hc, raise_eq]
  case poisoned => rw [exec_denc, execDenc, if_neg (Nat.not_le.2 hc), State.channel_of_getElem? hd]; rfl
  case range =>
    rw [exec_denc, execDenc, if_neg (Nat.not_le.2 hc), State.channel_of_getElem? hd]
    exact if_pos hr
  case width => rw [exec_denc_of_live hc (State.channel_of_getElem? hd) hr, readSymbols_badWidth hj hx hw hb]; rfl
  case unwritten => rw [exec_denc_of_live hc (State.channel_of_getElem? hd) hr, readSymbols_unwritten hj hx hb]
  case tooLong =>
    rw [exec_denc_of_readSymbols hc (State.channel_of_getElem? hd) hr (readSymbols_eq_ok.2 ⟨hlen, hread, hwidth⟩),
      encodeEnd, if_pos hl]
    rfl

end Sys2Proof.Machine
end

section
/-! DDEC (R171): its checks, the rounds of its loop, and how it ends. -/

namespace Sys2Proof.Machine

/-! ### Rounds on given codes -/

section rounds

variable {bit : Memory Bool} {limit n fuel : Nat} {t t' : Decoding} {v : Nat}

/-- With `n` symbols out the loop ends. -/
theorem decodeLoop_of_done (h : n ≤ t.out.length) : decodeLoop bit limit n (fuel + 1) t = .done t := by
  rw [decodeLoop, if_pos h]

/-- A code at the read position that is not MDC_CORRUPT is one round. -/
theorem decodeLoop_of_code (hn : t.out.length < n) (hc : CodeAt bit limit t v)
    (ha : applyCode n { t with p := t.p + t.d.w } v = some t') :
    decodeLoop bit limit n (fuel + 1) t = decodeLoop bit limit n fuel t' := by
  obtain ⟨hp, bs, hr, rfl⟩ := codeAt_iff.1 hc
  rw [decodeLoop, if_neg (Nat.not_le.2 hn), if_neg (Nat.not_lt.2 hp), hr]
  simp only [ha]

/-- A literal with no previous code is its byte, and teaches nothing. -/
theorem applyCode_literal {b : Byte} (hw : 9 ≤ t.d.w) (hq : t.prev = none) (hn : t.out.length < n) :
    applyCode n t b.toNat = some { t with prev := some b.toNat, out := t.out ++ [b] } := by
  have hb : b.toNat < 256 := b.isLt
  have hpow : 512 ≤ 2 ^ t.d.w := Nat.pow_le_pow_right (n := 2) (by decide) hw
  have hflush : ¬ (b.toNat = Config.flushCode ∨ (t.d.w = Config.codeBitsMax ∧ b.toNat = 32767)) := by
    simp only [Config.flushCode]; omega
  have hfreeze : b.toNat ≠ Config.freezeCode := by simp only [Config.freezeCode]; omega
  have hbump : ¬ (t.d.w < Config.codeBitsMax ∧ b.toNat = t.d.bumpCode) := by simp only [Dict.bumpCode]; omega
  have hbytes : codeBytes t.d t.prev b.toNat = some [b] := by simp [codeBytes, hb]
  rw [applyCode, if_neg hflush, if_neg hfreeze, if_neg hbump, hbytes]
  simp [Nat.not_lt.2 (Nat.succ_le_of_lt hn), decoderLearn, hq]

/-- A control code changes the dictionary, forgets the previous code when it is FLUSH, and writes nothing (R161, R171). -/
theorem applyCode_control {d' : Dict} (hw : 9 ≤ t.d.w) (hq : t.prev = none)
    (hv : (v = 256 ∨ (t.d.w = 15 ∧ v = 32767)) ∧ d' = { ent := [], next := 258, w := 9, frz := false } ∨
      v = 257 ∧ d' = { t.d with frz := true } ∨ t.d.w < 15 ∧ v = 2 ^ t.d.w - 1 ∧ d' = { t.d with w := t.d.w + 1 }) :
    applyCode n t v = some { t with d := d' } := by
  have hpow : 512 ≤ 2 ^ t.d.w := Nat.pow_le_pow_right (n := 2) (by decide) hw
  obtain ⟨hv, rfl⟩ | ⟨rfl, rfl⟩ | ⟨h15, rfl, rfl⟩ := hv
  · exact (if_pos hv).trans (by rw [hq]; rfl)
  · have hflush : ¬ (257 = Config.flushCode ∨ (t.d.w = Config.codeBitsMax ∧ 257 = 32767)) := by simp [Config.flushCode]
    exact (if_neg hflush).trans (if_pos rfl)
  · rw [applyCode, if_neg (by simp only [Config.flushCode, Config.codeBitsMax]; omega),
      if_neg (by simp only [Config.freezeCode]; omega), if_pos ⟨h15, rfl⟩]

/-- A code with an unwritten bit ends the loop (R37). -/
theorem decodeLoop_of_unwritten (hn : t.out.length < n) (hp : t.p + t.d.w ≤ limit)
    (hr : bit.readList t.p t.d.w = none) : decodeLoop bit limit n (fuel + 1) t = .unwritten := by
  rw [decodeLoop, if_neg (Nat.not_le.2 hn), if_neg (Nat.not_lt.2 hp), hr]

end rounds

/-! ### The command -/

section ddec

variable {s : State} {c : Nat} {base n : Word} {d : Dict}

/-- DDEC past its checks is R171's loop, and its end. -/
theorem exec_ddec_of_live (hc : c < s.params.nch) (hd : s.channel c = .live d)
    (hr : base.toNat + n.toNat ≤ s.params.symDepth) :
    exec (.ddec c base n) s =
      decodeEnd (.ddec c base n) c base.toNat n.toNat s (decodeSyms s.bit s.bitLen n.toNat s.rptr.toNat d) := by
  rw [exec_ddec, execDdec, if_neg (Nat.not_le.2 hc), hd]
  exact if_neg (Nat.not_lt.2 hr)

/-- The state in which DDEC completes when R171's loop ends with `t`. -/
def decodedState (s : State) (c base : Nat) (t : Decoding) : State :=
  { s with
    dict := s.dict.set c (.live t.d)
    sym := s.sym.writeList base (t.out.map fun b => { sym := b, width := 8#4 })
    res0 := BitVec.ofNat 32 (t.p - s.rptr.toNat)
    rptr := BitVec.ofNat 32 t.p
    cmdcnt := s.cmdcnt + 1#32 }

theorem decodeEnd_done (i : Instr) (c base n : Nat) (t : Decoding) :
    decodeEnd i c base n s (.done t) = .next (decodedState s c base t) := by
  rw [decodeEnd, complete_eq]
  rfl

/-- The state a fatal error leaves before exception entry: the channel poisoned, the destination entries unwritten (R167). -/
def poisonedState (s : State) (c base n : Nat) : State :=
  { s with dict := s.dict.set c .poisoned, sym := s.sym.eraseRange base n }

theorem decodeEnd_fatal (i : Instr) (c base n : Nat) (k : Cause) :
    decodeEnd i c base n s (.fatal k) = .next ((poisonedState s c base n).takeException k i.header) := rfl

/-- The destination entries of a fatal error are unwritten, and every other reads as before. -/
theorem read_poisonedState (c base n a : Nat) :
    (poisonedState s c base n).sym.read a = if base ≤ a ∧ a < base + n then none else s.sym.read a := by
  refine (Memory.read_eraseRange ..).trans ?_
  by_cases h : base ≤ a ∧ a < base + n
  · rw [if_neg (by omega), if_pos h]
  · rw [if_pos (by omega), if_neg h]

/-- DDEC of no symbol reads nothing and keeps the dictionary. -/
theorem decodeSyms_zero (bit : Memory Bool) (limit p : Nat) (d : Dict) :
    decodeSyms bit limit 0 p d = .done { p := p, d := d, prev := none, out := [] } :=
  decodeLoop_of_done (Nat.zero_le _)

/-- DDEC of one symbol whose first code is a literal. -/
theorem decodeLoop_literal {bit : Memory Bool} {limit p fuel : Nat} {b : Byte} (hw : 9 ≤ d.w) (hp : p + d.w ≤ limit)
    (hb : ∀ j, j < d.w → bit.read (p + j) = some (b.toNat.testBit j)) :
    decodeLoop bit limit 1 (fuel + 2) { p := p, d := d, prev := none, out := [] } =
      .done { p := p + d.w, d := d, prev := some b.toNat, out := [b] } := by
  have hpow : 512 ≤ 2 ^ d.w := Nat.pow_le_pow_right (n := 2) (by decide) hw
  have hlt : b.toNat < 2 ^ d.w := by have : b.toNat < 256 := b.isLt; omega
  rw [decodeLoop_of_code (v := b.toNat) Nat.one_pos ⟨hp, hlt, hb⟩
    (applyCode_literal (t := { p := p + d.w, d := d, prev := none, out := [] }) hw rfl Nat.one_pos)]
  exact decodeLoop_of_done (Nat.le_refl 1)

/-- A symbol memory with one byte stored. -/
theorem read_writeList_byte (m : Memory Sym) (k : Nat) (b : Byte) (a : Nat) :
    (m.writeList k [{ sym := b, width := 8#4 }]).read a =
      if a = k then some { sym := b, width := 8#4 } else m.read a := Memory.read_write ..

end ddec

/-- Settles O32: no symbol ends the loop at once; a literal is one round (`decodeLoop_literal`). -/
theorem ddecOfAtMostOneLiteral : Obligations.DdecOfAtMostOneLiteral := by
  intro s c base n d hp _ hc hd hw hr
  have hch := State.channel_of_getElem? hd
  refine ⟨fun hn => ?none, fun b hn hlen hb => ⟨_, ?one, read_writeList_byte s.sym base.toNat b⟩⟩
  case none =>
    subst hn
    rw [exec_ddec_of_live hc hch hr]
    simp [decodeSyms_zero, decodeEnd_done, decodedState, set_eq_self hd, Memory.writeList]
  case one =>
    subst hn
    obtain ⟨fuel, hfuel⟩ : ∃ fuel, s.bitLen = fuel + 1 := ⟨s.bitLen - 1, by omega⟩
    have hloop : decodeSyms s.bit s.bitLen 1 s.rptr.toNat d =
        .done { p := s.rptr.toNat + d.w, d := d, prev := some b.toNat, out := [b] } := by
      rw [decodeSyms, hfuel]
      exact decodeLoop_literal hw (hfuel ▸ hlen) hb
    rw [exec_ddec_of_live hc hch hr]
    exact (congrArg _ hloop).trans (by simp [decodeEnd_done, decodedState, set_eq_self hd])

/-- Settles O33: the control code is a round (`applyCode_control`), and the literal after it another
(`decodeLoop_literal`). -/
theorem ddecAppliesControlCodes : Obligations.DdecAppliesControlCodes := by
  intro s c base d d' v b hp hc hd hw hr hv hlen hbits hbits'
  have hch := State.channel_of_getElem? hd
  refine ⟨_, ?_, read_writeList_byte s.sym base.toNat b⟩
  have hpow : 512 ≤ 2 ^ d.w := Nat.pow_le_pow_right (n := 2) (by decide) hw
  have hv' : v < 2 ^ d.w ∧ 9 ≤ d'.w := by
    obtain ⟨rfl | ⟨h15, rfl⟩, rfl⟩ | ⟨rfl, rfl⟩ | ⟨-, rfl, rfl⟩ := hv
    · exact ⟨by omega, le_rfl⟩
    · exact ⟨by rw [h15]; decide, le_rfl⟩
    · exact ⟨by omega, hw⟩
    · exact ⟨by omega, Nat.le_succ_of_le hw⟩
  obtain ⟨fuel, hfuel⟩ : ∃ fuel, s.bitLen = fuel + 2 := ⟨s.bitLen - 2, by omega⟩
  have hloop : decodeSyms s.bit s.bitLen 1 s.rptr.toNat d =
      .done { p := s.rptr.toNat + d.w + d'.w, d := d', prev := some b.toNat, out := [b] } := by
    have hcode : CodeAt s.bit s.bitLen { p := s.rptr.toNat, d := d, prev := none, out := [] } v :=
      ⟨by simp only; omega, hv'.1, hbits⟩
    have hcontrol := applyCode_control (n := 1)
      (t := { p := s.rptr.toNat + d.w, d := d, prev := none, out := [] }) hw rfl hv
    rw [decodeSyms, decodeLoop_of_code Nat.one_pos hcode hcontrol, hfuel]
    exact decodeLoop_literal hv'.2 (hfuel ▸ hlen) hbits'
  have hres : s.rptr.toNat + d.w + d'.w - s.rptr.toNat = d.w + d'.w := by omega
  rw [exec_ddec_of_live hc hch hr]
  exact (congrArg _ hloop).trans (by simp only [decodeEnd_done, decodedState, hres]; rfl)

/-! ### The loop in full -/

/-- DDEC after any rounds of its loop goes on from there. -/
theorem exec_ddec_of_rounds {s : State} {c : Nat} {base n : Word} {d : Dict} {t : Decoding} (hc : c < s.params.nch)
    (hd : s.channel c = .live d) (hi : d.Inv) (hr : base.toNat + n.toNat ≤ s.params.symDepth)
    (ht : Relation.ReflTransGen (DecodeRound s.bit s.bitLen n.toNat)
      { p := s.rptr.toNat, d := d, prev := none, out := [] } t) :
    (t.d.Inv ∧ t.Known) ∧ ∃ fuel, exec (.ddec c base n) s =
      decodeEnd (.ddec c base n) c base.toNat n.toNat s (decodeLoop s.bit s.bitLen n.toNat (fuel + 1) t) := by
  obtain ⟨⟨hti, htk, -⟩, fuel, hloop⟩ := decodeLoop_rounds (fuel := s.bitLen + 1) ht hi (by rintro _ ⟨⟩) (Nat.zero_le _)
    (by simp only; omega) (Nat.succ_pos _)
  exact ⟨⟨hti, htk⟩, fuel, by rw [exec_ddec_of_live hc hd hr, decodeSyms, hloop]⟩

/-- Settles O34: after the rounds (`exec_ddec_of_rounds`), the four ends of the loop (`decodeLoop_ends`). -/
theorem ddecFollowsItsCodes : Obligations.DdecFollowsItsCodes := by
  intro s c base n d t hc hd hi hr ht
  obtain ⟨⟨hti, htk⟩, fuel, hexec⟩ := exec_ddec_of_rounds hc (State.channel_of_getElem? hd) hi hr ht
  obtain ⟨hdone, hcorrupt, hrange, hunwritten⟩ :=
    decodeLoop_ends (bit := s.bit) (limit := s.bitLen) (n := n.toNat) (g := fuel) hti htk
  refine ⟨fun hn => ⟨(decodedState s c base.toNat t).sym, ?completes, fun a => ?bytes⟩,
    fun v hn hv he => ⟨_, ?corrupt, read_poisonedState c base.toNat n.toNat⟩,
    fun hn hp => ⟨_, ?range, read_poisonedState c base.toNat n.toNat⟩, fun j hn hp hj hb => ?unwritten⟩
  case completes => rw [hexec, hdone hn, decodeEnd_done, decodedState]
  case bytes =>
    refine (Memory.read_writeList ..).trans ?_
    rw [List.length_map, hn, List.getElem?_map]
  case corrupt => rw [hexec, hcorrupt v hn hv he, decodeEnd_fatal, poisonedState]
  case range => rw [hexec, hrange hn hp, decodeEnd_fatal, poisonedState]
  case unwritten => rw [hexec, hunwritten j hn hp hj hb, decodeEnd]

/-! ### Fatal errors and the checks before any read -/

/-- The loop ends with exactly `n` symbols out: no code writes more than are expected (R171). -/
theorem decodeLoop_length {bit : Memory Bool} {limit n fuel : Nat} {t u : Decoding}
    (h : decodeLoop bit limit n fuel t = .done u) (ht : t.out.length ≤ n) : u.out.length = n := by
  induction fuel generalizing t with
  | zero => cases h
  | succ fuel ih =>
    rw [decodeLoop] at h
    split_ifs at h with hn
    · cases h
      exact le_antisymm ht hn
    · split at h
      · cases h
      · split at h
        · cases h
        · next t' ha =>
          refine ih h ?_
          obtain ⟨-, rfl⟩ | ⟨-, rfl⟩ | ⟨-, -, rfl⟩ | ⟨bs, d, -, hlen, -, rfl⟩ := applyCode_cases ha
          · exact ht
          · exact ht
          · exact ht
          · exact List.length_append ▸ hlen

/-- How a DDEC can end in a next state: by one of its three checks, with a fatal error, or complete. -/
theorem exec_ddec_eq_next {s t : State} {c : Nat} {base n : Word} (h : exec (.ddec c base n) s = .next t) :
    (∃ k ∈ [Cause.badChan, .mdcPoisoned, .symRange], t = s.takeException k (Instr.ddec c base n).header) ∨
      (∃ k, t = (poisonedState s c base.toNat n.toNat).takeException k (Instr.ddec c base n).header) ∨
      ∃ u, u.out.length = n.toNat ∧ t = decodedState s c base.toNat u := by
  rw [exec_ddec, execDdec] at h
  split at h
  · cases h
    exact .inl ⟨_, by simp, rfl⟩
  · split at h
    · cases h
      exact .inl ⟨_, by simp, rfl⟩
    · next d _ =>
      split at h
      · cases h
        exact .inl ⟨_, by simp, rfl⟩
      · generalize hr : decodeSyms s.bit s.bitLen n.toNat s.rptr.toNat d = r at h
        cases r with
        | unwritten => cases h
        | fatal k =>
          rw [decodeEnd_fatal] at h
          cases h
          exact .inr (.inl ⟨k, rfl⟩)
        | done u =>
          rw [decodeEnd_done] at h
          cases h
          exact .inr (.inr ⟨u, decodeLoop_length hr (Nat.zero_le _), rfl⟩)

/-- A code that is no control code and not below NEXT stands for no bytes when there is no previous code (R171). -/
theorem codeEffect_of_unknown {n : Nat} {t : Decoding} {v : Nat} (hi : t.d.Inv) (hq : t.prev = none) (hn : t.d.next ≤ v)
    (hv : v < 2 ^ t.d.w - 1) : CodeEffect n t v none := by
  have hfirst : 258 ≤ t.d.next := hi.first_le_next
  refine .noBytes ?_ fun bs hs => ?_
  · rintro (h | h | h) <;> omega
  · cases hs with
    | known hv' _ => omega
    | pending hq' => simp [hq] at hq'

/-- Settles O35: a DDEC that raises otherwise than by its checks is fatal (`exec_ddec_eq_next`); the two kinds of first code
are the loop's ends before any round (`ddecFollowsItsCodes`). -/
theorem ddecFatalErrorsPoison : Obligations.DdecFatalErrorsPoison := by
  refine ⟨fun s t c base n he h ht => ?fatal, fun s c base n d hc hd hi hr hn => ?first⟩
  case fatal =>
    obtain ⟨k, hk, rfl⟩ | ⟨k, rfl⟩ | ⟨u, -, rfl⟩ := exec_ddec_eq_next h
    · rw [takeException_of_no_err he] at ht
      simp only [List.mem_cons, List.not_mem_nil, or_false] at hk
      obtain rfl | rfl | rfl := hk <;> simp at ht
    · exact ⟨k, _, rfl, read_poisonedState c base.toNat n.toNat⟩
    · have hu : (decodedState s c base.toNat u).err = none := he
      simp [hu] at ht
  case first =>
    have hpos : 0 < n.toNat := Nat.pos_of_ne_zero fun h => hn (BitVec.eq_of_toNat_eq h)
    obtain ⟨-, hcorrupt, hrange, -⟩ := ddecFollowsItsCodes s c base n d _ hc hd hi hr .refl
    exact ⟨fun v hnext hv hp hb => hcorrupt v hpos ⟨hp, by simp only; omega, hb⟩ (codeEffect_of_unknown hi rfl hnext hv),
      hrange hpos⟩

/-- Settles O36: the checks in order; a first code with an unwritten bit is read as `none` (`Memory.readList_eq_none`). -/
theorem ddecChecksInOrder : Obligations.DdecChecksInOrder := by
  intro s c base n
  refine ⟨fun hc => ?badChan, fun hc hd => ?poisoned, fun d hc hd hr => ?range, fun d j hc hd hr hn hp hj hb => ?unwritten⟩
  case badChan => rw [exec_ddec, execDdec, if_pos hc, raise_eq]
  case poisoned => rw [exec_ddec, execDdec, if_neg (Nat.not_le.2 hc), State.channel_of_getElem? hd]; rfl
  case range =>
    rw [exec_ddec, execDdec, if_neg (Nat.not_le.2 hc), State.channel_of_getElem? hd]
    exact if_pos hr
  case unwritten =>
    have hpos : 0 < n.toNat := Nat.pos_of_ne_zero fun h => hn (BitVec.eq_of_toNat_eq h)
    have hread : s.bit.readList s.rptr.toNat d.w = none := Memory.readList_eq_none.2 ⟨j, hj, hb⟩
    rw [exec_ddec_of_live hc (State.channel_of_getElem? hd) hr, decodeSyms, decodeLoop_of_unwritten hpos hp hread]
    rfl

end Sys2Proof.Machine
end

section
/-! Lock-step (R176, R177): a decoder that reads an encoder's code sequence keeps the encoder's dictionary, one entry behind,
and writes bytes that agree with the symbols encoded. -/

namespace Sys2Proof.Machine

/-- The byte agrees with the symbol on its top `width` bits. -/
def Agrees (x : Sym) (b : Byte) : Prop := topBits x.width.toNat b = topBits x.width.toNat x.sym

/-! ### Expansions of matches (R162, R168) -/

/-- A code in another dictionary whose records below `k` are the same has the same expansion. -/
theorem Expands.of_read_eq {d e : Dict} (hd : d.Records) {k v : Nat} {bs : List Byte}
    (hr : ∀ j, j < k → d.ent.read j = e.ent.read j) (hv : v < k) (h : Expands d v bs) : Expands e v bs := by
  induction h with
  | literal hlt => exact .literal hlt
  | string hk he _ ih => exact .string hk (hr _ hv ▸ he) (ih ((hd.record _ _ he).1.trans hv))

/-- The code of a match stands for the first symbol's byte and bytes that agree with the symbols the match covers. -/
theorem longestMatch_expands {d : Dict} (h : d.Inv) (x : Sym) (xs : List Sym) :
    ∃ bs, Expands d (longestMatch d.ent x xs).1 (x.sym :: bs) ∧
      List.Forall₂ Agrees ((x :: xs).take (longestMatch d.ent x xs).2) (x.sym :: bs) := by
  have literal : ∃ bs, Expands d x.sym.toNat (x.sym :: bs) ∧ List.Forall₂ Agrees ((x :: xs).take 1) (x.sym :: bs) := by
    have he : Expands d x.sym.toNat [BitVec.ofNat 8 x.sym.toNat] := .literal x.sym.isLt
    rw [BitVec.ofNat_toNat, BitVec.setWidth_eq] at he
    exact ⟨[], he, .cons rfl .nil⟩
  refine explore_induct
    (fun k n => ∃ bs, Expands d k (x.sym :: bs) ∧ List.Forall₂ Agrees ((x :: xs).take n) (x.sym :: bs)) xs _ _ _
    literal literal fun j y k n hj hn ⟨bs, he, hf⟩ c hc => ?_
  obtain ⟨e, hmem, rfl, htop⟩ := mem_candidates hc
  have hread := Memory.read_of_mem h.ent_wf hmem
  have hsym : (x :: xs)[n]? = some y := by rw [hn, Nat.add_comm, List.getElem?_cons_succ, hj]
  have hfirst : 258 ≤ c := ((h.record_iff c).1 (Option.isSome_of_eq_some hread)).1
  refine ⟨bs ++ [e.sym], .string hfirst hread he, ?_⟩
  rw [List.take_add_one, hsym]
  exact List.rel_append hf (.cons htop .nil)

/-! ### Codes on the bit memory (R165, R166) -/

/-- The bits stand at position `p`, inside the bit memory. -/
def HoldsAt (bit : Memory Bool) (limit p : Nat) (bs : List Bool) : Prop :=
  p + bs.length ≤ limit ∧ ∀ j, j < bs.length → bit.read (p + j) = bs[j]?

theorem HoldsAt.left {bit : Memory Bool} {limit p : Nat} {as bs : List Bool} (h : HoldsAt bit limit p (as ++ bs)) :
    HoldsAt bit limit p as := by
  obtain ⟨hl, hr⟩ := h
  rw [List.length_append] at hl
  refine ⟨by omega, fun j hj => ?_⟩
  rw [hr j (by rw [List.length_append]; omega), List.getElem?_append_left hj]

theorem HoldsAt.right {bit : Memory Bool} {limit p : Nat} {as bs : List Bool} (h : HoldsAt bit limit p (as ++ bs)) :
    HoldsAt bit limit (p + as.length) bs := by
  obtain ⟨hl, hr⟩ := h
  rw [List.length_append] at hl
  refine ⟨by omega, fun j hj => ?_⟩
  rw [Nat.add_assoc, hr _ (by rw [List.length_append]; omega), List.getElem?_append_right (Nat.le_add_right ..),
    Nat.add_sub_cancel_left]

@[simp] theorem length_emit (d : Dict) (v : Nat) : (d.emit v).length = d.w := by simp [Dict.emit, bitsLsb]

/-- An emitted code that fits its width is the code the decoder reads. -/
theorem HoldsAt.codeAt {bit : Memory Bool} {limit : Nat} {t : Decoding} {d : Dict} {v : Nat}
    (h : HoldsAt bit limit t.p (d.emit v)) (hw : t.d.w = d.w) (hv : v < 2 ^ d.w) : CodeAt bit limit t v := by
  obtain ⟨hl, hr⟩ := h
  rw [length_emit] at hl hr
  refine ⟨hw ▸ hl, hw ▸ hv, fun j hj => ?_⟩
  rw [hw] at hj
  simp [hr j hj, Dict.emit, bitsLsb, hj]

/-! ### One code of the encoder, read by the decoder -/

/-- The decoder at `t` follows an encoder whose dictionary is `e` and whose symbols to come are `x :: xs`: the entry the
decoder makes with the next code, which begins with the byte of `x`, gives it the encoder's dictionary. -/
structure LockStep (bit : Memory Bool) (limit n : Nat) (t : Decoding) (e : Dict) (x : Sym) (xs : List Sym) : Prop where
  inv : t.d.Inv
  known : t.Known
  learns : decoderLearn t.d t.prev [x.sym] = some e
  count : t.out.length + (x :: xs).length = n
  bits : HoldsAt bit limit t.p (e.encode (x :: xs)).1

section lockstep

variable {bit : Memory Bool} {limit n : Nat} {t : Decoding} {e : Dict} {x : Sym} {xs : List Sym}

theorem decoderLearn_inv {d : Dict} {prev : Option Nat} {bs : List Byte} (hd : d.Inv)
    (hk : ∀ q, prev = some q → q < 256 ∨ (d.ent.read q).isSome) (h : decoderLearn d prev bs = some e) :
    e.Inv ∧ e.w = d.w := by
  obtain ⟨-, rfl⟩ | ⟨q, hq, -, hn, rfl⟩ := decoderLearn_cases h
  · exact ⟨hd, rfl⟩
  · exact ⟨Dict.inv_create hd _ (hk q hq) hn, rfl⟩

theorem LockStep.encoder_inv (h : LockStep bit limit n t e x xs) : e.Inv ∧ e.w = t.d.w :=
  decoderLearn_inv h.inv h.known h.learns

/-- A code the encoder has is read as the same bytes: below the decoder's NEXT by its own expansion, and at NEXT, for the
entry the encoder has just made, by the previous code's and its first byte (R171). -/
theorem codeSymbols_of_expands {d : Dict} {prev : Option Nat} {b : Byte} {bs : List Byte} {v : Nat} (hd : d.Records)
    (hk : ∀ q, prev = some q → q < 256 ∨ (d.ent.read q).isSome) (hl : decoderLearn d prev [b] = some e) (he : e.Inv)
    (h : Expands e v (b :: bs)) : CodeSymbols d prev v (b :: bs) := by
  have hfirst : 258 ≤ d.next := hd.first_le_next
  have hcode : v < 256 ∨ 258 ≤ v ∧ v < e.next := by
    generalize b :: bs = all at h
    cases h with
    | literal hlt => exact .inl hlt
    | string _ hread _ => exact .inr ((he.record_iff v).1 (Option.isSome_of_eq_some hread))
  obtain ⟨-, rfl⟩ | ⟨q, rfl, hf, -, rfl⟩ := decoderLearn_cases hl
  · exact .known hcode h
  · have hsame : ∀ j, j < d.next → (d.create q b).ent.read j = d.ent.read j := fun j hj => by
      rw [Dict.create_read, if_neg hj.ne]
    by_cases hv : v < d.next
    · exact .known (hcode.imp_right fun hc => ⟨hc.1, hv⟩) (h.of_read_eq he.toRecords hsame hv)
    · have hnext : v = d.next := by
        obtain hc | ⟨-, hc⟩ := hcode
        · omega
        · exact le_antisymm (Nat.le_of_lt_succ hc) (Nat.le_of_not_lt hv)
      subst hnext
      generalize hbs : b :: bs = all at h
      cases h with
      | literal hlt => omega
      | @string _ r ps _ hread hp =>
        rw [Dict.create_read, if_pos rfl] at hread
        cases hread
        have hq : q < d.next := (hk q rfl).elim (fun hlt => by omega) fun hs => ((hd.record_iff q).1 hs).2
        have hps : Expands d q ps := hp.of_read_eq he.toRecords hsame hq
        obtain ⟨b', ps', rfl⟩ := List.exists_cons_of_ne_nil (hps.length hd).2
        obtain ⟨rfl, -⟩ := List.cons.inj hbs
        exact .pending rfl hf hps

/-- The code of the encoder's match is no control code. -/
theorem not_isControl_longestMatch (he : e.Inv) (x : Sym) (xs : List Sym) :
    ¬ IsControl e (longestMatch e.ent x xs).1 ∧ (longestMatch e.ent x xs).1 < 2 ^ e.w := by
  have hpow : 512 ≤ 2 ^ e.w := Nat.pow_le_pow_right (n := 2) (by decide) he.w_lower
  have hnext := he.next_le
  have hcode : (longestMatch e.ent x xs).1 < 256 ∨ 258 ≤ (longestMatch e.ent x xs).1 ∧ (longestMatch e.ent x xs).1 < e.next :=
    (Dict.longestMatch_code he x xs).imp_right (he.record_iff _).1
  simp only [IsControl]
  omega

/-- The decoder reads the code of the encoder's match: it writes bytes that agree with the symbols the match covers, and its
dictionary is then the encoder's. -/
theorem LockStep.reads_match (h : LockStep bit limit n t e x xs)
    (hb : HoldsAt bit limit t.p (e.emit (longestMatch e.ent x xs).1)) :
    ∃ bs, List.Forall₂ Agrees ((x :: xs).take (longestMatch e.ent x xs).2) bs ∧
      DecodeRound bit limit n t
        { p := t.p + e.w, d := e, prev := some (longestMatch e.ent x xs).1, out := t.out ++ bs } := by
  obtain ⟨he, hw⟩ := h.encoder_inv
  obtain ⟨bs, hexp, hagree⟩ := longestMatch_expands he x xs
  obtain ⟨hcontrol, hlt⟩ := not_isControl_longestMatch he x xs
  have hcontrol' : ¬ IsControl t.d (longestMatch e.ent x xs).1 := by rwa [IsControl, ← hw]
  have hcount := h.count
  have hlen : t.out.length + (x.sym :: bs).length ≤ n := by
    have htake := hagree.length_eq
    rw [List.length_take] at htake
    omega
  have hlearns : Learns t.d t.prev ((x.sym :: bs).headD 0#8) e :=
    (decoderLearn_eq_some h.inv.toRecords h.known).1 h.learns
  have hround : CodeEffect n { t with p := t.p + t.d.w } (longestMatch e.ent x xs).1 (some
      { t with p := t.p + t.d.w, d := e, prev := some (longestMatch e.ent x xs).1, out := t.out ++ x.sym :: bs }) :=
    .bytes hcontrol' (codeSymbols_of_expands h.inv.toRecords h.known h.learns he hexp) hlen hlearns
  refine ⟨x.sym :: bs, hagree, ?_, _, hb.codeAt hw.symm hlt, ?_⟩
  · rw [List.length_cons] at hcount
    omega
  · rw [hw]
    exact hround

/-- The decoder reads what the encoder emits between two codes, nothing or a control code (R169): it then makes the
encoder's entry with the next code. -/
theorem reads_learned {y : Sym} (he : t.d.Inv) (hn : t.out.length < n) {v : Nat} (hq : t.prev = some v) (hk : t.Known)
    (hb : HoldsAt bit limit t.p (t.d.learn v y.sym).1) :
    ∃ t', Relation.ReflTransGen (DecodeRound bit limit n) t t' ∧ t'.d.Inv ∧ t'.Known ∧
      decoderLearn t'.d t'.prev [y.sym] = some (t.d.learn v y.sym).2 ∧
      t'.p = t.p + (t.d.learn v y.sym).1.length ∧ t'.out = t.out := by
  have hw : 9 ≤ t.d.w := he.w_lower
  have hpow : 512 ≤ 2 ^ t.d.w := Nat.pow_le_pow_right (n := 2) (by decide) hw
  have hnext : t.d.next ≤ 2 ^ t.d.w - 1 := he.next_le
  obtain ⟨hf, e⟩ | ⟨hf, hlt, e⟩ | ⟨hf, hge, h15, e⟩ | ⟨hf, hge, h15, e⟩ :=
    Dict.learn_cases hnext (by omega) v y.sym <;> rw [e] at hb ⊢
  · exact ⟨t, .refl, he, hk, by rw [hq]; exact if_pos hf, rfl, rfl⟩
  · have hroom : ¬ t.d.bumpCode ≤ t.d.next := by omega
    exact ⟨t, .refl, he, hk, by simp [decoderLearn, hq, hf, hroom], rfl, rfl⟩
  · have hcode : CodeAt bit limit t t.d.bumpCode := hb.codeAt rfl (by simp only [Dict.bumpCode]; omega)
    have hround : CodeEffect n { t with p := t.p + t.d.w } t.d.bumpCode
        (some { t with p := t.p + t.d.w, d := { t.d with w := t.d.w + 1 } }) := .bump h15 rfl
    have hroom : ¬ 2 ^ (t.d.w + 1) - 1 ≤ t.d.next := by rw [Nat.pow_succ]; omega
    have hlearns : decoderLearn { t.d with w := t.d.w + 1 } (some v) [y.sym] =
        some { t.d.create v y.sym with w := t.d.w + 1 } := (if_neg (by simp [hf])).trans (if_neg hroom)
    exact ⟨_, .single ⟨hn, _, hcode, hround⟩, Dict.inv_widen he h15, hk, hq ▸ hlearns, by rw [length_emit], rfl⟩
  · have hcode : CodeAt bit limit t 256 := hb.codeAt rfl (lt_of_lt_of_le (by decide) hpow)
    have hround : CodeEffect n { t with p := t.p + t.d.w } 256
        (some { t with p := t.p + t.d.w, d := Dict.fresh, prev := none }) := .flush (.inl rfl)
    exact ⟨_, .single ⟨hn, _, hcode, hround⟩, Dict.inv_fresh, by rintro _ ⟨⟩, rfl, by rw [length_emit], rfl⟩

/-- The decoder follows the encoder to the end of its code sequence. -/
theorem LockStep.follows (fuel : Nat) (hfuel : xs.length < fuel) (h : LockStep bit limit n t e x xs) :
    ∃ t', Relation.ReflTransGen (DecodeRound bit limit n) t t' ∧ t'.d = (e.encode (x :: xs)).2 ∧
      t'.p = t.p + (e.encode (x :: xs)).1.length ∧ ∃ bs, t'.out = t.out ++ bs ∧ List.Forall₂ Agrees (x :: xs) bs := by
  induction fuel generalizing t e x xs with
  | zero => omega
  | succ fuel ih =>
    have hbits := h.bits
    have hcount := h.count
    cases hdrop : (x :: xs).drop (longestMatch e.ent x xs).2 with
    | nil =>
      have henc := encode_of_drop_nil hdrop
      rw [henc] at hbits ⊢
      obtain ⟨bs, hagree, hround⟩ := h.reads_match hbits
      rw [List.take_of_length_le (List.drop_eq_nil_iff.1 hdrop)] at hagree
      exact ⟨_, .single hround, rfl, by rw [length_emit], bs, rfl, hagree⟩
    | cons y ys =>
      have henc := encode_of_drop_cons hdrop
      rw [henc] at hbits ⊢
      obtain ⟨bs, hagree, hround⟩ := h.reads_match hbits.left.left
      obtain ⟨he, hknown, -, -⟩ := decodeRound_inv hround h.inv h.known
      have hsplit : (x :: xs).length = bs.length + (y :: ys).length := by
        rw [← hagree.length_eq, ← hdrop, ← List.length_append, List.take_append_drop]
      have hpos := (longestMatch_bounds e.ent x xs).2.1
      have hdroplen := congrArg List.length hdrop
      rw [List.length_drop] at hdroplen
      simp only [List.length_cons] at hsplit hcount hdroplen
      have hctl := hbits.left.right
      rw [length_emit] at hctl
      have hleft : (t.out ++ bs).length < n := by rw [List.length_append]; omega
      obtain ⟨t', hrounds, hinv', hknown', hlearns', hp', hout'⟩ := reads_learned he hleft rfl hknown hctl
      have hrest := hbits.right
      rw [List.length_append, length_emit, ← Nat.add_assoc, ← hp'] at hrest
      have hlock : LockStep bit limit n t' (e.learn (longestMatch e.ent x xs).1 y.sym).2 y ys :=
        ⟨hinv', hknown', hlearns', by simp only [hout', List.length_append, List.length_cons]; omega, hrest⟩
      obtain ⟨t'', hrounds', hd, hp, cs, hout, hagree'⟩ := ih (by omega) hlock
      refine ⟨t'', .head hround (hrounds.trans hrounds'), hd, ?_, bs ++ cs, ?_, ?_⟩
      · rw [hp, hp', List.length_append, List.length_append, length_emit]
        simp only [Nat.add_assoc]
      · rw [hout, hout', List.append_assoc]
      · rw [← List.take_append_drop (longestMatch e.ent x xs).2 (x :: xs), hdrop]
        exact List.rel_append hagree hagree'

end lockstep

/-- A decoder with the encoder's dictionary and no previous code reads its whole code sequence. -/
theorem rounds_of_encode {bit : Memory Bool} {limit p : Nat} {d : Dict} (hd : d.Inv) (xs : List Sym)
    (hb : HoldsAt bit limit p (d.encode xs).1) :
    ∃ t, Relation.ReflTransGen (DecodeRound bit limit xs.length) { p := p, d := d, prev := none, out := [] } t ∧
      t.d = (d.encode xs).2 ∧ t.p = p + (d.encode xs).1.length ∧ List.Forall₂ Agrees xs t.out := by
  cases xs with
  | nil => exact ⟨_, .refl, rfl, rfl, .nil⟩
  | cons x xs =>
    have hlock : LockStep bit limit (x :: xs).length { p := p, d := d, prev := none, out := [] } d x xs :=
      ⟨hd, by rintro _ ⟨⟩, rfl, Nat.zero_add _, hb⟩
    obtain ⟨t, hrounds, htd, htp, bs, hout, hagree⟩ := hlock.follows (xs.length + 1) (Nat.lt_succ_self _)
    exact ⟨t, hrounds, htd, htp, by rw [hout]; exact hagree⟩

/-- DDEC after rounds that leave exactly `n` symbols out completes. -/
theorem exec_ddec_of_done {s : State} {c : Nat} {base n : Word} {d : Dict} {t : Decoding} (hc : c < s.params.nch)
    (hd : s.channel c = .live d) (hi : d.Inv) (hr : base.toNat + n.toNat ≤ s.params.symDepth)
    (ht : Relation.ReflTransGen (DecodeRound s.bit s.bitLen n.toNat)
      { p := s.rptr.toNat, d := d, prev := none, out := [] } t) (hn : t.out.length = n.toNat) :
    exec (.ddec c base n) s = .next (decodedState s c base.toNat t) := by
  obtain ⟨⟨hti, htk⟩, fuel, hexec⟩ := exec_ddec_of_rounds hc hd hi hr ht
  rw [hexec, (decodeLoop_ends hti htk).1 hn, decodeEnd_done]

/-- SETRP of a position inside the bit memory. -/
theorem exec_setrp_of_le {s : State} {p : Word} (h : p.toNat ≤ s.bitLen) :
    exec (.setrp p) s = .next { s with rptr := p, cmdcnt := s.cmdcnt + 1#32 } := by
  rw [exec_setrp, execSetrp, if_neg (Nat.not_lt.2 h)]
  rfl

/-- SETWP of a position inside the bit memory. -/
theorem exec_setwp_of_le {s : State} {p : Word} (h : p.toNat ≤ s.bitLen) :
    exec (.setwp p) s = .next { s with wptr := p, cmdcnt := s.cmdcnt + 1#32 } := by
  rw [exec_setwp, execSetwp, if_neg (Nat.not_lt.2 h)]
  rfl

/-- A completed DENC leaves its code sequence at the old WPTR. -/
theorem holdsAt_encodedState {s : State} (c : Nat) {r : List Bool × Dict} (h : s.wptr.toNat + r.1.length ≤ s.bitLen) :
    HoldsAt (encodedState s c r).bit s.bitLen s.wptr.toNat r.1 := by
  refine ⟨h, fun j hj => (Memory.read_writeList ..).trans ?_⟩
  rw [if_pos ⟨Nat.le_add_right .., Nat.add_lt_add_left hj _⟩, Nat.add_sub_cancel_left]

/-- A completed DDEC leaves its bytes at `base`, each with width 8. -/
theorem read_decodedState {s : State} (c base : Nat) {t : Decoding} {j : Nat} (hj : j < t.out.length) :
    (decodedState s c base t).sym.read (base + j) = some { sym := t.out[j], width := 8#4 } := by
  refine (Memory.read_writeList ..).trans ?_
  rw [List.length_map, if_pos (by omega), Nat.add_sub_cancel_left, List.getElem?_map, List.getElem?_eq_getElem hj]
  rfl

/-- Settles O37: DENC leaves its code sequence at the old WPTR, and DDEC from there reads it whole (`rounds_of_encode`), ending
with the encoder's dictionary and bytes that agree. -/
theorem ddecInvertsDenc : Obligations.DdecInvertsDenc := by
  intro s c c' base base' n d xs hs hne hc hc' hd hd' hr hr' hlen hread hwidth hl
  have hdenc := exec_denc_of_fits hc (State.channel_of_getElem? hd) hr (readSymbols_eq_ok.2 ⟨hlen, hread, hwidth⟩) hl
  set s1 := encodedState s c (d.encode xs) with hs1
  set s2 : State := { s1 with rptr := s.wptr, cmdcnt := s1.cmdcnt + 1#32 } with hs2
  have hsetrp : exec (.setrp s.wptr) s1 = .next s2 := exec_setrp_of_le hs.wptr_le
  have hinv : d.Inv := hs.dict_inv d (List.mem_of_getElem? hd)
  have hlive : s2.channel c' = .live d := State.channel_of_getElem? ((List.getElem?_set_ne hne).trans hd')
  obtain ⟨t, hrounds, htd, htp, hagree⟩ := rounds_of_encode hinv xs (holdsAt_encodedState c hl)
  rw [hlen] at hrounds
  have hddec := exec_ddec_of_done (s := s2) hc' hlive hinv hr' hrounds (by rw [← hagree.length_eq, hlen])
  set s3 := decodedState s2 c' base'.toNat t with hs3
  have hdict : s3.dict = (s.dict.set c (.live (d.encode xs).2)).set c' (.live (d.encode xs).2) :=
    congrArg (fun e => (s.dict.set c (.live (d.encode xs).2)).set c' (.live e)) htd
  have hown : s3.dict[c]? = some (.live (d.encode xs).2) := by
    rw [hdict, List.getElem?_set_ne hne.symm, List.getElem?_set_self (hs.dict_length ▸ hc)]
  have hother : s3.dict[c']? = some (.live (d.encode xs).2) := by
    rw [hdict, List.getElem?_set_self (by rw [List.length_set, hs.dict_length]; exact hc')]
  refine ⟨s1, s2, s3, hdenc, hsetrp, hddec, rfl, ?count, congrArg (BitVec.ofNat 32) htp, ?bits, hother.trans hown.symm, hown,
    fun j x hx => ?bytes⟩
  case count => simp only [hs3, decodedState, hs2, hs1, encodedState, BitVec.add_assoc]; rfl
  case bits =>
    refine congrArg (BitVec.ofNat 32) ?_
    rw [htp, Nat.add_sub_cancel_left]
  case bytes =>
    obtain ⟨hj, rfl⟩ := List.getElem?_eq_some_iff.1 hx
    have hj' : j < t.out.length := hagree.length_eq ▸ hj
    exact ⟨t.out[j], read_decodedState c' base'.toNat hj', hagree.get hj hj'⟩

end Sys2Proof.Machine
end

section
/-! Commands that undo or repeat others: UNPACKA and UNPACKB after PACKA and PACKB (R139 to R142), BRD after BWR (R202, R203),
DENC after DRESUME and after DFLUSH (R178). -/

namespace Sys2Proof.Machine

/-! ### UNPACKA after PACKA, UNPACKB after PACKB -/

/-- A PACKA that ends with ERR = 0 has passed its check. -/
theorem exec_packa_eq_next {s t : State} {x idx : Word} (h : exec (.packa x idx) s = .next t) (ht : t.err = none) :
    idx.toNat + 4 ≤ s.params.symDepth := by
  by_contra hc
  rw [exec_packa, execPacka, if_pos (Nat.not_le.1 hc)] at h
  exact err_of_raise h ht

/-- The four bytes of a word, appended, are the word. -/
theorem wordSyms_append (x : Word) :
    x.extractLsb' 24 8 ++ x.extractLsb' 16 8 ++ x.extractLsb' 8 8 ++ x.extractLsb' 0 8 = x := by
  rw [BitVec.extractLsb'_append_extractLsb'_eq_extractLsb' (by decide),
    BitVec.extractLsb'_append_extractLsb'_eq_extractLsb' (by decide),
    BitVec.extractLsb'_append_extractLsb'_eq_extractLsb' (by decide)]
  simp

/-- A PACKB that ends with ERR = 0 has passed its checks. -/
theorem exec_packb_eq_next {s t : State} {d w idx : Word} (h : exec (.packb d w idx) s = .next t) (ht : t.err = none) :
    w.toNat ≤ 24 ∧ d.toNat < 2 ^ w.toNat ∧ idx.toNat + nsym w.toNat ≤ s.params.symDepth := by
  rw [exec_packb, execPackb] at h
  split_ifs at h with hw hd hi
  iterate 3 exact absurd ht (err_of_raise h)
  exact ⟨Nat.not_lt.1 hw, Nat.not_le.1 hd, Nat.not_lt.1 hi⟩

/-- The top `8` bits of a byte are the byte. -/
theorem topBits_eight (b : Byte) : topBits 8 b = b.toNat := Nat.div_one _

/-- Bytes that agree with whole bytes of a number, most significant first, put the number together again. -/
theorem foldl_bytes_eq (d : Nat) (bs : List Byte)
    (h : ∀ j (hj : j < bs.length), bs[j].toNat = d / 2 ^ (8 * (bs.length - 1 - j)) % 2 ^ 8)
    (k : Nat) (hk : k = d / 2 ^ (8 * bs.length)) : bs.foldl (fun a c => a * 2 ^ 8 + c.toNat) k = d := by
  induction bs generalizing k with
  | nil => simpa using hk
  | cons b bs ih =>
    rw [List.foldl_cons]
    refine ih (fun j hj => ?_) _ ?_
    · have := h (j + 1) (by simpa using hj)
      simpa [Nat.sub_sub, Nat.add_comm] using this
    · have h0 := h 0 (Nat.succ_pos _)
      simp only [List.getElem_cons_zero, List.length_cons, Nat.add_sub_cancel, Nat.sub_zero] at h0
      rw [hk, h0, List.length_cons, Nat.mul_succ, Nat.pow_add, ← Nat.div_div_eq_div_mul]
      exact Nat.div_add_mod' _ _

/-- The top `r` bits of a byte that agrees with a left-aligned value of `r` bits are the value. -/
theorem topBits_of_agrees_shifted {v r : Nat} (hr : r ≤ 8) (hv : v < 2 ^ r) {b : Byte}
    (h : Agrees { sym := BitVec.ofNat 8 (v * 2 ^ (8 - r)), width := BitVec.ofNat 4 r } b) : b.toNat / 2 ^ (8 - r) = v := by
  have hpow : 2 ^ r * 2 ^ (8 - r) = 2 ^ 8 := by rw [← Nat.pow_add, Nat.add_sub_cancel' hr]
  have hlt : v * 2 ^ (8 - r) < 2 ^ 8 := hpow ▸ Nat.mul_lt_mul_of_pos_right hv (Nat.two_pow_pos _)
  have hwidth : r % 2 ^ 4 = r := Nat.mod_eq_of_lt (by omega)
  simpa only [Agrees, topBits, BitVec.toNat_ofNat, hwidth, Nat.mod_eq_of_lt hlt,
    Nat.mul_div_cancel _ (Nat.two_pow_pos (8 - r))] using h

/-- Bytes that agree with a residual's symbols on their top `width` bits stand for the residual (R142). -/
theorem residualOfBytes_of_agree {d w : Nat} (hd : d < 2 ^ w) {bs : List Byte} (hl : bs.length = nsym w)
    (h : ∀ (j : Nat) (x : Sym), (residualSyms d w)[j]? = some x → ∃ b : Byte, bs[j]? = some b ∧ Agrees x b) :
    residualOfBytes w bs = d := by
  have hn := nsym_eq w
  cases bs with
  | nil =>
    have hw : w = 0 := by rw [List.length_nil] at hl; omega
    subst hw
    exact (Nat.lt_one_iff.1 hd).symm
  | cons b bs =>
    rw [List.length_cons] at hl
    have hlen : nsym w - 1 = bs.length := by omega
    have hr8 : w - 8 * bs.length ≤ 8 := by omega
    have hfirst : b.toNat / 2 ^ (8 - (w - 8 * bs.length)) = d / 2 ^ (8 * bs.length) := by
      obtain ⟨b', hb', hagree⟩ := h 0 _ (residualSyms_getElem?_zero d (by omega))
      cases hb'
      rw [hlen] at hagree
      refine topBits_of_agrees_shifted hr8 (Nat.div_lt_of_lt_mul ?_) hagree
      rwa [← Nat.pow_add, Nat.add_sub_cancel' (by omega)]
    refine foldl_bytes_eq d bs (fun j hj => ?_) _ (by rw [hlen, hfirst])
    obtain ⟨b', hb', hagree⟩ := h (j + 1) _ (residualSyms_getElem?_of_pos d (Nat.succ_ne_zero j) (by omega))
    rw [List.getElem?_cons_succ, List.getElem?_eq_getElem hj] at hb'
    cases hb'
    have hexp : nsym w - 1 - (j + 1) = bs.length - 1 - j := by omega
    rw [hexp] at hagree
    exact (topBits_eight _).symm.trans (hagree.trans ((topBits_eight _).trans (BitVec.toNat_ofNat ..)))

/-- Settles O23: PACKA leaves the four bytes UNPACKA appends (`wordSyms_append`); PACKB leaves the residual's symbols, and bytes
that agree with them stand for the residual (`residualOfBytes_of_agree`). -/
theorem unpackInvertsPack : Obligations.UnpackInvertsPack := by
  refine ⟨fun x idx s t _ h ht => ?verbatim, fun d w idx s t u _ h ht hp hagree => ?residual⟩
  case verbatim =>
    have hi := exec_packa_eq_next h ht
    rw [exec_packa_of_room x hi] at h
    cases h
    refine (exec_unpacka_of_written (s := { s with
      sym := s.sym.writeList idx.toNat (wordSyms x), res0 := BitVec.ofNat 32 (idx.toNat + 4),
      cmdcnt := s.cmdcnt + 1#32 }) hi (Memory.readList_writeList s.sym idx.toNat (wordSyms x))).trans ?_
    rw [wordSyms, ofNat_fold_four, wordSyms_append]
  case residual =>
    obtain ⟨hw, hd, hi⟩ := exec_packb_eq_next h ht
    rw [exec_packb_of_room hw hd hi] at h
    cases h
    rw [← nsym_eq] at hagree ⊢
    have hstored : ∀ j, j < nsym w.toNat → Memory.read (s.sym.writeList idx.toNat (residualSyms d.toNat w.toNat))
        (idx.toNat + j) = (residualSyms d.toNat w.toNat)[j]? := fun j hj => by
      rw [Memory.read_writeList, length_residualSyms, if_pos (by omega), Nat.add_sub_cancel_left]
    obtain ⟨es, hes⟩ : ∃ es, u.sym.readList idx.toNat (nsym w.toNat) = some es := by
      refine Option.ne_none_iff_exists'.1 fun hnone => ?_
      obtain ⟨j, hj, hread⟩ := Memory.readList_eq_none.1 hnone
      obtain ⟨-, y, -, hy, -⟩ := hagree j hj
      simp [hread] at hy
    obtain ⟨hlen, hget⟩ := Memory.readList_eq_some.1 hes
    have hvalue : residualOfBytes w.toNat (es.map Sym.sym) = d.toNat := by
      refine residualOfBytes_of_agree hd (by rw [List.length_map, hlen]) fun j x hx => ?_
      have hj : j < nsym w.toNat := length_residualSyms d.toNat w.toNat ▸ (List.getElem?_eq_some_iff.1 hx).1
      obtain ⟨x', y, hx', hy, htop⟩ := hagree j hj
      rw [hstored j hj, hx] at hx'
      cases hx'
      exact ⟨y.sym, by rw [List.getElem?_map, ← hget j hj, hy]; rfl, htop⟩
    rw [exec_unpackb_of_written hw (hp ▸ hi) hes, hvalue, BitVec.ofNat_toNat, BitVec.setWidth_eq]

/-! ### BRD after BWR (R202, R203) -/

/-- A BWR that ends with ERR = 0 has passed its checks. -/
theorem exec_bwr_eq_next {s t : State} {n : Nat} {v : Word} (h : exec (.bwr n v) s = .next t) (ht : t.err = none) :
    1 ≤ n ∧ n ≤ 32 ∧ s.wptr.toNat + n ≤ s.bitLen := by
  rw [exec_bwr, execBwr] at h
  split_ifs at h with hn hp
  iterate 2 exact absurd ht (err_of_raise h)
  exact ⟨by omega, by omega, Nat.not_lt.1 hp⟩

/-- The number the `n` low bits of `v`, most significant first, stand for. -/
theorem valMsb_bitsMsb (n v : Nat) : valMsb (bitsMsb n v) = v % 2 ^ n := by
  apply Nat.eq_of_testBit_eq
  intro i
  rw [testBit_valMsb, Nat.testBit_mod_two_pow]
  by_cases hi : i < n
  · have hlast : n - 1 - (n - 1 - i) = i := by omega
    rw [List.getElem?_reverse (by rwa [length_bitsMsb]), length_bitsMsb, getElem?_bitsMsb v (by omega), hlast]
    simp [hi]
  · rw [List.getElem?_eq_none (by simpa using hi)]
    simp [hi]

/-- Settles O44: BRD reads the run that BWR wrote (`Memory.readList_writeList`), whose value is `valMsb_bitsMsb`. -/
theorem brdInvertsBwr : Obligations.BrdInvertsBwr := by
  intro n v s t _ hwptr _ h ht
  obtain ⟨h1, h2, hp⟩ := exec_bwr_eq_next h ht
  rw [exec_bwr_of_fits v h1 h2 hp] at h
  cases h
  refine ⟨_, exec_setrp_of_le hwptr, ?_⟩
  have hread : Memory.readList (s.bit.writeList s.wptr.toNat (bitsMsb n v.toNat)) s.wptr.toNat n =
      some (bitsMsb n v.toNat) := by
    have := Memory.readList_writeList s.bit s.wptr.toNat (bitsMsb n v.toNat)
    rwa [length_bitsMsb] at this
  rw [exec_brd_of_written h1 h2 hp hread, valMsb_bitsMsb]

/-! ### DENC after DRESUME (R178) -/

/-- The state in which DBACKUP completes with the dictionary `d`. -/
def backedUpState (s : State) (c : Nat) (d : Dict) : State :=
  { s with snap := s.snap.set c (some d), cmdcnt := s.cmdcnt + 1#32 }

/-- A DBACKUP that ends with ERR = 0 has copied a live dictionary. -/
theorem exec_dbackup_eq_next {s t : State} {c : Nat} (h : exec (.dbackup c) s = .next t) (ht : t.err = none) :
    ∃ d, c < s.params.nch ∧ s.channel c = .live d ∧ t = backedUpState s c d := by
  rw [exec_dbackup, execDbackup] at h
  split at h
  · exact absurd ht (err_of_raise h)
  · next hc =>
    split at h
    · exact absurd ht (err_of_raise h)
    · next d hd =>
      cases h
      exact ⟨d, Nat.not_le.1 hc, hd, rfl⟩

/-- DRESUME of a valid snapshot. -/
theorem exec_dresume_of_snapshot {s : State} {c : Nat} {d : Dict} (hc : c < s.params.nch) (hd : s.snapshot c = some d) :
    exec (.dresume c) s = .next { s with dict := s.dict.set c (.live d), cmdcnt := s.cmdcnt + 1#32 } := by
  rw [exec_dresume, execDresume, if_neg (Nat.not_le.2 hc), hd]
  rfl

/-- A channel that exists holds what `State.channel` says. -/
theorem State.getElem?_of_channel {s : State} (hs : s.Inv) {c : Nat} {ch : Channel} (hc : c < s.params.nch)
    (hd : s.channel c = ch) : s.dict[c]? = some ch := by
  have hlt : c < s.dict.length := hs.dict_length ▸ hc
  rw [State.channel, List.getD_eq_getElem _ _ hlt] at hd
  rw [List.getElem?_eq_getElem hlt, hd]

/-- To store a run twice is to store it once. -/
theorem Memory.writeList_writeList_same {α : Type} {m : Memory α} (hm : m.wf) (k : Nat) (vs : List α) :
    (m.writeList k vs).writeList k vs = m.writeList k vs := by
  have hwf := Memory.wf_writeList hm k vs
  refine Memory.ext_of_wf (Memory.wf_writeList hwf k vs) hwf fun a => ?_
  simp only [Memory.read_writeList]
  split <;> rfl

/-- Settles O38: DRESUME puts the dictionary back that DBACKUP copied, so that the second DENC has the first one's symbols,
dictionary and position, and writes the same run again (`Memory.writeList_writeList_same`). -/
theorem dencAfterResumeWritesTheSameBits : Obligations.DencAfterResumeWritesTheSameBits := by
  intro s s1 s2 c base n hs _ hbackup hs1 hdenc hs2
  obtain ⟨d, hc, hd, rfl⟩ := exec_dbackup_eq_next hbackup hs1
  obtain ⟨d', xs, -, hd', hr, hx, hl, rfl⟩ := exec_denc_eq_next hdenc hs2
  obtain rfl : d = d' := Channel.live.inj (hd.symm.trans hd')
  have hlive := State.getElem?_of_channel hs hc hd
  set s2 := encodedState (backedUpState s c d) c (d.encode xs) with hs2e
  have hsnap : s2.snapshot c = some d := State.snapshot_of_getElem? (List.getElem?_set_self (hs.snap_length ▸ hc))
  have hresume := exec_dresume_of_snapshot (s := s2) hc hsnap
  set s3 : State := { s2 with dict := s2.dict.set c (.live d), cmdcnt := s2.cmdcnt + 1#32 } with hs3e
  have hdict : s3.dict = s.dict := (List.set_set ..).trans (set_eq_self hlive)
  have hsetwp : exec (.setwp s.wptr) s3 = _ := exec_setwp_of_le (s := s3) hs.wptr_le
  set s4 : State := { s3 with wptr := s.wptr, cmdcnt := s3.cmdcnt + 1#32 } with hs4e
  have hlive4 : s4.channel c = .live d := State.channel_of_getElem? (hdict ▸ hlive)
  refine ⟨s3, s4, _, hresume, hsetwp, exec_denc_of_fits (s := s4) hc hlive4 hr hx hl, hdict, ?_⟩
  have hbit : s4.bit.writeList s.wptr.toNat (d.encode xs).1 = s2.bit := Memory.writeList_writeList_same hs.bit_wf ..
  have hdict4 : s4.dict.set c (.live (d.encode xs).2) = s2.dict := congrArg (List.set · c _) hdict
  rw [encodedState, hdict4, show s4.wptr = s.wptr from rfl, hbit]
  simp only [hs4e, hs3e, hs2e, encodedState, backedUpState, BitVec.add_assoc]
  rfl

/-! ### DENC after DFLUSH (R178) -/

/-- A DFLUSH of one channel that ends with ERR = 0 has left it fresh. -/
theorem exec_dflush_eq_next {s t : State} {c : Nat} (h255 : c ≠ 255) (h : exec (.dflush c) s = .next t) (ht : t.err = none) :
    c < s.params.nch ∧ t = { s with dict := s.dict.set c (.live Dict.fresh), cmdcnt := s.cmdcnt + 1#32 } := by
  rw [exec_dflush, execDflush, if_neg h255] at h
  split at h
  · exact absurd ht (err_of_raise h)
  · next hc =>
    cases h
    exact ⟨Nat.not_le.1 hc, rfl⟩

/-- A DENC after a DFLUSH of its channel, neither raising, encodes with the fresh dictionary. -/
theorem exec_dflush_denc {s t u : State} {c : Nat} {base n : Word} (hs : s.Inv) (h255 : c ≠ 255)
    (hf : exec (.dflush c) s = .next t) (ht : t.err = none) (he : exec (.denc c base n) t = .next u) (hu : u.err = none) :
    ∃ xs, readSymbols s.sym base.toNat n.toNat = .ok xs ∧
      u.dict[c]? = some (.live (Dict.fresh.encode xs).2) ∧ u.res0 = BitVec.ofNat 32 (Dict.fresh.encode xs).1.length ∧
      ∀ j, j < (Dict.fresh.encode xs).1.length → u.bit.read (s.wptr.toNat + j) = (Dict.fresh.encode xs).1[j]? := by
  obtain ⟨hc, rfl⟩ := exec_dflush_eq_next h255 hf ht
  obtain ⟨d, xs, -, hd, hr, hx, hl, rfl⟩ := exec_denc_eq_next he hu
  have hlt : c < s.dict.length := hs.dict_length ▸ hc
  obtain rfl : d = Dict.fresh :=
    Channel.live.inj (hd.symm.trans (State.channel_of_getElem? (List.getElem?_set_self hlt)))
  exact ⟨xs, hx, List.getElem?_set_self (by rwa [List.length_set]), rfl, (holdsAt_encodedState c hl).2⟩

/-- Settles O39: both channels encode the same symbols with the fresh dictionary (`exec_dflush_denc`). -/
theorem encodingAfterFlushForgetsThePast : Obligations.EncodingAfterFlushForgetsThePast := by
  intro s s' t t' u u' c c' base base' n hs hs' _ _ h255 h255' hf hf' ht ht' hsame he he' hu hu'
  obtain ⟨xs, hx, hdict, hres, hbits⟩ := exec_dflush_denc hs h255 hf ht he hu
  obtain ⟨xs', hx', hdict', hres', hbits'⟩ := exec_dflush_denc hs' h255' hf' ht' he' hu'
  obtain ⟨hlen, hget, -⟩ := readSymbols_eq_ok.1 hx
  obtain ⟨hlen', hget', -⟩ := readSymbols_eq_ok.1 hx'
  obtain rfl : xs = xs' := List.ext_getElem? fun j => by
    by_cases hj : j < n.toNat
    · rw [← hget j hj, ← hget' j hj, hsame j hj]
    · rw [List.getElem?_eq_none (by omega), List.getElem?_eq_none (by omega)]
  refine ⟨hdict.trans hdict'.symm, hres.trans hres'.symm, fun j hj => ?_⟩
  have hlt : j < (Dict.fresh.encode xs).1.length := (hres ▸ hj).trans_le (ofNat_toNat_le le_rfl)
  exact (hbits j hlt).trans (hbits' j hlt).symm

end Sys2Proof.Machine
end

section
/-! What every command keeps (R30, R50, R225, R226): the ways a command ends, read off `exec_ends`. -/

namespace Sys2Proof.Machine

/-! ### Completed or raised -/

/-- What a command that raises has written before exception entry: nothing, or what a fatal DDEC (R167) or DENC's BIT_RANGE
(R170) leaves. -/
inductive Damages (i : Instr) (s : State) : Cause → State → Prop where
  | nothing (k : Cause) : Damages i s k s
  | fatal {c : Nat} {base n : Word} {k : Cause} (hi : i = .ddec c base n) (hk : k = .mdcCorrupt ∨ k = .bitRange) :
    Damages i s k (poisonedState s c base.toNat n.toNat)
  | tooLong {c : Nat} {base n : Word} (hi : i = .denc c base n) :
    Damages i s .bitRange (s.setBit (s.bit.eraseFrom s.wptr.toNat))

variable {i : Instr} {s t u : State} {k : Cause}

/-- Only dictionaries and memories are written before exception entry. -/
theorem Damages.eq_with (h : Damages i s k u) : u = { s with dict := u.dict, sym := u.sym, bit := u.bit } := by
  cases h <;> rfl

/-- A command that ends in a next state has completed and is counted, or has raised. -/
theorem exec_next_cases (h : exec i s = .next t) :
    (∃ u, Touches i.op s u ∧ t = u.count) ∨ ∃ k u, Damages i s k u ∧ t = u.takeException k i.header := by
  have e := exec_ends s i
  generalize exec i s = r at e h
  cases e with
  | done u hu => cases h; exact .inl ⟨u, hu, rfl⟩
  | raised k => cases h; exact .inr ⟨k, s, .nothing k, rfl⟩
  | fatal c base n k hi hk => cases h; exact .inr ⟨k, _, .fatal hi hk, rfl⟩
  | tooLong c base n hi => cases h; exact .inr ⟨_, _, .tooLong hi, rfl⟩
  | unwritten => cases h

/-- Settles O51, by the ways of `exec_ends`. -/
theorem onlyUnwrittenReadsStopACommand : Obligations.OnlyUnwrittenReadsStopACommand := by
  intro i s
  have e := exec_ends s i
  generalize exec i s = r at e
  cases e with
  | done u _ => exact .inl ⟨_, complete_eq u⟩
  | raised k => exact .inl ⟨_, raise_eq i k s⟩
  | fatal c base n k _ _ => exact .inl ⟨_, raise_eq i k _⟩
  | tooLong c base n _ => exact .inl ⟨_, raise_eq i .bitRange _⟩
  | unwritten hop => exact .inr ⟨rfl, hop⟩

/-- Settles O48: a completed command touches none of these registers but CMDCNT (`Touches`), and one that raises ends by
exception entry (`takeException_cases`). -/
theorem everyCommandCompletesOrRaises : Obligations.EveryCommandCompletesOrRaises := by
  intro i s t h
  obtain ⟨u, hu, rfl⟩ | ⟨k, u, hu, rfl⟩ := exec_next_cases h
  · exact .inl ⟨congrArg (· + 1#32) hu.cmdcnt, hu.err, hu.errinfo, hu.errseq, hu.fifo, hu.assembler, hu.log⟩
  · rw [hu.eq_with]
    obtain ⟨he, e⟩ | ⟨he, e⟩ := takeException_cases { s with dict := u.dict, sym := u.sym, bit := u.bit } k i.header
    · exact .inr (.inr ⟨Option.isSome_iff_ne_none.1 he, by rw [e]; exact ⟨rfl, rfl, rfl, rfl, rfl, rfl, rfl⟩⟩)
    · exact .inr (.inl ⟨he, k, by rw [e]; exact ⟨rfl, rfl, rfl, rfl, rfl, rfl, rfl⟩⟩)

/-- Settles O47: such a command has not completed (CMDCNT and ERR tell), so it wrote at most what `Damages` says. -/
theorem raisingCommandsWriteNothing : Obligations.RaisingCommandsWriteNothing := by
  intro i s t h hraises
  obtain ⟨u, hu, rfl⟩ | ⟨k, u, hu, rfl⟩ := exec_next_cases h
  case inl =>
    obtain hcount | ⟨hs, ht⟩ := hraises
    · have hcount : u.cmdcnt + 1#32 = s.cmdcnt := hcount
      rw [hu.cmdcnt] at hcount
      simp at hcount
    · exact absurd (hu.err.trans hs) ht
  case inr =>
    have herr : s.err = none → (u.takeException k i.header).err = some k := fun he => by
      rw [takeException_of_no_err (by rw [hu.eq_with]; exact he)]
    refine ⟨⟨Option.isSome_iff_ne_none.1 (takeException_err_isSome ..), fun he => ?keeps⟩, ?registers, ?stores⟩
    case keeps =>
      have hsome : u.err.isSome := by rw [hu.eq_with]; exact Option.isSome_iff_ne_none.2 he
      rw [takeException_of_err hsome, hu.eq_with]
    case registers =>
      rw [hu.eq_with]
      simp
    case stores =>
      cases hu with
      | nothing => exact .inl (by simp)
      | @fatal c base n _ hi hk =>
        refine .inr (.inl ⟨c, base, n, hi, fun he => ?_, by simp [poisonedState], by simp [poisonedState], fun a ha => ?_⟩)
        · rw [herr he]
          exact hk.imp (congrArg some) (congrArg some)
        · rw [takeException_sym, read_poisonedState, if_neg (by omega)]
      | @tooLong c base n hi =>
        refine .inr (.inr ⟨c, base, n, hi, herr, by simp [State.setBit], by simp [State.setBit], fun p hp => ?_⟩)
        rw [takeException_bit]
        exact (Memory.read_eraseFrom ..).trans (if_pos hp)

/-- DDEC keeps every entry outside its destination, and writes bytes of width 8 to each entry of it when it completes. -/
theorem exec_ddec_sym {c : Nat} {base n : Word} (h : exec (.ddec c base n) s = .next t) :
    (∀ a, (a < base.toNat ∨ base.toNat + n.toNat ≤ a) → t.sym.read a = s.sym.read a) ∧
      (t.cmdcnt ≠ s.cmdcnt → ∀ a, base.toNat ≤ a → a < base.toNat + n.toNat →
        ∃ b, t.sym.read a = some { sym := b, width := 8#4 }) := by
  obtain ⟨k, -, rfl⟩ | ⟨k, rfl⟩ | ⟨u, hlen, rfl⟩ := exec_ddec_eq_next h
  · exact ⟨fun a _ => by simp, fun hne => absurd (takeException_cmdcnt ..) hne⟩
  · refine ⟨fun a ha => ?_, fun hne => absurd (takeException_cmdcnt ..) hne⟩
    rw [takeException_sym, read_poisonedState, if_neg (by omega)]
  · have hread := Memory.read_writeList s.sym base.toNat (u.out.map fun b => { sym := b, width := 8#4 })
    rw [List.length_map, hlen] at hread
    refine ⟨fun a ha => (hread a).trans (if_neg (by omega)), fun _ a hl hu => ?_⟩
    refine ⟨u.out[a - base.toNat]'(by omega), (hread a).trans ?_⟩
    rw [if_pos ⟨hl, hu⟩, List.getElem?_map, List.getElem?_eq_getElem (by omega)]
    rfl

/-- Settles O49: a completed command keeps what `Touches` says, and one that raises keeps more; DDEC's entries by
`exec_ddec_sym`. -/
theorem commandsChangeOnlyWhatTheyName : Obligations.CommandsChangeOnlyWhatTheyName := by
  intro i s t h
  have hddec : ∀ c base n, i = .ddec c base n → _ := fun c base n hi => exec_ddec_sym (hi ▸ h)
  obtain ⟨u, hu, rfl⟩ | ⟨k, u, hu, rfl⟩ := exec_next_cases h
  · exact ⟨⟨hu.params, hu.ieErr, hu.ieIdle, hu.intres, hu.running, hu.rdata, hu.agenda⟩, hu.res0, hu.res1, hu.res2,
      hu.res3, hu.wptr, hu.rptr, hu.sym, hddec, hu.bit, hu.dict, hu.snap, hu.draws⟩
  · have hsym : i.op ∉ [Op.packa, .packb, .ddec] → u.sym = s.sym := by
      cases hu with
      | fatal hi => simp [hi, Instr.op]
      | _ => exact fun _ => rfl
    have hbit : i.op ∉ [Op.bwr, .balignw, .denc] → u.bit = s.bit := by
      cases hu with
      | tooLong hi => simp [hi, Instr.op]
      | _ => exact fun _ => rfl
    have hdict : i.op ∉ [Op.dflush, .denc, .ddec, .dresume] → u.dict = s.dict := by
      cases hu with
      | fatal hi => simp [hi, Instr.op]
      | _ => exact fun _ => rfl
    refine ⟨?_, ?_, ?_, ?_, ?_, ?_, ?_, fun ho => (takeException_sym ..).trans (hsym ho), hddec,
      fun ho => (takeException_bit ..).trans (hbit ho), fun ho => (takeException_dict ..).trans (hdict ho), ?_, ?_⟩
    all_goals
      rw [hu.eq_with]
      simp

/-! ### Channels (20_memory.md section 1) -/

/-- The state with other contents of channel `c`. -/
def State.withChannel (s : State) (c : Nat) (ch : Channel) (sn : Option Dict) : State :=
  { s with dict := s.dict.set c ch, snap := s.snap.set c sn }

section channels

variable {c c' : Nat} {ch : Channel} {sn : Option Dict}

theorem State.channel_withChannel (hc : c' ≠ c) : (s.withChannel c ch sn).channel c' = s.channel c' := by
  simp [State.withChannel, State.channel, List.getD_eq_getElem?_getD, List.getElem?_set_ne hc.symm]

theorem State.snapshot_withChannel (hc : c' ≠ c) : (s.withChannel c ch sn).snapshot c' = s.snapshot c' := by
  simp [State.withChannel, State.snapshot, List.getD_eq_getElem?_getD, List.getElem?_set_ne hc.symm]

theorem State.setDict_withChannel (hc : c' ≠ c) (ch' : Channel) :
    (s.withChannel c ch sn).setDict c' ch' = (s.setDict c' ch').withChannel c ch sn := by
  simp [State.withChannel, State.setDict, List.set_comm _ _ hc]

theorem State.setSnap_withChannel (hc : c' ≠ c) (sn' : Option Dict) :
    (s.withChannel c ch sn).setSnap c' sn' = (s.setSnap c' sn').withChannel c ch sn := by
  simp [State.withChannel, State.setSnap, List.set_comm _ _ hc]

theorem takeException_withChannel (k : Cause) (w : Word) :
    (s.withChannel c ch sn).takeException k w = (s.takeException k w).withChannel c ch sn := by
  obtain ⟨he, e⟩ | ⟨he, e⟩ := takeException_cases s k w <;> rw [e]
  · exact takeException_of_err (s := s.withChannel c ch sn) he k w
  · exact takeException_of_no_err (s := s.withChannel c ch sn) he k w

/-- From `s` the first result keeps channel `c`, and the second is the first with other contents of channel `c`. -/
def SparesChannel (c : Nat) (ch : Channel) (sn : Option Dict) (s : State) (r r' : Result) : Prop :=
  ∀ t, r = .next t → t.dict[c]? = s.dict[c]? ∧ t.snap[c]? = s.snap[c]? ∧ r' = .next (t.withChannel c ch sn)

theorem sparesChannel_complete (hd : u.dict[c]? = s.dict[c]?) (hs : u.snap[c]? = s.snap[c]?) :
    SparesChannel c ch sn s (complete u) (complete (u.withChannel c ch sn)) := by
  rintro _ ⟨⟩
  exact ⟨hd, hs, rfl⟩

theorem sparesChannel_raise (hd : u.dict[c]? = s.dict[c]?) (hs : u.snap[c]? = s.snap[c]?) (j : Instr) :
    SparesChannel c ch sn s (raise j k u) (raise j k (u.withChannel c ch sn)) := by
  rintro _ ⟨⟩
  rw [takeException_dict, takeException_snap, raise_eq, takeException_withChannel]
  exact ⟨hd, hs, rfl⟩

theorem sparesChannel_fault (f : Fault) (r' : Result) : SparesChannel c ch sn s (.fault f) r' := by
  rintro _ ⟨⟩

theorem sparesChannel_ite {p : Prop} [Decidable p] {x y x' y' : Result} (hx : SparesChannel c ch sn s x x')
    (hy : SparesChannel c ch sn s y y') :
    SparesChannel c ch sn s (if p then x else y) (if p then x' else y') := by
  split
  · exact hx
  · exact hy

theorem getElem?_setDict (hc : c' ≠ c) (ch' : Channel) : (s.setDict c' ch').dict[c]? = s.dict[c]? :=
  List.getElem?_set_ne hc

theorem getElem?_setSnap (hc : c' ≠ c) (sn' : Option Dict) : (s.setSnap c' sn').snap[c]? = s.snap[c]? :=
  List.getElem?_set_ne hc

variable (hc : c' ≠ c)
include hc

theorem sparesChannel_dflush (h : c' ≠ 255) :
    SparesChannel c ch sn s (execDflush c' s) (execDflush c' (s.withChannel c ch sn)) := by
  unfold execDflush
  rw [if_neg h, if_neg h, State.setDict_withChannel hc]
  exact sparesChannel_ite (sparesChannel_raise rfl rfl _) (sparesChannel_complete (getElem?_setDict hc _) rfl)

theorem sparesChannel_encodeEnd (j : Instr) (r : List Bool × Dict) :
    SparesChannel c ch sn s (encodeEnd j c' s r) (encodeEnd j c' (s.withChannel c ch sn) r) := by
  unfold encodeEnd
  rw [State.setDict_withChannel hc]
  exact sparesChannel_ite (sparesChannel_raise (u := s.setBit _) rfl rfl _)
    (sparesChannel_complete (u := ((((s.setDict c' (.live r.2)).setBit _).setRes0 _).setWptr _))
      (getElem?_setDict hc _) rfl)

theorem sparesChannel_denc (base n : Word) :
    SparesChannel c ch sn s (execDenc c' base n s) (execDenc c' base n (s.withChannel c ch sn)) := by
  unfold execDenc
  rw [State.channel_withChannel hc]
  refine sparesChannel_ite (sparesChannel_raise rfl rfl _) ?_
  cases s.channel c' with
  | poisoned => exact sparesChannel_raise rfl rfl _
  | live d =>
    refine sparesChannel_ite (sparesChannel_raise rfl rfl _) ?_
    have hsym : (s.withChannel c ch sn).sym = s.sym := rfl
    rw [hsym]
    obtain (_ | _) | xs := readSymbols s.sym base.toNat n.toNat
    · exact sparesChannel_fault _ _
    · exact sparesChannel_raise rfl rfl _
    · exact sparesChannel_encodeEnd hc _ _

theorem sparesChannel_decodeEnd (j : Instr) (base n : Nat) (e : DecodeEnd) :
    SparesChannel c ch sn s (decodeEnd j c' base n s e) (decodeEnd j c' base n (s.withChannel c ch sn) e) := by
  cases e with
  | unwritten => exact sparesChannel_fault _ _
  | fatal k =>
    simp only [decodeEnd, State.setDict_withChannel hc]
    exact sparesChannel_raise (u := (s.setDict c' .poisoned).setSym (s.sym.eraseRange base n))
      (getElem?_setDict hc _) rfl _
  | done t =>
    simp only [decodeEnd, State.setDict_withChannel hc]
    exact sparesChannel_complete (u := (((s.setDict c' (.live t.d)).setSym _).setRes0 _).setRptr _)
      (getElem?_setDict hc _) rfl

theorem sparesChannel_ddec (base n : Word) :
    SparesChannel c ch sn s (execDdec c' base n s) (execDdec c' base n (s.withChannel c ch sn)) := by
  unfold execDdec
  rw [State.channel_withChannel hc]
  refine sparesChannel_ite (sparesChannel_raise rfl rfl _) ?_
  cases s.channel c' with
  | poisoned => exact sparesChannel_raise rfl rfl _
  | live d => exact sparesChannel_ite (sparesChannel_raise rfl rfl _) (sparesChannel_decodeEnd hc _ _ _ _)

theorem sparesChannel_dbackup :
    SparesChannel c ch sn s (execDbackup c' s) (execDbackup c' (s.withChannel c ch sn)) := by
  unfold execDbackup
  rw [State.channel_withChannel hc]
  refine sparesChannel_ite (sparesChannel_raise rfl rfl _) ?_
  cases s.channel c' with
  | poisoned => exact sparesChannel_raise rfl rfl _
  | live d =>
    simp only [State.setSnap_withChannel hc]
    exact sparesChannel_complete rfl (getElem?_setSnap hc _)

theorem sparesChannel_dresume :
    SparesChannel c ch sn s (execDresume c' s) (execDresume c' (s.withChannel c ch sn)) := by
  unfold execDresume
  rw [State.snapshot_withChannel hc]
  refine sparesChannel_ite (sparesChannel_raise rfl rfl _) ?_
  cases s.snapshot c' with
  | none => exact sparesChannel_raise rfl rfl _
  | some d =>
    simp only [State.setDict_withChannel hc]
    exact sparesChannel_complete (getElem?_setDict hc _) rfl

theorem sparesChannel_dstat :
    SparesChannel c ch sn s (execDstat c' s) (execDstat c' (s.withChannel c ch sn)) := by
  unfold execDstat
  rw [State.channel_withChannel hc, State.snapshot_withChannel hc]
  refine sparesChannel_ite (sparesChannel_raise rfl rfl _) ?_
  cases s.channel c' with
  | poisoned => exact sparesChannel_complete (u := State.useDraws _ 4) rfl rfl
  | live d => exact sparesChannel_complete (u := State.setRes3 _ _) rfl rfl

end channels

/-- Settles O50, one dictionary command at a time. -/
theorem channelsAreIndependent : Obligations.ChannelsAreIndependent := by
  intro i s c ch sn h255 hc hop
  cases i with
  | dflush c' => exact sparesChannel_dflush (Ne.symm hc) fun h => h255 (h ▸ rfl)
  | denc c' base n => exact sparesChannel_denc (Ne.symm hc) base n
  | ddec c' base n => exact sparesChannel_ddec (Ne.symm hc) base n
  | dbackup c' => exact sparesChannel_dbackup (Ne.symm hc)
  | dresume c' => exact sparesChannel_dresume (Ne.symm hc)
  | dstat c' => exact sparesChannel_dstat (Ne.symm hc)
  | _ => simp [Instr.op] at hop

end Sys2Proof.Machine
end

section
/-! The engine's turn (R50, R72, R226): assembly, waiting, halting; and the end of a run (R259). -/

namespace Sys2Proof

/-- Settles O4, by evaluation. -/
theorem writtenOutWordsDecode : Obligations.WrittenOutWordsDecode := by
  unfold Obligations.WrittenOutWordsDecode
  decide

end Sys2Proof

namespace Sys2Proof.Machine

section assembly

variable {s : State} {i : Instr} {rest : List Word} {ts : List Turn} (k : Instr → State → Result)

/-- A whole command at the front of the words is taken. -/
theorem assemble_of_ok (he : s.err = none) (hd : decode (s.assembler ++ s.fifo) = .ok i rest) :
    assemble k s = k i { s with assembler := [], fifo := rest } := by
  simp [assemble, fetch, he, hd, State.takeWords]

/-- With operand words missing the engine takes the words there are and waits. -/
theorem assemble_of_incomplete (he : s.err = none) (hd : decode (s.assembler ++ s.fifo) = .incomplete) :
    assemble k s = .next { s with assembler := s.assembler ++ s.fifo, fifo := [] } := by
  simp [assemble, fetch, he, hd, State.waitWords]

/-- While ERR = 1 no header is taken. -/
theorem assemble_of_err (he : s.err.isSome) : assemble k s = .next s := if_pos he

/-- With no word to take the engine waits. -/
theorem assemble_of_no_words (ha : s.assembler = []) (hf : s.fifo = []) : assemble k s = .next s := by
  cases he : s.err with
  | some c => exact assemble_of_err k (by rw [he]; rfl)
  | none =>
    rw [assemble_of_incomplete k he (by rw [ha, hf]; rfl), hf, List.append_nil, ← hf]

/-- While no command executes, either turn of the engine assembles the next one. -/
theorem step_eq_assemble (h : s.engineActs ts ∨ s.agenda = .engineBegin :: ts) (hr : s.running = none) :
    ∃ k, step s = assemble k { s with agenda := ts } := by
  obtain h | h := h
  · exact ⟨exec, (step_of_engineActs h).trans (engineRun_of_not_running (s := { s with agenda := ts }) hr)⟩
  · exact ⟨_, (step_of_turn h).trans (engineBegin_of_not_running (s := { s with agenda := ts }) hr)⟩

end assembly

/-- Settles O5: the engine's turn assembles (`assemble_of_ok`) and runs the command. -/
theorem stepRunsTheFetchedCommand : Obligations.StepRunsTheFetchedCommand := by
  intro s ts i rest h hr he hd
  rw [step_of_engineActs h, engineRun_of_not_running (s := { s with agenda := ts }) hr,
    assemble_of_ok (s := { s with agenda := ts }) exec he hd]

/-- Settles O6, by what the two turns of the engine do with a command that executes, and by the cases of assembly. -/
theorem engineStartsWaitsAndHalts : Obligations.EngineStartsWaitsAndHalts := by
  intro s ts
  refine ⟨fun i h hr => ?ends, fun i h hr => ?goesOn, fun i rest h hr he hd => ⟨_, ?starts, rfl, rfl⟩,
    fun w h hr he hd => ?illegal, fun h hr he hne hd => ⟨_, ?waits, rfl, ?busy⟩, fun h hr he => ?halts, fun h hi => ?idle⟩
  case ends => rw [step_of_engineActs h, engineRun_of_running (s := { s with agenda := ts }) hr]
  case goesOn => rw [step_of_turn h, takeTurn, engineBegin_of_running (s := { s with agenda := ts }) hr]
  case starts =>
    rw [step_of_turn h, takeTurn, engineBegin_of_not_running (s := { s with agenda := ts }) hr,
      assemble_of_ok (s := { s with agenda := ts }) _ he hd]
  case illegal =>
    rw [step_of_turn h, takeTurn, engineBegin_of_not_running (s := { s with agenda := ts }) hr,
      assemble_of_illegal (s := { s with agenda := ts }) _ he hd]
  case waits =>
    obtain ⟨k, hk⟩ := step_eq_assemble h hr
    rw [hk, assemble_of_incomplete (s := { s with agenda := ts }) k he hd]
  case busy =>
    refine Bool.eq_false_iff.2 fun hi => hne ?_
    exact ((idle_iff _).1 hi).2.1
  case halts =>
    obtain ⟨k, hk⟩ := step_eq_assemble h hr
    rw [hk, assemble_of_err (s := { s with agenda := ts }) k (Option.isSome_iff_ne_none.2 he)]
  case idle =>
    obtain ⟨hr, ha, hf⟩ := (idle_iff s).1 hi
    obtain ⟨k, hk⟩ := step_eq_assemble h hr
    rw [hk, assemble_of_no_words (s := { s with agenda := ts }) k ha hf]

/-! ### The end of a run -/

/-- More turns without a write to CMD do not change whether a state is an end. -/
theorem ended_append {s : State} {ts : List Turn} (hts : ∀ u ∈ ts, u.writesCommand s.params = false) :
    ({ s with agenda := s.agenda ++ ts } : State).ended = s.ended := by
  have hall : ts.all (fun u => !u.writesCommand s.params) = true :=
    List.all_eq_true.2 fun u hu => by rw [hts u hu]; rfl
  have hsent : ({ s with agenda := s.agenda ++ ts } : State).commandsSent = s.commandsSent := by
    simp only [State.commandsSent, List.all_append, hall, Bool.and_true]
  rw [State.ended, State.ended, hsent]
  rfl

theorem ended_iff (s : State) :
    s.ended = true ↔ s.idle = true ∧ ∀ u ∈ s.agenda, u.writesCommand s.params = false := by
  simp [State.ended, State.commandsSent, and_comm]

/-- A run ends at an end. -/
theorem ended_of_endOfRun {n : Nat} {s t : State} (h : endOfRun n s = some t) : t.ended = true ∧ t.params = s.params := by
  induction n generalizing s with
  | zero =>
    rw [endOfRun] at h
    split at h
    · next he => cases h; exact ⟨he, rfl⟩
    · cases h
  | succ n ih =>
    rw [endOfRun] at h
    split at h
    · next he => cases h; exact ⟨he, rfl⟩
    · split at h
      · next u hu =>
        obtain ⟨he, hp⟩ := ih h
        exact ⟨he, hp.trans (step_params hu)⟩
      · cases h
      · cases h

/-- The run with more turns after its agenda ends where the run does. -/
theorem endOfRun_append {n : Nat} {s t : State} {ts : List Turn} (hn : n ≤ s.agenda.length) (h : endOfRun n s = some t)
    (hts : ∀ u ∈ ts, u.writesCommand s.params = false) :
    endOfRun n { s with agenda := s.agenda ++ ts } = some { t with agenda := t.agenda ++ ts } := by
  induction n generalizing s with
  | zero =>
    rw [endOfRun, ended_append hts]
    rw [endOfRun] at h
    split at h
    · next he => cases h; exact if_pos he
    · cases h
  | succ n ih =>
    rw [endOfRun, ended_append hts]
    rw [endOfRun] at h
    split at h
    · next he => cases h; exact if_pos he
    · next he =>
      obtain ⟨u, us, ha⟩ := List.exists_cons_of_length_pos (Nat.lt_of_lt_of_le n.succ_pos hn)
      split at h
      · next s' hs' =>
        have hus := step_agenda ha hs'
        rw [if_neg he, step_append_agenda ha, hs', withAgenda_next, ← hus]
        refine ih ?_ h fun w hw => step_params hs' ▸ hts w hw
        rw [hus]
        rw [ha] at hn
        exact Nat.le_of_succ_le_succ hn
      · cases h
      · cases h

/-- Settles O57: the end is an end (`ended_of_endOfRun`), and the longer run comes to it too (`endOfRun_append`). -/
theorem turnsAfterTheEndAreNotOfTheRun : Obligations.TurnsAfterTheEndAreNotOfTheRun := by
  intro n s t ts hn h hts
  obtain ⟨he, hp⟩ := ended_of_endOfRun h
  obtain ⟨hidle, hsent⟩ := (ended_iff t).1 he
  have hrun := endOfRun_append hn h hts
  exact ⟨hidle, hp ▸ hsent, hrun, by rw [observeRun, hrun]; rfl⟩

end Sys2Proof.Machine
end

section
/-! The host's window (R20 to R30, R35, R36, R52 to R60) and the reset (R250). -/

namespace Sys2Proof.Machine

/-! ### CTRL and the reset input -/

section ctrl

variable {s : State} {v : Word}

theorem writeCtrl_of_reset (h9 : v.getLsbD 9 = true) : s.writeCtrl v = s.softReset := if_pos h9

theorem writeCtrl_of_clear (h9 : v.getLsbD 9 = false) (h8 : v.getLsbD 8 = true) :
    s.writeCtrl v = { s with err := none, ieErr := v.getLsbD 0, ieIdle := v.getLsbD 1 } := by
  rw [State.writeCtrl, h9, h8]
  rfl

theorem writeCtrl_of_enables (h9 : v.getLsbD 9 = false) (h8 : v.getLsbD 8 = false) :
    s.writeCtrl v = { s with ieErr := v.getLsbD 0, ieIdle := v.getLsbD 1 } := by
  rw [State.writeCtrl, h9, h8]
  rfl

theorem softReset_of_idle (h : s.idle = true) : s.softReset = s.afterReset s.sym s.bit := if_pos h

theorem softReset_of_running (h : s.running ≠ none) : s.softReset = s.afterReset [] [] :=
  if_neg fun hi => h ((idle_iff s).1 hi).1

end ctrl

/-- Settles O53: a write to CTRL is `State.writeCtrl`, by its bits 9 and 8; a soft reset keeps the memories when idle. -/
theorem ctrlWritesClearOrReset : Obligations.CtrlWritesClearOrReset := by
  intro s ts v hp ha
  have hstep : step s = .next ({ s with agenda := ts }.writeCtrl v) := step_writeReg hp (by decide) (by decide) ha
  refine ⟨fun h9 hidle => ?idle, fun h9 hrun => ?running, fun h9 h8 => ?clear, fun h9 h8 => ?enables⟩
  case idle =>
    rw [hstep, writeCtrl_of_reset h9, softReset_of_idle (s := { s with agenda := ts }) hidle]
    rfl
  case running =>
    rw [hstep, writeCtrl_of_reset h9, softReset_of_running (s := { s with agenda := ts }) hrun]
    rfl
  case clear => rw [hstep, writeCtrl_of_clear h9 h8]
  case enables => rw [hstep, writeCtrl_of_enables h9 h8]

/-- Settles O60, by the reset's values. -/
theorem resetInputGivesTheResetState : Obligations.ResetInputGivesTheResetState := by
  intro s ts ha
  refine ⟨({ s with agenda := ts } : State).resetInput, step_of_turn ha, rfl, ?ctrl, ?cfg, rfl, rfl, fun hdepth => ?status,
    rfl, rfl, rfl, rfl, rfl, rfl, rfl, rfl, rfl, rfl, rfl, rfl, rfl, rfl, rfl, rfl, rfl, rfl, rfl⟩
  case ctrl => exact (by decide : 0#30 ++ BitVec.ofBool false ++ BitVec.ofBool false = 0#32)
  case cfg => exact (by decide : 0#27 ++ 24#5 = 0x18#32)
  case status =>
    have hfull : ({ s with agenda := ts } : State).resetInput.full = false := decide_eq_false (Nat.not_le.2 hdepth)
    rw [State.statusWord, hfull]
    exact (by decide : 0#16 ++ 0#8 ++ 0#5 ++ BitVec.ofBool false ++ BitVec.ofBool false ++ BitVec.ofBool true = 1#32)

/-! ### What an offset names -/

variable {p : Params} {s : State} {ts : List Turn} {v r : Word} {off i : Nat}

theorem targetAt_sym (hp : p.valid) (hi : i < p.symDepth) : targetAt p (0x10000 + 4 * i) = .sym i := by
  obtain ⟨-, ⟨-, hdepth⟩, -⟩ := hp
  have hindex : (0x10000 + 4 * i - 0x10000) / 4 = i := by omega
  rw [targetAt, if_neg (by omega), if_pos (by omega), hindex, if_pos hi]

theorem targetAt_bits (hp : p.valid) (hi : 4 * i < p.bitBytes) : targetAt p (0x100000 + 4 * i) = .bits i := by
  obtain ⟨-, -, ⟨-, hbytes⟩, -⟩ := hp
  have hindex : (0x100000 + 4 * i - 0x100000) / 4 = i := by omega
  rw [targetAt, if_neg (by omega), if_neg (by omega), if_pos (by omega), if_pos (by omega), hindex]

theorem regAt_reserved (h : 0x038 ≤ off) : regAt off = .reserved := by
  unfold regAt
  repeat rw [if_neg (by omega)]

/-- The offsets that name nothing: reserved registers, the gaps between the windows, and past the ends of the memories. -/
theorem targetAt_unlisted (h4 : off % 4 = 0)
    (h : (0x038 ≤ off ∧ off < 0x10000) ∨ (0x50000 ≤ off ∧ off < 0x100000) ∨
      (0x10000 + 4 * p.symDepth ≤ off ∧ off < 0x50000) ∨ (0x100000 + p.bitBytes ≤ off ∧ off < 0x200000)) :
    targetAt p off = .reg .reserved ∨ targetAt p off = .hole := by
  unfold targetAt
  split_ifs
  · exact .inl (congrArg Target.reg (regAt_reserved (by omega)))
  · omega
  · exact .inr rfl
  · omega
  · exact .inr rfl
  · exact .inr rfl

/-- A write to a register the host may only read, or to a reserved one, is ignored. -/
theorem writeReg_of_readOnly {r : Reg} (h : r ∉ [Reg.ctrl, .cfg, .cmd]) : writeReg s v r = .next s := by
  cases r with
  | ctrl | cfg | cmd => simp at h
  | _ => rfl

/-! ### Words of the memories -/

/-- The host word of a symbol it has stored is the low 12 bits of the word it wrote (R35). -/
theorem symWord_wordSym (v free : Word) : symWord (some (wordSym v)) free = v &&& 0xFFF#32 := by
  have hlow : (v &&& 0xFFF#32).toNat = v.toNat % 2 ^ 12 := Nat.and_two_pow_sub_one_eq_mod v.toNat 12
  have hwidth : (0#20 ++ v.extractLsb' 8 4).toNat = v.toNat / 2 ^ 8 % 2 ^ 4 := by
    rw [BitVec.toNat_append]
    simp [Nat.shiftRight_eq_div_pow]
  apply BitVec.eq_of_toNat_eq
  rw [hlow, symWord, wordSym, toNat_append_byte, hwidth, BitVec.extractLsb'_toNat, Nat.shiftRight_zero]
  omega

/-- The bits of the word at 4j that lie inside the bit memory. -/
def keptBits (p : Params) (j : Nat) : Nat := 8 * min 4 (p.bitBytes - 4 * j)

theorem lt_keptBits {j t : Nat} (ht : t < 32) : t < keptBits p j ↔ 32 * j + t < p.bitLen := by
  simp only [keptBits, Params.bitLen]
  omega

/-- What the bit memory holds after a host write at offset 4j (R36, R54): bits past its end are not stored. -/
theorem read_writeBitWord (s : State) (j : Nat) (v : Word) (a : Nat) :
    (writeBitWord s j v).read a =
      if 32 * j ≤ a ∧ a < 32 * j + 32 ∧ a < 8 * s.params.bitBytes then some (v.getLsbD (31 - (a - 32 * j)))
      else s.bit.read a := by
  rw [writeBitWord, Memory.read_writeList, List.length_take, length_bitsMsb, State.bitLen, Params.bitLen]
  by_cases h : 32 * j ≤ a ∧ a < 32 * j + 32 ∧ a < 8 * s.params.bitBytes
  · rw [if_pos (by omega), if_pos h, List.getElem?_take_of_lt (by omega), getElem?_bitsMsb _ (by omega),
      BitVec.testBit_toNat]
  · rw [if_neg (by omega), if_neg h]

/-- The host word of bits the memory has stored is the word it wrote, less the bits past the end (R36). -/
theorem bitWord_of_stored {u : State} {j : Nat} (free : Word)
    (hread : ∀ t, t < keptBits u.params j → u.bit.read (32 * j + t) = some (v.getLsbD (31 - t))) :
    bitWord u j free =
      BitVec.ofNat 32 (v.toNat / 2 ^ (32 - keptBits u.params j) * 2 ^ (32 - keptBits u.params j)) := by
  have hbits : (List.range 32).map (bitWordBit u j free) =
      bitsMsb 32 (v.toNat / 2 ^ (32 - keptBits u.params j) * 2 ^ (32 - keptBits u.params j)) := by
    refine List.map_congr_left fun t ht => ?_
    have ht : t < 32 := List.mem_range.1 ht
    rw [bitWordBit, Nat.testBit_mul_two_pow, Nat.testBit_div_two_pow]
    by_cases hkept : t < keptBits u.params j
    · have hin : ¬ u.bitLen ≤ 32 * j + t := Nat.not_le.2 ((lt_keptBits ht).1 hkept)
      have hindex : 32 - 1 - t - (32 - keptBits u.params j) + (32 - keptBits u.params j) = 31 - t := by omega
      have hle : 32 - keptBits u.params j ≤ 32 - 1 - t := by omega
      rw [if_neg hin, hread t hkept, hindex, decide_eq_true hle, Bool.true_and, BitVec.testBit_toNat]
    · have hout : u.bitLen ≤ 32 * j + t := Nat.not_lt.1 fun h => hkept ((lt_keptBits ht).2 h)
      have hgt : ¬ 32 - keptBits u.params j ≤ 32 - 1 - t := by omega
      rw [if_pos hout, decide_eq_false hgt, Bool.false_and]
  rw [bitWord, hbits, valMsb_bitsMsb]
  apply BitVec.eq_of_toNat_eq
  simp

/-! ### The window -/

/-- A host write to a reserved offset is ignored, and a host read of one returns 0. -/
theorem step_unlisted (hp : s.params.valid) (h4 : off % 4 = 0)
    (h : (0x038 ≤ off ∧ off < 0x10000) ∨ (0x50000 ≤ off ∧ off < 0x100000) ∨
      (0x10000 + 4 * s.params.symDepth ≤ off ∧ off < 0x50000) ∨
      (0x100000 + s.params.bitBytes ≤ off ∧ off < 0x200000)) :
    (s.agenda = .hostRead (s.params.base + off) :: ts →
      ∃ k, step s = .next { s with agenda := ts, rdata := 0#32, draws := k }) ∧
    (s.agenda = .hostWrite (s.params.base + off) v :: ts → step s = .next { s with agenda := ts }) := by
  refine ⟨fun ha => ⟨s.draws + 1, ?_⟩, fun ha => ?_⟩
  · rw [step_hostRead hp h4 (by omega) ha]
    obtain ht | ht := targetAt_unlisted h4 h <;> rw [ht] <;> rfl
  · rw [step_hostWrite hp h4 (by omega) ha]
    obtain ht | ht := targetAt_unlisted h4 h <;> rw [ht] <;> rfl

/-- The offsets of the registers the host may only read. -/
theorem regAt_readOnly : ∀ off ∈ [0x000, 0x008, 0x010, 0x014, 0x01C, 0x020, 0x024, 0x028, 0x02C, 0x030, 0x034],
    off % 4 = 0 ∧ off < 0x1000 ∧ regAt off ∉ [Reg.ctrl, .cfg, .cmd] := by decide

/-- A host write to an entry of SYM while idle (R35). -/
theorem step_storeSym (hp : s.params.valid) (hi : i < s.params.symDepth) (hidle : s.idle = true)
    (ha : s.agenda = .hostWrite (s.params.base + 0x10000 + 4 * i) v :: ts) :
    step s = .next { s with agenda := ts, sym := s.sym.write i (wordSym v) } := by
  have hdepth : s.params.symDepth ≤ 65536 := hp.2.1.2
  rw [Nat.add_assoc] at ha
  rw [step_hostWrite hp (by omega) (by omega) ha, targetAt_sym hp hi]
  exact storeIdle_idle (s := { s with agenda := ts }) hidle _

/-- A host read, while idle, of the entry of SYM a word has been stored in. -/
theorem step_loadSym (hp : s.params.valid) (hi : i < s.params.symDepth) (hidle : s.idle = true)
    (ha : s.agenda = .hostRead (s.params.base + 0x10000 + 4 * i) :: ts) (hread : s.sym.read i = some (wordSym v)) :
    ∃ u, step s = .next u ∧ u.rdata = v &&& 0xFFF#32 := by
  have hdepth : s.params.symDepth ≤ 65536 := hp.2.1.2
  rw [Nat.add_assoc] at ha
  refine ⟨_, step_hostRead hp (by omega) (by omega) ha, ?_⟩
  rw [targetAt_sym hp hi, readTarget, whenIdle, if_pos hidle, hread, symWord_wordSym]

/-- A host write to a word of BIT while idle (R36). -/
theorem step_storeBits (hp : s.params.valid) (hi : 4 * i < s.params.bitBytes) (hidle : s.idle = true)
    (ha : s.agenda = .hostWrite (s.params.base + 0x100000 + 4 * i) v :: ts) :
    step s = .next { s with agenda := ts, bit := writeBitWord s i v } := by
  have hbytes : s.params.bitBytes ≤ 1048576 := hp.2.2.1.2
  rw [Nat.add_assoc] at ha
  rw [step_hostWrite hp (by omega) (by omega) ha, targetAt_bits hp hi]
  exact storeIdle_idle (s := { s with agenda := ts }) hidle _

/-- A host read, while idle, of the word of BIT whose bits have been stored. -/
theorem step_loadBits (hp : s.params.valid) (hi : 4 * i < s.params.bitBytes) (hidle : s.idle = true)
    (ha : s.agenda = .hostRead (s.params.base + 0x100000 + 4 * i) :: ts)
    (hread : ∀ t, t < keptBits s.params i → s.bit.read (32 * i + t) = some (v.getLsbD (31 - t))) :
    ∃ u, step s = .next u ∧ u.rdata =
      BitVec.ofNat 32 (v.toNat / 2 ^ (32 - keptBits s.params i) * 2 ^ (32 - keptBits s.params i)) := by
  have hbytes : s.params.bitBytes ≤ 1048576 := hp.2.2.1.2
  rw [Nat.add_assoc] at ha
  refine ⟨_, step_hostRead hp (by omega) (by omega) ha, ?_⟩
  rw [targetAt_bits hp hi, readTarget, whenIdle, if_pos hidle, bitWord_of_stored _ hread]

/-- The targets a host must not write while a command executes (R60, assumption 7). -/
theorem step_storeBusy (hp : s.params.valid)
    (hoff : off = 0x00C ∨ off = 0x10000 + 4 * i ∧ i < s.params.symDepth ∨
      off = 0x100000 + 4 * i ∧ 4 * i < s.params.bitBytes)
    (ha : s.agenda = .hostWrite (s.params.base + off) v :: ts) (hbusy : s.idle = false) :
    step s = .fault .hostWriteBusy := by
  have hdepth : s.params.symDepth ≤ 65536 := hp.2.1.2
  have hbytes : s.params.bitBytes ≤ 1048576 := hp.2.2.1.2
  obtain rfl | ⟨rfl, hi⟩ | ⟨rfl, hi⟩ := hoff
  · rw [step_writeReg hp (by decide) (by decide) ha]
    exact storeIdle_busy (s := { s with agenda := ts }) hbusy _
  · rw [step_hostWrite hp (by omega) (by omega) ha, targetAt_sym hp hi]
    exact storeIdle_busy (s := { s with agenda := ts }) hbusy _
  · rw [step_hostWrite hp (by omega) (by omega) ha, targetAt_bits hp hi]
    exact storeIdle_busy (s := { s with agenda := ts }) hbusy _

/-- Settles O55: a step is a read or a write of what the offset names. -/
theorem hostWindowStoresAndReads : Obligations.HostWindowStoresAndReads := by
  intro s ts v i hp
  refine ⟨fun hi ha hidle => ?sym, fun hi ha hidle => ?bit, fun ha hidle => ?cfg,
    fun off hoff ha hbusy => step_storeBusy hp hoff ha hbusy,
    fun off h4 hoff ha => ⟨_, _, step_hostRead hp h4 hoff ha⟩, fun off h4 hoff => step_unlisted hp h4 hoff,
    fun off hoff ha => ?readOnly⟩
  case sym =>
    have hread := fun a => Memory.read_write s.sym i a (wordSym v)
    obtain ⟨u, hu, hr⟩ := step_loadSym (s := { s with
      agenda := .hostRead (s.params.base + 0x10000 + 4 * i) :: ts
      sym := s.sym.write i (wordSym v) }) hp hi hidle rfl ((hread i).trans (if_pos rfl))
    exact ⟨_, u, step_storeSym hp hi hidle ha, hread, hu, hr⟩
  case bit =>
    have hread := read_writeBitWord s i v
    obtain ⟨u, hu, hr⟩ := step_loadBits (v := v) (s := { s with
      agenda := .hostRead (s.params.base + 0x100000 + 4 * i) :: ts
      bit := writeBitWord s i v }) hp hi hidle rfl fun t ht => by
        have ht32 : t < 32 := Nat.lt_of_lt_of_le ht (by simp only [keptBits]; omega)
        have hin := (lt_keptBits ht32).1 ht
        rw [hread, if_pos ⟨by omega, by omega, hin⟩, Nat.add_sub_cancel_left]
    exact ⟨_, u, step_storeBits hp hi hidle ha, hread, hu, hr⟩
  case cfg =>
    rw [step_writeReg hp (by decide) (by decide) ha]
    exact storeIdle_idle (s := { s with agenda := ts }) hidle _
  case readOnly =>
    obtain ⟨h4, hlt, hreg⟩ := regAt_readOnly off hoff
    rw [step_writeReg hp h4 hlt ha, writeReg_of_readOnly hreg]

/-! ### Reads of the registers -/

/-- The registers a host read returns at any time, by offset (R20). -/
def alwaysReadable (s : State) : List (Nat × Word) :=
  [(0x000, Config.idValue), (0x004, s.ctrlWord), (0x008, s.statusWord), (0x00C, s.cfgWord), (0x010, s.errinfo),
    (0x014, s.errseq), (0x018, 0#32)]

/-- The registers whose reads are arbitrary while the engine is busy (R59). -/
def idleReadable (s : State) : List (Nat × Word) :=
  [(0x01C, s.wptr), (0x020, s.rptr), (0x024, s.res0), (0x028, s.res1), (0x02C, s.res2), (0x030, s.res3),
    (0x034, s.cmdcnt)]

theorem registers_eq (s : State) : s.observation.registers = alwaysReadable s ++ idleReadable s := rfl

theorem alwaysReadable_offset (s : State) (h : (off, r) ∈ alwaysReadable s) :
    off % 4 = 0 ∧ off < 0x1000 ∧ ∀ free, readReg s free (regAt off) = r := by
  simp only [alwaysReadable, List.mem_cons, Prod.mk.injEq, List.not_mem_nil, or_false] at h
  obtain ⟨rfl, rfl⟩ | ⟨rfl, rfl⟩ | ⟨rfl, rfl⟩ | ⟨rfl, rfl⟩ | ⟨rfl, rfl⟩ | ⟨rfl, rfl⟩ | ⟨rfl, rfl⟩ := h <;>
    exact ⟨rfl, by decide, fun _ => rfl⟩

theorem idleReadable_offset (hidle : s.idle = true) (h : (off, r) ∈ idleReadable s) :
    off % 4 = 0 ∧ off < 0x1000 ∧ ∀ free, readReg s free (regAt off) = r := by
  simp only [idleReadable, List.mem_cons, Prod.mk.injEq, List.not_mem_nil, or_false] at h
  obtain ⟨rfl, rfl⟩ | ⟨rfl, rfl⟩ | ⟨rfl, rfl⟩ | ⟨rfl, rfl⟩ | ⟨rfl, rfl⟩ | ⟨rfl, rfl⟩ | ⟨rfl, rfl⟩ := h <;>
    exact ⟨rfl, by decide, fun _ => if_pos hidle⟩

theorem ctrlWord_eq_ofNat (s : State) : s.ctrlWord = BitVec.ofNat 32 (s.ieErr.toNat + 2 * s.ieIdle.toNat) := by
  rw [State.ctrlWord]
  cases s.ieErr <;> cases s.ieIdle <;> rfl

theorem cfgWord_eq_ofNat (s : State) : s.cfgWord = BitVec.ofNat 32 s.intres.toNat := by
  apply BitVec.eq_of_toNat_eq
  rw [State.cfgWord, BitVec.toNat_append]
  simp [Nat.mod_eq_of_lt (Nat.lt_trans s.intres.isLt (by decide : 2 ^ 5 < 4294967296))]

/-- Settles O56: each listed register is read at its offset (`alwaysReadable_offset`, `idleReadable_offset`), and a reserved
offset reads 0 (`step_unlisted`). -/
theorem hostReadsTheRegisters : Obligations.HostReadsTheRegisters := by
  intro s ts off hp ha
  refine ⟨fun r hr => ?always, fun hidle r hr => ?idle, fun hlo hhi h4 => ?reserved⟩
  case always =>
    have hr : (off, r) ∈ alwaysReadable s := by
      rw [alwaysReadable, ctrlWord_eq_ofNat, cfgWord_eq_ofNat]
      exact hr
    obtain ⟨h4, hlt, hread⟩ := alwaysReadable_offset s hr
    exact ⟨registers_eq s ▸ List.mem_append_left _ hr, _, hread (Config.draw s.draws) ▸ step_readReg hp h4 hlt ha⟩
  case idle =>
    obtain ⟨h4, hlt, hread⟩ := idleReadable_offset hidle hr
    exact ⟨registers_eq s ▸ List.mem_append_right _ hr, _, hread (Config.draw s.draws) ▸ step_readReg hp h4 hlt ha⟩
  case reserved => exact (step_unlisted (v := 0#32) hp h4 (.inl ⟨hlo, by omega⟩)).1 ha

end Sys2Proof.Machine
end

section
/-! The FDU and RCU commands that are exact: FREC after FDEC (R101), FMUL of zeros and specials (R104), UNRES and its round
trip with RESID (R132, R134). -/

namespace Sys2Proof.Machine

/-! ### Recompose after decompose (R101) -/

theorem legalExpMant_decompose (x : Word) : legalExpMant (decompose x).exp (decompose x).mant = true := by
  have hf := fracField_lt x
  have he := expField_lt x
  rw [legalExpMant_iff]
  by_cases h0 : expField x = 0
  · rw [decompose_zeroExp h0]; exact .inl ⟨rfl, hf⟩
  by_cases h255 : expField x = 255
  · rw [decompose_special h255]; exact .inr (.inr ⟨rfl, hf⟩)
  · rw [decompose_normal (by omega) (by omega)]
    exact .inr (.inl ⟨by dsimp only; omega, by dsimp only; omega, by dsimp only; omega, by dsimp only; omega⟩)

/-- A normal word is the one its exponent field and its whole mantissa pack to. -/
theorem packWord_normal (x : Word) : packWord (signBit x) (expField x) (2 ^ 23 + fracField x) = x := by
  refine word_eq_of_fields (signBit_packWord ..) (expField_packWord (expField_lt x) ..) ?_
  rw [fracField_packWord, Nat.add_mod_left, Nat.mod_eq_of_lt (fracField_lt x)]

theorem recompose_decompose (x : Word) : recompose (decompose x) = x := by
  have he := expField_lt x
  by_cases h0 : expField x = 0
  · rw [decompose_zeroExp h0, recompose_zeroExp rfl, ← h0, packWord_fields]
  by_cases h255 : expField x = 255
  · rw [decompose_special h255, recompose_special rfl, ← h255, packWord_fields]
  · have hexp : ((expField x : ℤ) - 127 + 127).toNat = expField x := by omega
    rw [decompose_normal (by omega) (by omega), recompose_normal (by dsimp only; omega) (by dsimp only; omega), hexp,
      packWord_normal]

/-- FREC's operands stand for the triple whose parts FDEC wrote. -/
theorem toInt_toNat_of_legal {e : ℤ} {m : Nat} (h : legalExpMant e m = true) :
    (BitVec.ofInt 32 e).toInt = e ∧ (BitVec.ofNat 32 m).toNat = m := by
  rw [legalExpMant_iff] at h
  rw [BitVec.toInt_ofInt, BitVec.toNat_ofNat]
  refine ⟨Int.bmod_eq_of_le (by omega) (by omega), Nat.mod_eq_of_lt (by omega)⟩

/-- Settles O9: FDEC's three words are read back as the triple (`toInt_toNat_of_legal`), whose word is the original
(`recompose_decompose`). -/
theorem frecInvertsFdec : Obligations.FrecInvertsFdec := by
  intro x s t h
  rw [exec_fdec_eq] at h
  cases h
  have hlegal := legalExpMant_decompose x
  obtain ⟨hexp, hmant⟩ := toInt_toNat_of_legal hlegal
  have hsign : (signWord (decompose x).sign).toNat ≤ 1 ∧ (signWord (decompose x).sign).getLsbD 0 = (decompose x).sign := by
    cases (decompose x).sign <;> decide
  have htriple : frecTriple (signWord (decompose x).sign) (BitVec.ofInt 32 (decompose x).exp)
      (BitVec.ofNat 32 (decompose x).mant) = decompose x := by rw [frecTriple, hexp, hmant, hsign.2]
  rw [exec_frec_of_legal _ hsign.1 (by rw [hexp, hmant]; exact hlegal), htriple, recompose_decompose]

/-! ### FMUL of zeros and specials (R104) -/

theorem header_fmul (a b : Word) : (Instr.fmul a b).header = 0x12000000#32 :=
  (by decide : mkHeader 0x12 0 0 = 0x12000000#32)

/-- The bits below the sign are 0 exactly in a zero. -/
theorem extractLsb'_eq_zero_iff (x : Word) : x.extractLsb' 0 31 = 0#31 ↔ expField x = 0 ∧ fracField x = 0 := by
  have hx := x.isLt
  rw [← BitVec.toNat_inj, BitVec.extractLsb'_toNat, expField_eq, fracField_eq, Nat.shiftRight_zero, BitVec.toNat_ofNat]
  omega

theorem isSpecial_decompose (x : Word) : (decompose x).isSpecial = true ↔ expField x = 255 := by
  have he := expField_lt x
  unfold decompose
  split_ifs with h0 h255
  · simp [Triple.isSpecial, h0]
  · simp [Triple.isSpecial, h255]
  · simp only [Triple.isSpecial, decide_eq_true_iff]; omega

theorem exp_decompose_eq_neg (x : Word) : (decompose x).exp = -127 ↔ expField x = 0 := by
  unfold decompose
  split_ifs with h0 h255
  · simp [h0]
  · simp [h0]
  · dsimp only; omega

theorem isZero_decompose (x : Word) : (decompose x).isZero = true ↔ x.extractLsb' 0 31 = 0#31 := by
  rw [Triple.isZero, decide_eq_true_iff, exp_decompose_eq_neg, extractLsb'_eq_zero_iff]
  exact and_congr_right fun h0 => by rw [decompose_zeroExp h0]

theorem isSubnormal_decompose (x : Word) :
    (decompose x).isSubnormal = true ↔ expField x = 0 ∧ fracField x ≠ 0 := by
  rw [Triple.isSubnormal, decide_eq_true_iff, exp_decompose_eq_neg]
  exact and_congr_right fun h0 => by rw [decompose_zeroExp h0]

/-- A triple that `multiply` takes: neither special nor subnormal. -/
def Triple.Multipliable (t : Triple) : Prop := t.isSpecial = false ∧ t.isSubnormal = false

theorem multipliable_decompose (x : Word) :
    (decompose x).Multipliable ↔ x.extractLsb' 0 31 = 0#31 ∨ (1 ≤ expField x ∧ expField x ≤ 254) := by
  have he := expField_lt x
  rw [Triple.Multipliable, ← Bool.not_eq_true, ← Bool.not_eq_true, isSpecial_decompose, isSubnormal_decompose,
    extractLsb'_eq_zero_iff]
  omega

theorem multiply_eq_none_of_not {a b : Triple} (h : ¬ (a.Multipliable ∧ b.Multipliable)) : multiply a b = none := by
  refine if_pos ?_
  simp only [Triple.Multipliable, ← Bool.not_eq_true] at h
  tauto

theorem multiply_of_multipliable {a b : Triple} (ha : a.Multipliable) (hb : b.Multipliable) :
    multiply a b = if a.isZero ∨ b.isZero then some { sign := a.sign ^^ b.sign, exp := -127, mant := 0 }
      else multiplyNormal a b := by
  refine if_neg ?_
  simp only [Triple.Multipliable, ← Bool.not_eq_true] at ha hb
  tauto

/-- The word of a signed zero. -/
theorem recompose_zero (sg : Bool) :
    recompose { sign := sg, exp := -127, mant := 0 } = BitVec.ofNat 32 (sg.toNat * 2 ^ 31) := by
  cases sg <;> rfl

/-- FMUL completes with the product of its operands' triples. -/
theorem exec_fmul_of_some {a b : Word} {t : Triple} (s : State) (h : multiply (decompose a) (decompose b) = some t) :
    exec (.fmul a b) s = .next { s with
      res0 := recompose t, res1 := signWord t.sign, res2 := BitVec.ofInt 32 t.exp, res3 := BitVec.ofNat 32 t.mant
      cmdcnt := s.cmdcnt + 1#32 } := by
  rw [exec_fmul, execFmul, h]
  rfl

/-- FMUL raises when the product is DOMAIN. -/
theorem exec_fmul_of_none {a b : Word} (s : State) (h : multiply (decompose a) (decompose b) = none) :
    exec (.fmul a b) s = .next (s.takeException .fduDomain 0x12000000#32) := by
  rw [exec_fmul, execFmul, h]
  exact raise_of_header (header_fmul a b) _ s

/-- Settles O11: a zero among operands that `multiply` takes gives the signed zero; special and subnormal operands are
DOMAIN. -/
theorem fmulOfZerosAndSpecials : Obligations.FmulOfZerosAndSpecials := by
  intro a b s
  refine ⟨fun h => ?zero, fun h => exec_fmul_of_none s (multiply_eq_none_of_not ?domain)⟩
  case zero =>
    have hzero : (decompose a).isZero = true ∨ (decompose b).isZero = true := by
      rw [isZero_decompose, isZero_decompose]
      exact h.imp And.left And.left
    have hmul : (decompose a).Multipliable ∧ (decompose b).Multipliable := by
      rw [multipliable_decompose, multipliable_decompose]
      tauto
    have hproduct := (multiply_of_multipliable hmul.1 hmul.2).trans (if_pos hzero)
    rw [decompose_sign, decompose_sign] at hproduct
    rw [exec_fmul_of_some s hproduct, recompose_zero]
    rfl
  case domain =>
    rw [multipliable_decompose, multipliable_decompose, extractLsb'_eq_zero_iff, extractLsb'_eq_zero_iff]
    omega

/-! ### UNRES (R134) -/

theorem header_unres (y d : Word) : (Instr.unres y d).header = 0x22000000#32 :=
  (by decide : mkHeader 0x22 0 0 = 0x22000000#32)

/-- The word of a sign, a normal exponent and a 24-bit mantissa. -/
theorem recompose_eq_ofNat {sg : Bool} {e m : Nat} (h1 : 1 ≤ e) (h2 : e ≤ 254) (hm : 2 ^ 23 ≤ m) (hm' : m < 2 ^ 24) :
    recompose { sign := sg, exp := (e : ℤ) - 127, mant := m } =
      BitVec.ofNat 32 (sg.toNat * 2 ^ 31 + e * 2 ^ 23 + (m - 2 ^ 23)) := by
  have hexp : ((e : ℤ) - 127 + 127).toNat = e := by omega
  have hfrac : m % 2 ^ 23 = m - 2 ^ 23 := by omega
  rw [recompose_normal (by dsimp only; omega) (by dsimp only; omega), hexp, packWord_eq_ofNat _ (by omega), hfrac]

/-- UNRES of a normal reconstruction: R134's checks in order, and its results. -/
theorem exec_unres_of_normal {y d : Word} (s : State) (h : 1 ≤ expField y ∧ expField y ≤ 254) :
    exec (.unres y d) s =
      if 2 ^ 24 ≤ d.toNat then .next (s.takeException .rcuRange 0x22000000#32)
      else if 2 ^ 23 + fracField y + d.toNat < 2 ^ 24 then .next { s with
        res0 := recompose { sign := signBit y, exp := (expField y : ℤ) - 127, mant := 2 ^ 23 + fracField y + d.toNat }
        cmdcnt := s.cmdcnt + 1#32 }
      else if (2 ^ 23 + fracField y + d.toNat) % 2 = 1 ∨ expField y = 254 then
        .next (s.takeException .rcuRange 0x22000000#32)
      else .next { s with
        res0 := recompose { sign := signBit y, exp := (expField y + 1 : ℕ) - 127,
                            mant := (2 ^ 23 + fracField y + d.toNat) / 2 }
        cmdcnt := s.cmdcnt + 1#32 } := by
  have hn : ¬ isNormalWord y = false := by simp [(isNormalWord_iff y).2 h]
  have hexp : (expField y : ℤ) - 127 + 1 = (expField y + 1 : ℕ) - 127 := by omega
  have hmax : 127 < ((expField y + 1 : ℕ) : ℤ) - 127 ↔ expField y = 254 := by omega
  simp only [exec_unres, execUnres, if_neg hn, decompose_normal h.1 h.2, raise_of_header (header_unres y d), hexp, hmax]
  refine ite_congr rfl (fun _ => rfl) fun _ => ite_congr rfl (fun _ => rfl) fun _ => ?_
  by_cases hodd : (2 ^ 23 + fracField y + d.toNat) % 2 = 1
  · rw [if_pos hodd, if_pos (.inl hodd)]
  · rw [if_neg hodd]
    exact ite_congr (propext (or_iff_right hodd).symm) (fun _ => rfl) fun _ => rfl

/-- Settles O17: the clauses are the branches of `exec_unres_of_normal`. -/
theorem unresAddsTheDelta : Obligations.UnresAddsTheDelta := by
  intro y d s
  refine ⟨fun hn => ?domain, fun h hrange => ?range, fun h hd hT => ?sum, fun h hd hT heven he => ?renormalized⟩
  case domain =>
    rw [exec_unres, execUnres, if_pos (Bool.eq_false_iff.2 fun h => hn ((isNormalWord_iff y).1 h)),
      raise_of_header (header_unres y d)]
  case range =>
    rw [exec_unres_of_normal s h]
    by_cases hd : 2 ^ 24 ≤ d.toNat
    · rw [if_pos hd]
    · rw [if_neg hd, if_neg (by omega), if_pos (by omega)]
  case sum =>
    rw [exec_unres_of_normal s h, if_neg (by omega), if_pos hT, recompose_eq_ofNat h.1 h.2 (by omega) hT]
  case renormalized =>
    have hfrac := fracField_lt y
    rw [exec_unres_of_normal s h, if_neg (by omega), if_neg (by omega), if_neg (by omega),
      recompose_eq_ofNat (by omega) (by omega) (by omega) (by omega)]

/-! ### UNRES after RESID (R132, R134) -/

/-- A RESID that ends with ERR = 0 has passed its checks. -/
theorem exec_resid_eq_next {x y : Word} {s t : State} (h : exec (.resid x y) s = .next t) (he : s.err = none)
    (ht : t.err = none) :
    ((1 ≤ expField x ∧ expField x ≤ 254) ∧ 1 ≤ expField y ∧ expField y ≤ 254) ∧
      (signBit x = signBit y ∧ expField y ≤ expField x ∧ 0 ≤ residDelta x y) ∧ residDelta x y < 2 ^ 24 ∧
      t.res0 = BitVec.ofNat 32 (residDelta x y).toNat := by
  have raised : ∀ k w, (.next (s.takeException k w) : Result) = .next t → False := by
    rintro k w ⟨⟩
    rw [takeException_of_no_err he] at ht
    cases ht
  by_cases hn : (1 ≤ expField x ∧ expField x ≤ 254) ∧ 1 ≤ expField y ∧ expField y ≤ 254
  case neg =>
    rw [exec_resid_of_not_normal] at h
    · exact (raised _ _ h).elim
    · rw [← Bool.not_eq_true, ← Bool.not_eq_true, isNormalWord_iff, isNormalWord_iff, ← not_and_or]
      exact hn
  case pos =>
    rw [exec_resid_of_normal hn.1 hn.2] at h
    split_ifs at h with horder hrange
    · exact (raised _ _ h).elim
    · cases h
      exact ⟨hn, horder, not_le.1 hrange, rfl⟩
    · exact (raised _ _ h).elim

/-- The delta fits in a mantissa only when the exponents differ by at most 1, and is what UNRES adds to get the mantissa
back. -/
theorem residDelta_add {x y : Word} (he : expField y ≤ expField x) (h0 : 0 ≤ residDelta x y)
    (h24 : residDelta x y < 2 ^ 24) :
    (expField x = expField y ∧ 2 ^ 23 + fracField y + (residDelta x y).toNat = 2 ^ 23 + fracField x) ∨
      (expField x = expField y + 1 ∧
        2 ^ 23 + fracField y + (residDelta x y).toNat = 2 * (2 ^ 23 + fracField x)) := by
  have hx := fracField_lt x
  have hy := fracField_lt y
  rw [residDelta_eq] at h0 h24 ⊢
  obtain ⟨d, hd⟩ := Nat.exists_eq_add_of_le he
  rw [hd, Nat.add_sub_cancel_left] at h0 h24 ⊢
  match d with
  | 0 => exact .inl ⟨rfl, by simp only [pow_zero, mul_one] at *; omega⟩
  | 1 => exact .inr ⟨rfl, by simp only [pow_one] at *; omega⟩
  | d + 2 =>
    have hpow : (1 : ℤ) ≤ 2 ^ d := one_le_pow₀ (by decide)
    have hbig : (2 ^ 23 + (fracField x : ℤ)) * 4 ≤ (2 ^ 23 + (fracField x : ℤ)) * 2 ^ (d + 2) := by
      rw [pow_add]
      exact mul_le_mul_of_nonneg_left (by omega) (by omega)
    omega

/-- Settles O18: UNRES adds the delta (`unresAddsTheDelta`), and the sum is x's mantissa or twice it
(`residDelta_add`). -/
theorem unresInvertsResid : Obligations.UnresInvertsResid := by
  intro x y s t he h ht
  obtain ⟨⟨hx, hy⟩, ⟨hsign, hexp, h0⟩, h24, hres⟩ := exec_resid_eq_next h he ht
  have hf := fracField_lt x
  have hd : t.res0.toNat = (residDelta x y).toNat := by
    rw [hres, BitVec.toNat_ofNat, Nat.mod_eq_of_lt (by omega)]
  have hword : x = BitVec.ofNat 32 ((signBit y).toNat * 2 ^ 31 + expField x * 2 ^ 23 + fracField x) := by
    rw [← hsign, ← word_toNat_fields, BitVec.ofNat_toNat, BitVec.setWidth_eq]
  obtain ⟨-, -, hsum, hrenorm⟩ := unresAddsTheDelta y t.res0 t
  obtain ⟨hexp, hT⟩ | ⟨hexp, hT⟩ := residDelta_add hexp h0 h24 <;> rw [← hd] at hT
  · have hfrac : 2 ^ 23 + fracField y + t.res0.toNat - 2 ^ 23 = fracField x := by omega
    rw [hsum hy (by omega) (by omega), hfrac, ← hexp, ← hword]
  · have hfrac : (2 ^ 23 + fracField y + t.res0.toNat) / 2 - 2 ^ 23 = fracField x := by omega
    rw [hrenorm hy (by omega) (by omega) (by omega) (by omega), hfrac, ← hexp, ← hword]

end Sys2Proof.Machine
end

section
/-! Rounding to nearest, ties to even (R104, R106, R110): the nearest integer, and the nearest value with a mantissa of
24 bits. -/

namespace Sys2Proof.Machine

/-! ### The nearest integer -/

/-- `k` is the integer nearest to `x`, ties to even. -/
def NearestInt (x : ℚ) (k : ℕ) : Prop :=
  ∀ j : ℤ, |(k : ℚ) - x| ≤ |(j : ℚ) - x| ∧ (|(k : ℚ) - x| = |(j : ℚ) - x| → j = k ∨ k % 2 = 0)

/-- The distance of an integer from a ratio, as a ratio. -/
theorem abs_sub_div_eq (j : ℤ) (n : ℕ) {d : ℕ} (hd : 0 < d) :
    |(j : ℚ) - n / d| = ((j * d - n).natAbs : ℚ) / d := by
  have hd' : (0 : ℚ) < d := Nat.cast_pos.2 hd
  rw [sub_div' hd'.ne', abs_div, abs_of_pos hd', Nat.cast_natAbs]
  push_cast
  rfl

/-- The multiples of `d` other than those of `q` and `q + 1` lie at least `d` away from these two. -/
theorem mul_cases (j q d : ℤ) (hd : 0 ≤ d) :
    j * d ≤ q * d - d ∨ j = q ∨ j = q + 1 ∨ q * d + 2 * d ≤ j * d := by
  obtain h | rfl | rfl | h : j ≤ q - 1 ∨ j = q ∨ j = q + 1 ∨ q + 2 ≤ j := by omega
  · have := Int.mul_le_mul_of_nonneg_right h hd
    rw [sub_mul, one_mul] at this
    exact .inl this
  · exact .inr (.inl rfl)
  · exact .inr (.inr (.inl rfl))
  · have := Int.mul_le_mul_of_nonneg_right h hd
    rw [add_mul] at this
    exact .inr (.inr (.inr this))

/-- `round_half_even` compared with any integer, over the denominator. -/
theorem roundHalfEven_le (n : ℕ) {d : ℕ} (hd : 0 < d) (j : ℤ) :
    (roundHalfEven n d * d - n : ℤ).natAbs ≤ (j * d - n).natAbs ∧
      ((roundHalfEven n d * d - n : ℤ).natAbs = (j * d - n).natAbs →
        j = roundHalfEven n d ∨ roundHalfEven n d % 2 = 0) := by
  have hn : (n : ℤ) = (n / d : ℕ) * d + (n % d : ℕ) := by exact_mod_cast (Nat.div_add_mod' n d).symm
  have hr := Nat.mod_lt n hd
  have hj := mul_cases j (n / d : ℕ) d (by omega)
  have hsucc : ((n / d + 1 : ℕ) : ℤ) * d = (n / d : ℕ) * d + d := by push_cast; ring
  unfold roundHalfEven
  dsimp only
  split_ifs with hup
  · rw [hsucc]
    obtain hj | rfl | rfl | hj := hj
    · omega
    · omega
    · rw [← Nat.cast_succ, hsucc]; omega
    · omega
  · obtain hj | rfl | rfl | hj := hj
    · omega
    · omega
    · rw [← Nat.cast_succ, hsucc]; omega
    · omega

/-- `round_half_even` is the nearest integer. -/
theorem nearestInt_roundHalfEven (n : ℕ) {d : ℕ} (hd : 0 < d) : NearestInt (n / d) (roundHalfEven n d) := by
  intro j
  have hd' : (0 : ℚ) < d := Nat.cast_pos.2 hd
  have hk := abs_sub_div_eq (roundHalfEven n d) n hd
  rw [Int.cast_natCast] at hk
  obtain ⟨hle, htie⟩ := roundHalfEven_le n hd j
  rw [hk, abs_sub_div_eq j n hd, div_le_div_iff_of_pos_right hd', div_left_inj' hd'.ne', Nat.cast_le, Nat.cast_inj]
  exact ⟨hle, htie⟩

section nearest

variable {x u : ℚ} {k b : ℕ}

/-- Rounding does not pass an integer bound above. -/
theorem NearestInt.le_of_le (h : NearestInt x k) (hb : x ≤ b) : k ≤ b := by
  by_contra hk
  have hk : (b : ℚ) + 1 ≤ k := by exact_mod_cast Nat.lt_of_not_le hk
  have hd := (h b).1
  rw [Int.cast_natCast, abs_of_nonneg (by linarith), abs_of_nonneg (by linarith)] at hd
  linarith

/-- Rounding does not pass an integer bound below. -/
theorem NearestInt.ge_of_ge (h : NearestInt x k) (hb : (b : ℚ) ≤ x) : b ≤ k := by
  by_contra hk
  have hk : (k : ℚ) + 1 ≤ b := by exact_mod_cast Nat.lt_of_not_le hk
  have hd := (h b).1
  rw [Int.cast_natCast, abs_of_nonpos (by linarith), abs_of_nonpos (by linarith)] at hd
  linarith

/-- A value below an even integer rounds up to it from half a unit below on. -/
theorem NearestInt.eq_iff (h : NearestInt x k) (heven : b % 2 = 0) (hx : x < b) : k = b ↔ (b : ℚ) - 1 / 2 ≤ x := by
  constructor
  · rintro rfl
    have hle := (h (k - 1 : ℤ)).1
    push_cast at hle
    rw [abs_of_nonneg (by linarith : (0 : ℚ) ≤ k - x)] at hle
    by_contra hlow
    obtain ⟨habs, -⟩ | ⟨habs, -⟩ := abs_cases ((k : ℚ) - 1 - x) <;> rw [habs] at hle <;> linarith
  · intro hlow
    by_contra hk
    have hkb : k + 1 ≤ b := Nat.lt_of_le_of_ne (h.le_of_le hx.le) hk
    have hkb' : (k : ℚ) + 1 ≤ b := by exact_mod_cast hkb
    obtain ⟨hle, htie⟩ := h b
    rw [Int.cast_natCast, abs_of_nonpos (by linarith), abs_of_nonneg (by linarith)] at hle htie
    have hbk : b ≤ k + 1 := by exact_mod_cast (by linarith : (b : ℚ) ≤ k + 1)
    have := htie (by linarith)
    omega

/-- The nearest integer, scaled, is the nearest multiple of the scale. -/
theorem NearestInt.scaled (h : NearestInt (x / u) k) (hu : 0 < u) (j : ℤ) :
    |k * u - x| ≤ |j * u - x| ∧ (|k * u - x| = |j * u - x| → j = k ∨ k % 2 = 0) := by
  have hscale : ∀ c : ℚ, |c * u - x| = |c - x / u| * u := fun c => by
    rw [← abs_of_pos hu, ← abs_mul, abs_of_pos hu, sub_mul, div_mul_cancel₀ _ hu.ne']
  rw [hscale, hscale, mul_le_mul_iff_left₀ hu, mul_left_inj' hu.ne']
  exact h j

end nearest

/-! ### Values with a mantissa of 24 bits -/

theorem two_zpow_pos (e : ℤ) : (0 : ℚ) < 2 ^ e := zpow_pos two_pos e

theorem two_zpow_le {e e' : ℤ} (h : e ≤ e') : (2 : ℚ) ^ e ≤ 2 ^ e' := zpow_le_zpow_right₀ one_le_two h

theorem normalVal_eq (m : ℕ) (e : ℤ) : normalVal m e = m * 2 ^ (e - 23) := rfl

/-- A power of two below an exponent of 23 bits more. -/
theorem pow_mul_two_zpow (n : ℕ) (e : ℤ) : (2 : ℚ) ^ n * 2 ^ (e - 23) = 2 ^ (e + n - 23) := by
  rw [← zpow_natCast, ← zpow_add₀ two_ne_zero]
  congr 1
  ring

theorem normalVal_two_pow (n : ℕ) (e : ℤ) : normalVal (2 ^ n) e = 2 ^ (e + n - 23) := by
  rw [normalVal_eq, Nat.cast_pow, Nat.cast_ofNat, pow_mul_two_zpow]

theorem normalVal_lt {m : ℕ} (h : m < 2 ^ 24) (e : ℤ) : normalVal m e < 2 ^ (e + 1) := by
  have hm : (m : ℚ) < 2 ^ 24 := by exact_mod_cast h
  calc normalVal m e < 2 ^ 24 * 2 ^ (e - 23) := mul_lt_mul_of_pos_right hm (two_zpow_pos _)
    _ = 2 ^ (e + 1) := by rw [pow_mul_two_zpow]; congr 1; push_cast; ring

theorem le_normalVal {m : ℕ} (h : 2 ^ 23 ≤ m) (e : ℤ) : 2 ^ e ≤ normalVal m e := by
  have hm : (2 : ℚ) ^ 23 ≤ m := by exact_mod_cast h
  calc (2 : ℚ) ^ e = 2 ^ 23 * 2 ^ (e - 23) := by rw [pow_mul_two_zpow]; congr 1; push_cast; ring
    _ ≤ normalVal m e := mul_le_mul_of_nonneg_right hm (two_zpow_pos _).le

/-- A mantissa of 24 bits and its exponent are fixed by their value. -/
theorem normalVal_inj {m m' : ℕ} {e e' : ℤ} (h : 2 ^ 23 ≤ m ∧ m < 2 ^ 24) (h' : 2 ^ 23 ≤ m' ∧ m' < 2 ^ 24)
    (heq : normalVal m e = normalVal m' e') : m = m' ∧ e = e' := by
  have hle : ∀ {m m' : ℕ} {e e' : ℤ}, 2 ^ 23 ≤ m → m' < 2 ^ 24 → normalVal m e = normalVal m' e' → e ≤ e' := by
    intro m m' e e' hm hm' heq
    by_contra hlt
    have := two_zpow_le (by omega : e' + 1 ≤ e)
    have := le_normalVal hm e
    have := normalVal_lt hm' e'
    linarith
  obtain rfl : e = e' := le_antisymm (hle h.1 h'.2 heq) (hle h'.1 h.2 heq.symm)
  have hm := mul_right_cancel₀ (two_zpow_pos _).ne' heq
  exact ⟨by exact_mod_cast hm, rfl⟩

/-- The value of a mantissa at a greater exponent, at a smaller one. -/
theorem normalVal_of_le {m : ℕ} {e e' : ℤ} (h : e ≤ e') :
    normalVal m e' = ((m * 2 ^ (e' - e).toNat : ℤ) : ℚ) * 2 ^ (e - 23) := by
  have hsplit : e' - 23 = ((e' - e).toNat : ℤ) + (e - 23) := by omega
  rw [normalVal_eq, hsplit, zpow_add₀ two_ne_zero, zpow_natCast]
  push_cast
  ring

/-- The nearest multiple of the unit at exponent `e` is the nearest of all values with a mantissa of less than 2^24, when
those below `e` are out of the way. -/
theorem NearestInt.normalVal_le {x : ℚ} {k m' : ℕ} {e e' : ℤ} (h : NearestInt (x / 2 ^ (e - 23)) k) (hm' : m' < 2 ^ 24)
    (hfar : e ≤ e' ∨ 2 ^ e ≤ x) :
    |normalVal k e - x| ≤ |normalVal m' e' - x| ∧
      (|normalVal k e - x| = |normalVal m' e' - x| → normalVal m' e' = normalVal k e ∨ k % 2 = 0) := by
  have hu := two_zpow_pos (e - 23)
  by_cases hle : e ≤ e'
  · rw [normalVal_of_le hle]
    refine (h.scaled hu _).imp_right fun htie heq => (htie heq).imp_left fun hj => ?_
    rw [hj, normalVal_eq, Int.cast_natCast]
  · have hx : (2 : ℚ) ^ e ≤ x := hfar.resolve_left hle
    have hbelow : normalVal m' e' < 2 ^ e := (normalVal_lt hm' e').trans_le (two_zpow_le (by omega))
    have hgrid : |normalVal k e - x| ≤ |((2 ^ 23 : ℕ) : ℤ) * 2 ^ (e - 23) - x| := (h.scaled hu (2 ^ 23 : ℕ)).1
    rw [Int.cast_natCast, ← normalVal_eq, normalVal_two_pow, Nat.cast_ofNat, add_sub_cancel_right,
      abs_of_nonpos (by linarith : (2 : ℚ) ^ e - x ≤ 0)] at hgrid
    rw [abs_of_nonpos (by linarith : normalVal m' e' - x ≤ 0)]
    exact ⟨by linarith, fun heq => by linarith⟩

/-- R104's and R106's renormalization of a mantissa that rounded up to 2^24. -/
def renormalize (k : ℕ) (e : ℤ) : ℕ × ℤ := if k = 2 ^ 24 then (2 ^ 23, e + 1) else (k, e)

theorem normalVal_renormalize (k : ℕ) (e : ℤ) :
    normalVal (renormalize k e).1 (renormalize k e).2 = normalVal k e := by
  unfold renormalize
  split_ifs with hk
  · rw [hk, normalVal_two_pow, normalVal_two_pow]
    congr 1
    push_cast
    ring
  · rfl

theorem renormalize_even {k : ℕ} (e : ℤ) (h : k % 2 = 0) : (renormalize k e).1 % 2 = 0 := by
  unfold renormalize
  split_ifs
  · exact (by decide : 2 ^ 23 % 2 = 0)
  · exact h

section rounded

variable {x : ℚ} {k : ℕ} {e : ℤ}

theorem div_lt_of_lt (hx : x < 2 ^ (e + 1)) : x / 2 ^ (e - 23) < (2 ^ 24 : ℕ) := by
  have hpow : normalVal (2 ^ 24) e = 2 ^ (e + 1) := (normalVal_two_pow 24 e).trans (by congr 1; push_cast; ring)
  rw [div_lt_iff₀ (two_zpow_pos _), ← normalVal_eq, hpow]
  exact hx

theorem le_div_of_le (hx : 2 ^ e ≤ x) : ((2 ^ 23 : ℕ) : ℚ) ≤ x / 2 ^ (e - 23) := by
  rw [le_div_iff₀ (two_zpow_pos _), ← normalVal_eq, normalVal_two_pow, Nat.cast_ofNat, add_sub_cancel_right]
  exact hx

variable (h : NearestInt (x / 2 ^ (e - 23)) k)
include h

/-- The renormalized mantissa has at most 24 bits. -/
theorem NearestInt.renormalize_lt (hx : x < 2 ^ (e + 1)) : (renormalize k e).1 < 2 ^ 24 := by
  have hk := h.le_of_le (div_lt_of_lt hx).le
  unfold renormalize
  split_ifs
  · exact (by decide : 2 ^ 23 < 2 ^ 24)
  · dsimp only; omega

/-- The rounded exponent is at most `E` for the values below the midpoint after the greatest value with that exponent. -/
theorem NearestInt.renormalize_exp_le_iff {E : ℤ} (hx : x < 2 ^ (e + 1)) (hlo : E < e → 2 ^ e ≤ x) :
    (renormalize k e).2 ≤ E ↔ x < 2 ^ (E + 1) - 2 ^ (E - 24) := by
  have hexp : (renormalize k e).2 = if k = 2 ^ 24 then e + 1 else e := apply_ite Prod.snd ..
  have hdouble : (2 : ℚ) ^ (E + 1) = 2 * 2 ^ E := by rw [zpow_add_one₀ two_ne_zero, mul_comm]
  have hsmall : (2 : ℚ) ^ (E - 24) ≤ 2 ^ (E - 1) := two_zpow_le (by omega)
  have hhalf : (2 : ℚ) ^ E = 2 * 2 ^ (E - 1) := by
    rw [← zpow_one_add₀ two_ne_zero, add_sub_cancel]
  have hpos := two_zpow_pos (E - 1)
  rw [hexp]
  obtain hlt | rfl | hgt := lt_trichotomy e E
  · have := two_zpow_le (by omega : e + 1 ≤ E)
    refine iff_of_true ?_ (by linarith)
    split_ifs <;> omega
  · have hmid := h.eq_iff (b := 2 ^ 24) (by decide) (div_lt_of_lt hx)
    have hiff : (if k = 2 ^ 24 then e + 1 else e) ≤ e ↔ ¬ k = 2 ^ 24 := by split_ifs <;> omega
    have htop : e + ((24 : ℕ) : ℤ) - 23 = e + 1 := by push_cast; ring
    have hunit : (2 : ℚ) ^ (e - 23) = 2 * 2 ^ (e - 24) := by
      rw [← zpow_one_add₀ two_ne_zero]
      congr 1
      ring
    rw [hiff, hmid, not_le, div_lt_iff₀ (two_zpow_pos _), sub_mul, ← normalVal_eq, normalVal_two_pow, htop, hunit,
      one_div, inv_mul_cancel_left₀ two_ne_zero]
  · have hle := hlo hgt
    have := two_zpow_le (by omega : E + 1 ≤ e)
    have := two_zpow_pos (E - 24)
    refine iff_of_false ?_ (by linarith)
    split_ifs <;> omega

/-- A value rounded on the grid of its own exponent, and renormalized, is rounded to nearest, ties to even. -/
theorem NearestInt.nearestEven (hlo : 2 ^ e ≤ x) (hx : x < 2 ^ (e + 1)) :
    NearestEven x (renormalize k e).1 (renormalize k e).2 := by
  have hk := h.ge_of_ge (le_div_of_le hlo)
  have hlt := h.renormalize_lt hx
  have hge : 2 ^ 23 ≤ (renormalize k e).1 := by
    unfold renormalize
    split_ifs
    · exact le_rfl
    · exact hk
  refine ⟨⟨hge, hlt⟩, fun m' e' hm hm' => ?_⟩
  rw [normalVal_renormalize]
  refine (h.normalVal_le hm' (.inr hlo)).imp_right fun htie heq => ?_
  refine (htie heq).imp (fun hval => ?_) (renormalize_even e)
  exact normalVal_inj ⟨hm, hm'⟩ ⟨hge, hlt⟩ (hval.trans (normalVal_renormalize k e).symm)

end rounded

end Sys2Proof.Machine
end

section
/-! FMUL and RECON on normal words (R104, R105, R110, R131): the product rounded to nearest, and exact by a power of two. -/

namespace Sys2Proof.Machine

/-! ### Values of words and triples -/

theorem absVal_eq (x : Word) : absVal x = normalVal (magnitude x) ((scaleExp x : ℤ) - 127) := by
  rw [absVal, normalVal_eq, sub_sub]
  rfl

theorem magnitude_lt (x : Word) : magnitude x < 2 ^ 24 := by
  have hf := fracField_lt x
  unfold magnitude
  split_ifs <;> omega

/-- A triple of a normal exponent and a mantissa of 24 bits. -/
def Triple.Normal (t : Triple) : Prop := (-126 ≤ t.exp ∧ t.exp ≤ 127) ∧ 2 ^ 23 ≤ t.mant ∧ t.mant < 2 ^ 24

section normal

variable {t a b : Triple} {x : Word}

theorem normal_decompose (h : 1 ≤ expField x ∧ expField x ≤ 254) : (decompose x).Normal := by
  have hf := fracField_lt x
  rw [decompose_normal h.1 h.2]
  exact ⟨⟨by dsimp only; omega, by dsimp only; omega⟩, by dsimp only; omega, by dsimp only; omega⟩

theorem absVal_of_normal (h : 1 ≤ expField x ∧ expField x ≤ 254) :
    absVal x = normalVal (decompose x).mant (decompose x).exp := by
  have h0 : expField x ≠ 0 := by omega
  rw [absVal_eq, decompose_normal h.1 h.2, magnitude, if_neg h0, scaleExp, if_neg h0]

variable (ht : t.Normal)
include ht

theorem recompose_fields :
    signBit (recompose t) = t.sign ∧ expField (recompose t) = (t.exp + 127).toNat ∧
      fracField (recompose t) = t.mant - 2 ^ 23 := by
  obtain ⟨⟨h1, h2⟩, h3, h4⟩ := ht
  rw [recompose_normal h1 h2]
  exact ⟨signBit_packWord .., expField_packWord (by omega) .., (fracField_packWord ..).trans (by omega)⟩

theorem recompose_of_normal :
    recompose t = BitVec.ofNat 32 (t.sign.toNat * 2 ^ 31 + (t.exp + 127).toNat * 2 ^ 23 + (t.mant - 2 ^ 23)) := by
  obtain ⟨⟨h1, h2⟩, h3, h4⟩ := ht
  have hfrac : t.mant % 2 ^ 23 = t.mant - 2 ^ 23 := by omega
  rw [recompose_normal h1 h2, packWord_eq_ofNat _ (by omega), hfrac]

/-- The word of a normal triple decomposes to it (R101). -/
theorem decompose_recompose : decompose (recompose t) = t := by
  obtain ⟨hsign, hexp, hfrac⟩ := recompose_fields ht
  obtain ⟨⟨h1, h2⟩, h3, h4⟩ := ht
  have hexp' : (((t.exp + 127).toNat : ℕ) : ℤ) - 127 = t.exp := by omega
  have hmant : 2 ^ 23 + (t.mant - 2 ^ 23) = t.mant := by omega
  rw [decompose_normal (by omega) (by omega), hsign, hexp, hfrac, hexp', hmant]

theorem absVal_recompose : absVal (recompose t) = normalVal t.mant t.exp := by
  obtain ⟨-, hexp, -⟩ := recompose_fields ht
  have hn : 1 ≤ expField (recompose t) ∧ expField (recompose t) ≤ 254 := by
    obtain ⟨⟨h1, h2⟩, -⟩ := ht
    omega
  rw [absVal_of_normal hn, decompose_recompose ht]

theorem multipliable_of_normal : t.Multipliable := by
  obtain ⟨⟨h1, h2⟩, -⟩ := ht
  exact ⟨decide_eq_false (by omega), decide_eq_false (by omega)⟩

theorem not_isZero_of_normal : ¬ t.isZero = true := by
  obtain ⟨⟨h1, h2⟩, -⟩ := ht
  rw [Triple.isZero, decide_eq_true_iff]
  omega

end normal

/-! ### The product of two normal triples (R104) -/

theorem multiply_of_normal {a b : Triple} (ha : a.Normal) (hb : b.Normal) : multiply a b = multiplyNormal a b := by
  rw [multiply_of_multipliable (multipliable_of_normal ha) (multipliable_of_normal hb),
    if_neg (not_or.2 ⟨not_isZero_of_normal ha, not_isZero_of_normal hb⟩)]

/-- The exponent of the exact product. -/
def productExp (a b : Triple) : ℤ := a.exp + b.exp + (bitlen (a.mant * b.mant) - 47)

/-- The 24-bit mantissa of the product, or 2^24. -/
def productMant (a b : Triple) : ℕ := roundHalfEven (a.mant * b.mant) (2 ^ (bitlen (a.mant * b.mant) - 24))

/-- The mantissa and exponent of the rounded product. -/
def roundedProduct (a b : Triple) : ℕ × ℤ := renormalize (productMant a b) (productExp a b)

theorem multiplyNormal_eq (a b : Triple) :
    multiplyNormal a b =
      if (roundedProduct a b).2 < -126 ∨ 127 < (roundedProduct a b).2 then none
      else some { sign := a.sign ^^ b.sign, exp := (roundedProduct a b).2, mant := (roundedProduct a b).1 } := rfl

/-- The exact product of the values of two triples. -/
def tripleProduct (a b : Triple) : ℚ := normalVal a.mant a.exp * normalVal b.mant b.exp

theorem tripleProduct_eq (a b : Triple) :
    tripleProduct a b = ((a.mant * b.mant : ℕ) : ℚ) * 2 ^ (a.exp + b.exp - 46) := by
  have hexp : a.exp + b.exp - 46 = (a.exp - 23) + (b.exp - 23) := by ring
  rw [tripleProduct, normalVal_eq, normalVal_eq, hexp, zpow_add₀ two_ne_zero]
  push_cast
  ring

/-- The exact product lies between its exponent's power of two and the next, and `productMant` is the nearest to it on the
grid of that exponent. -/
theorem productMant_spec {a b : Triple} (ha : a.Normal) (hb : b.Normal) :
    NearestInt (tripleProduct a b / 2 ^ (productExp a b - 23)) (productMant a b) ∧
      2 ^ productExp a b ≤ tripleProduct a b ∧ tripleProduct a b < 2 ^ (productExp a b + 1) := by
  obtain ⟨-, ha, -⟩ := ha
  obtain ⟨-, hb, -⟩ := hb
  have hp : 2 ^ 46 ≤ a.mant * b.mant := by
    calc 2 ^ 46 = 2 ^ 23 * 2 ^ 23 := by norm_num
      _ ≤ a.mant * b.mant := Nat.mul_le_mul ha hb
  obtain ⟨hlo, hhi⟩ := bitlen_spec (v := a.mant * b.mant) (by omega)
  have hlen : 47 ≤ bitlen (a.mant * b.mant) := by
    have := (Nat.pow_lt_pow_iff_right (a := 2) (by decide)).1 (lt_of_le_of_lt hp hhi)
    omega
  rw [tripleProduct_eq, productMant, productExp]
  generalize a.mant * b.mant = p at *
  obtain ⟨n, hn⟩ := Nat.exists_eq_add_of_le hlen
  have hcut : bitlen p - 24 = n + 23 := by omega
  have hexp : a.exp + b.exp + ((bitlen p : ℤ) - 47) = a.exp + b.exp + n := by omega
  have hscale : ∀ k : ℕ, (2 : ℚ) ^ k * 2 ^ (a.exp + b.exp - 46) = 2 ^ (a.exp + b.exp + k - 46) := fun k => by
    rw [← zpow_natCast, ← zpow_add₀ two_ne_zero]
    congr 1
    ring
  have hunit : (2 : ℚ) ^ (a.exp + b.exp + n - 23) = 2 ^ (n + 23) * 2 ^ (a.exp + b.exp - 46) := by
    rw [hscale]
    congr 1
    push_cast
    ring
  have hpos := two_zpow_pos (a.exp + b.exp - 46)
  rw [hcut, hexp, hunit, mul_div_mul_right _ _ hpos.ne']
  refine ⟨?nearest, ?low, ?high⟩
  case nearest =>
    have := nearestInt_roundHalfEven p (Nat.two_pow_pos (n + 23))
    rwa [Nat.cast_pow, Nat.cast_ofNat] at this
  case low =>
    have hlo : (2 : ℚ) ^ (n + 46) ≤ p := by
      rw [hn] at hlo
      exact_mod_cast (by convert hlo using 2; omega : 2 ^ (n + 46) ≤ p)
    refine le_trans (le_of_eq ?_) (mul_le_mul_of_nonneg_right hlo hpos.le)
    rw [hscale]
    congr 1
    push_cast
    ring
  case high =>
    have hhi : (p : ℚ) < 2 ^ (n + 47) := by
      rw [hn] at hhi
      exact_mod_cast (by convert hhi using 2; omega : p < 2 ^ (n + 47))
    refine lt_of_lt_of_eq (mul_lt_mul_of_pos_right hhi hpos) ?_
    rw [hscale]
    congr 1
    push_cast
    ring

/-- Settles O10: the product is rounded to nearest on its own grid (`productMant_spec`, `NearestInt.nearestEven`), and the two
bounds are where the rounded exponent leaves -126..127 (`NearestInt.renormalize_exp_le_iff`). -/
theorem fmulRoundsToNearestEven : Obligations.FmulRoundsToNearestEven := by
  intro a b s ha ha' hb hb'
  have hna := normal_decompose ⟨ha, ha'⟩
  have hnb := normal_decompose ⟨hb, hb'⟩
  have hx : absVal a * absVal b = tripleProduct (decompose a) (decompose b) := by
    rw [absVal_of_normal ⟨ha, ha'⟩, absVal_of_normal ⟨hb, hb'⟩, tripleProduct]
  obtain ⟨hnear, hlo, hhi⟩ := productMant_spec hna hnb
  have hmul := (multiply_of_normal hna hnb).trans (multiplyNormal_eq _ _)
  have hsmall : (roundedProduct (decompose a) (decompose b)).2 ≤ -127 ↔
      absVal a * absVal b < 2 ^ (-126 : ℤ) - 2 ^ (-151 : ℤ) :=
    hx ▸ hnear.renormalize_exp_le_iff (E := -127) hhi fun _ => hlo
  have hlarge : (roundedProduct (decompose a) (decompose b)).2 ≤ 127 ↔
      absVal a * absVal b < 2 ^ (128 : ℤ) - 2 ^ (103 : ℤ) :=
    hx ▸ hnear.renormalize_exp_le_iff (E := 127) hhi fun _ => hlo
  refine ⟨fun hlow hhigh => ?inRange, fun hout => exec_fmul_of_none s ?domain⟩
  case inRange =>
    have h1 : -126 ≤ (roundedProduct (decompose a) (decompose b)).2 := by
      have := mt hsmall.1 (not_lt.2 hlow)
      omega
    have h2 := hlarge.2 hhigh
    have heven := hnear.nearestEven hlo hhi
    have hnormal : Triple.Normal { sign := signBit a ^^ signBit b, exp := (roundedProduct (decompose a) (decompose b)).2,
                                   mant := (roundedProduct (decompose a) (decompose b)).1 } := ⟨⟨h1, h2⟩, heven.1⟩
    rw [if_neg (by omega), decompose_sign, decompose_sign] at hmul
    refine ⟨_, _, hx ▸ heven, h1, h2, ?_⟩
    rw [exec_fmul_of_some s hmul, recompose_of_normal hnormal]
    rfl
  case domain =>
    rw [hmul, if_pos]
    exact hout.imp (fun h => by have := hsmall.2 h; omega) fun h => by have := mt hlarge.1 (not_lt.2 h); omega

/-! ### Products with a power of two, and RECON (R131) -/

/-- Rounding a multiple is exact. -/
theorem roundHalfEven_mul (m : ℕ) {d : ℕ} (hd : 0 < d) : roundHalfEven (m * d) d = m := by
  have hup : ¬ (d < 2 * 0 ∨ (2 * 0 = d ∧ m % 2 = 1)) := by omega
  rw [roundHalfEven, Nat.mul_div_cancel m hd, Nat.mul_mod_left, if_neg hup]

/-- The product with a power of two is exact: the exponents add up. -/
theorem multiply_two_pow {a b : Triple} (ha : a.Normal) (hb : b.Normal) (hmant : b.mant = 2 ^ 23)
    (hexp : -126 ≤ a.exp + b.exp ∧ a.exp + b.exp ≤ 127) :
    multiply a b = some { sign := a.sign ^^ b.sign, exp := a.exp + b.exp, mant := a.mant } := by
  obtain ⟨hlo, hhi⟩ := ha.2
  have hlen : bitlen (a.mant * 2 ^ 23) = 47 := bitlen_unique (by decide) (by omega) (by omega)
  have hround : roundedProduct a b = (a.mant, a.exp + b.exp) := by
    have hk : a.mant ≠ 2 ^ 24 := by omega
    have he : a.exp + b.exp + (((47 : ℕ) : ℤ) - 47) = a.exp + b.exp := by omega
    rw [roundedProduct, productMant, productExp, hmant, hlen, roundHalfEven_mul _ (by decide), he, renormalize, if_neg hk]
  rw [multiply_of_normal ha hb, multiplyNormal_eq, hround, if_neg (by dsimp only; omega)]

section recon

variable {e : ℤ} (he : -126 ≤ e ∧ e ≤ 127)
include he

/-- The triple of a power of two in the normal range. -/
theorem normal_two_pow : Triple.Normal { sign := false, exp := e, mant := 2 ^ 23 } :=
  ⟨he, le_rfl, (by decide : 2 ^ 23 < 2 ^ 24)⟩

theorem decompose_powerOfTwo : decompose (powerOfTwo e) = { sign := false, exp := e, mant := 2 ^ 23 } := by
  have hword : powerOfTwo e = recompose { sign := false, exp := e, mant := 2 ^ 23 } := by
    have hfrac : BitVec.ofNat 23 0 = BitVec.ofNat 23 (2 ^ 23) := by decide
    rw [powerOfTwo, if_pos he, recompose_normal he.1 he.2, packWord, packWord, hfrac]
  rw [hword, decompose_recompose (normal_two_pow he)]

/-- The reconstruction of 0 is the zero with the multiplier's sign. -/
theorem reconstruct_zero {a : Word} (ha : 1 ≤ expField a ∧ expField a ≤ 254) :
    reconstruct 0 e a = some (BitVec.ofNat 32 ((signBit a).toNat * 2 ^ 31)) := by
  have hzero : ∀ {b : Triple} (_ : b.Normal),
      multiply { sign := false, exp := -127, mant := 0 } b = some { sign := b.sign, exp := -127, mant := 0 } := by
    intro b hb
    rw [multiply_of_multipliable ⟨rfl, rfl⟩ (multipliable_of_normal hb), if_pos (.inl rfl), Bool.false_xor]
  have hint : decompose (intToBinary32 0) = { sign := false, exp := -127, mant := 0 } := rfl
  rw [reconstruct_of_some (by rw [hint, decompose_powerOfTwo he, hzero (normal_two_pow he)])
    (hzero (normal_decompose ha)), recompose_zero, decompose_sign]

end recon

/-- The triple of an integer other than 0 (R130). -/
def intTriple (q : ℤ) : Triple :=
  { sign := q < 0, exp := (bitlen q.natAbs : ℤ) - 1, mant := q.natAbs * 2 ^ (24 - bitlen q.natAbs) }

section int

variable {q : ℤ} (h0 : q ≠ 0) (hq : q.natAbs ≤ 2 ^ 23)
include h0 hq

theorem bitlen_natAbs : 1 ≤ bitlen q.natAbs ∧ bitlen q.natAbs ≤ 24 := by
  have hn : q.natAbs ≠ 0 := Int.natAbs_ne_zero.2 h0
  obtain ⟨hlo, -⟩ := bitlen_spec hn
  have hle := (Nat.pow_le_pow_iff_right (a := 2) (by decide)).1 (hlo.trans hq)
  have hpos := bitlen_pos hn
  omega

theorem normal_intTriple : (intTriple q).Normal := by
  obtain ⟨h1, h24⟩ := bitlen_natAbs h0 hq
  obtain ⟨hlo, hhi⟩ := bitlen_spec (Int.natAbs_ne_zero.2 h0)
  refine ⟨⟨by simp only [intTriple]; omega, by simp only [intTriple]; omega⟩, ?_, ?_⟩
  · calc 2 ^ 23 = 2 ^ (bitlen q.natAbs - 1) * 2 ^ (24 - bitlen q.natAbs) := by rw [← pow_add]; congr 1; omega
      _ ≤ q.natAbs * 2 ^ (24 - bitlen q.natAbs) := Nat.mul_le_mul_right _ hlo
  · calc q.natAbs * 2 ^ (24 - bitlen q.natAbs)
        < 2 ^ bitlen q.natAbs * 2 ^ (24 - bitlen q.natAbs) := Nat.mul_lt_mul_of_pos_right hhi (Nat.two_pow_pos _)
      _ = 2 ^ 24 := by rw [← pow_add]; congr 1; omega

theorem decompose_intToBinary32 : decompose (intToBinary32 q) = intTriple q := by
  rw [← decompose_recompose (normal_intTriple h0 hq), intToBinary32, if_neg h0]
  rfl

/-- The value of the triple of an integer, with its exponent raised by `e`. -/
theorem normalVal_intTriple (e : ℤ) :
    normalVal (intTriple q).mant ((intTriple q).exp + e) = q.natAbs * 2 ^ e := by
  obtain ⟨h1, h24⟩ := bitlen_natAbs h0 hq
  have hexp : (bitlen q.natAbs : ℤ) - 1 + e - 23 = e - (24 - bitlen q.natAbs : ℕ) := by omega
  rw [normalVal_eq, intTriple, hexp, zpow_sub₀ two_ne_zero, zpow_natCast]
  push_cast
  field_simp

/-- The triple of an integer times 2^e. -/
def scaledTriple (q e : ℤ) : Triple := { intTriple q with exp := (intTriple q).exp + e }

theorem normal_scaledTriple {e : ℤ} (he : -126 ≤ e ∧ e ≤ 103) : (scaledTriple q e).Normal := by
  obtain ⟨h1, h24⟩ := bitlen_natAbs h0 hq
  exact ⟨⟨by simp only [scaledTriple, intTriple]; omega, by simp only [scaledTriple, intTriple]; omega⟩,
    (normal_intTriple h0 hq).2⟩

theorem wordVal_scaledTriple {e : ℤ} (he : -126 ≤ e ∧ e ≤ 103) :
    wordVal (recompose (scaledTriple q e)) = q * 2 ^ e := by
  have hn := normal_scaledTriple h0 hq he
  have habs : absVal (recompose (scaledTriple q e)) = |(q : ℚ)| * 2 ^ e := by
    rw [absVal_recompose hn, ← Int.cast_abs, ← Nat.cast_natAbs]
    exact normalVal_intTriple h0 hq e
  have hsign : signBit (recompose (scaledTriple q e)) = decide (q < 0) := (recompose_fields hn).1
  rw [wordVal, habs, hsign]
  by_cases hneg : q < 0
  · rw [if_pos (decide_eq_true hneg), abs_of_neg (by exact_mod_cast hneg), neg_mul, neg_neg]
  · rw [if_neg (by simpa using hneg), abs_of_nonneg (by exact_mod_cast not_lt.1 hneg)]

/-- The reconstruction with the multiplier 1.0 is the integer scaled. -/
theorem reconstruct_one {e : ℤ} (he : -126 ≤ e ∧ e ≤ 103) :
    reconstruct q e 0x3F800000#32 = some (recompose (scaledTriple q e)) := by
  have hscaled := normal_scaledTriple h0 hq he
  have hone : decompose 0x3F800000#32 = { sign := false, exp := 0, mant := 2 ^ 23 } := by decide
  have he' : -126 ≤ e ∧ e ≤ 127 := by omega
  refine reconstruct_of_some (t := scaledTriple q e) ?_ ?_
  · rw [decompose_intToBinary32 h0 hq, decompose_powerOfTwo he',
      multiply_two_pow (normal_intTriple h0 hq) (normal_two_pow he') rfl hscaled.1, Bool.xor_false]
    rfl
  · rw [hone, multiply_two_pow hscaled (normal_two_pow (by decide)) rfl (by rw [add_zero]; exact hscaled.1),
      Bool.xor_false, add_zero]

end int

theorem wordVal_zero : wordVal 0#32 = 0 := by
  have hsign : signBit 0#32 = false := by decide
  have hmag : magnitude 0#32 = 0 := by decide
  rw [wordVal, hsign, absVal, hmag, Nat.cast_zero, zero_mul]
  rfl

/-- Settles O15: the two products are exact (`reconstruct_one`, `reconstruct_zero`). -/
theorem reconIsExactForUnitMultiplier : Obligations.ReconIsExactForUnitMultiplier := by
  intro q sh a s hlo hhi hsh hq hq'
  have hpow : (2 : ℤ) ^ (s.intres.toNat - 1) ≤ 2 ^ 23 := pow_le_pow_right₀ (by decide) (by omega)
  have he : -126 ≤ (sh.toNat : ℤ) + 1 - s.intres.toNat ∧ (sh.toNat : ℤ) + 1 - s.intres.toNat ≤ 103 := by omega
  refine ⟨fun ha => ?unit, fun h0 ha ha' => ?zero⟩
  case zero =>
    have hzero := reconstruct_zero (e := (sh.toNat : ℤ) + 1 - s.intres.toNat) (by omega) ⟨ha, ha'⟩
    subst h0
    exact exec_recon_of_reconstruct hlo hhi (by omega) ⟨hq, hq'⟩ ((isNormalWord_iff a).2 ⟨ha, ha'⟩) hzero
  case unit =>
    subst ha
    have hnormal : isNormalWord 0x3F800000#32 = true := by decide
    by_cases h0 : q.toInt = 0
    · have hzero := reconstruct_zero (e := (sh.toNat : ℤ) + 1 - s.intres.toNat) (by omega) (a := 0x3F800000#32)
        (by decide)
      rw [← h0] at hzero
      refine ⟨_, exec_recon_of_reconstruct hlo hhi (by omega) ⟨hq, hq'⟩ hnormal hzero, by decide, ?_⟩
      have hword : BitVec.ofNat 32 ((signBit 0x3F800000#32).toNat * 2 ^ 31) = 0#32 := by decide
      rw [hword, wordVal_zero, h0, Int.cast_zero, zero_mul]
    · have hq : q.toInt.natAbs ≤ 2 ^ 23 := by omega
      refine ⟨_, exec_recon_of_reconstruct hlo hhi (by omega) ⟨by omega, hq'⟩ hnormal (reconstruct_one h0 hq he), ?_,
        wordVal_scaledTriple h0 hq he⟩
      obtain ⟨-, hexp, -⟩ := recompose_fields (normal_scaledTriple h0 hq he)
      have := (normal_scaledTriple h0 hq he).1
      omega

end Sys2Proof.Machine
end

section
/-! FDIV (R106, R107): the exact quotient on the grid of its exponent, subnormals included, rounded to nearest. -/

namespace Sys2Proof.Machine

/-! ### The exponent of a ratio -/

/-- A power of two as a ratio of natural ones. -/
theorem two_zpow_eq_div (t : ℤ) : (2 : ℚ) ^ t = 2 ^ t.toNat / 2 ^ (-t).toNat := by
  have ht : t = t.toNat - (-t).toNat := by omega
  conv_lhs => rw [ht, zpow_sub₀ two_ne_zero, zpow_natCast, zpow_natCast]

section ratio

variable {n d : ℕ} (hn : n ≠ 0) (hd : d ≠ 0)
include hn hd

/-- A ratio lies within a factor of two of the power that the bit lengths give. -/
theorem ratio_bounds :
    (2 : ℚ) ^ ((bitlen n : ℤ) - bitlen d - 1) ≤ n / d ∧ (n / d : ℚ) < 2 ^ ((bitlen n : ℤ) - bitlen d + 1) := by
  obtain ⟨hn1, hn2⟩ := bitlen_spec hn
  obtain ⟨hd1, hd2⟩ := bitlen_spec hd
  have hnl := bitlen_pos hn
  have hdl := bitlen_pos hd
  have hd' : (0 : ℚ) < d := by exact_mod_cast Nat.pos_of_ne_zero hd
  have hn1' : (2 : ℚ) ^ (bitlen n - 1) ≤ n := by exact_mod_cast hn1
  have hn2' : (n : ℚ) < 2 ^ bitlen n := by exact_mod_cast hn2
  have hd1' : (2 : ℚ) ^ (bitlen d - 1) ≤ d := by exact_mod_cast hd1
  have hd2' : (d : ℚ) < 2 ^ bitlen d := by exact_mod_cast hd2
  have hlow : (bitlen n : ℤ) - bitlen d - 1 = (bitlen n - 1 : ℕ) - bitlen d := by omega
  have hhigh : (bitlen n : ℤ) - bitlen d + 1 = bitlen n - (bitlen d - 1 : ℕ) := by omega
  rw [hlow, hhigh, zpow_sub₀ two_ne_zero, zpow_sub₀ two_ne_zero, zpow_natCast, zpow_natCast, zpow_natCast, zpow_natCast]
  exact ⟨div_le_div₀ (by positivity) hn1' hd' hd2'.le, div_lt_div₀ hn2' hd1' (by positivity) (by positivity)⟩

/-- `floorLog2` is the exponent of the ratio (R106). -/
theorem floorLog2_spec : (2 : ℚ) ^ floorLog2 n d ≤ n / d ∧ (n / d : ℚ) < 2 ^ (floorLog2 n d + 1) := by
  obtain ⟨hlow, hhigh⟩ := ratio_bounds hn hd
  have hd' : (0 : ℚ) < d := by exact_mod_cast Nat.pos_of_ne_zero hd
  have hcompare : ∀ t : ℤ, d * 2 ^ t.toNat ≤ n * 2 ^ (-t).toNat ↔ (2 : ℚ) ^ t ≤ n / d := fun t => by
    rw [two_zpow_eq_div, div_le_div_iff₀ (by positivity) hd', mul_comm (2 ^ t.toNat : ℚ)]
    exact_mod_cast Iff.rfl
  unfold floorLog2
  dsimp only
  split_ifs with h
  · exact ⟨(hcompare _).1 h, hhigh⟩
  · refine ⟨hlow, ?_⟩
    rw [sub_add_cancel]
    exact not_le.1 (mt (hcompare _).2 h)

end ratio

/-! ### The rounded quotient -/

theorem absVal_packWord_subnormal {sg : Bool} {k : ℕ} (h : k < 2 ^ 23) : absVal (packWord sg 0 k) = normalVal k (-126) := by
  have hexp : expField (packWord sg 0 k) = 0 := expField_packWord (by decide) ..
  rw [absVal_eq, magnitude, if_pos hexp, scaleExp, if_pos hexp, fracField_packWord, Nat.mod_eq_of_lt h]
  rfl

theorem le_renormalize_exp (k : ℕ) (e : ℤ) : e ≤ (renormalize k e).2 := by
  unfold renormalize
  split_ifs
  · exact Int.le_of_lt (Int.lt_succ e)
  · exact le_rfl

/-- The exponent of R106, not below that of the subnormals. -/
def quotientExp (n d : ℕ) : ℤ := max (floorLog2 n d) (-126)

/-- The mantissa of R106 at that exponent. -/
def quotientMant (n d : ℕ) : ℕ :=
  roundHalfEven (n * 2 ^ (23 - quotientExp n d).toNat) (d * 2 ^ (quotientExp n d - 23).toNat)

theorem divideRatio_eq {n : ℕ} (hn : n ≠ 0) (sg : Bool) (d : ℕ) :
    divideRatio sg n d =
      if 127 < (renormalize (quotientMant n d) (quotientExp n d)).2 then packWord sg 255 0
      else if (renormalize (quotientMant n d) (quotientExp n d)).1 < 2 ^ 23 then
        packWord sg 0 (renormalize (quotientMant n d) (quotientExp n d)).1
      else packWord sg ((renormalize (quotientMant n d) (quotientExp n d)).2 + 127).toNat
        (renormalize (quotientMant n d) (quotientExp n d)).1 := if_neg hn

section quotient

variable {n d : ℕ} (hn : n ≠ 0) (hd : d ≠ 0)

include hd in
theorem nearestInt_quotientMant :
    NearestInt ((n / d : ℚ) / 2 ^ (quotientExp n d - 23)) (quotientMant n d) := by
  have hpos : 0 < d * 2 ^ (quotientExp n d - 23).toNat := Nat.mul_pos (Nat.pos_of_ne_zero hd) (Nat.two_pow_pos _)
  have hratio : ((n * 2 ^ (23 - quotientExp n d).toNat : ℕ) : ℚ) / (d * 2 ^ (quotientExp n d - 23).toNat : ℕ) =
      (n / d : ℚ) / 2 ^ (quotientExp n d - 23) := by
    rw [two_zpow_eq_div, neg_sub]
    push_cast
    field_simp
  exact hratio ▸ nearestInt_roundHalfEven (n * 2 ^ (23 - quotientExp n d).toNat) hpos

include hn hd

theorem quotient_lt : (n / d : ℚ) < 2 ^ (quotientExp n d + 1) :=
  (floorLog2_spec hn hd).2.trans_le (two_zpow_le (Int.add_le_add_right (le_max_left _ _) 1))

theorem le_quotient (h : quotientExp n d ≠ -126) : (2 : ℚ) ^ quotientExp n d ≤ n / d := by
  have hexp : quotientExp n d = floorLog2 n d := by
    simp only [quotientExp] at h ⊢
    omega
  rw [hexp]
  exact (floorLog2_spec hn hd).1

/-- A subnormal result is at the least exponent. -/
theorem quotientExp_of_subnormal (h : quotientMant n d < 2 ^ 23) : quotientExp n d = -126 := by
  by_contra hne
  exact absurd ((nearestInt_quotientMant hd).ge_of_ge (le_div_of_le (le_quotient hn hd hne))) (Nat.not_le.2 h)

/-- The quotient's word while its rounded exponent is that of a finite word: its value is the rounded one. -/
theorem divideRatio_finite (sg : Bool) (h : (renormalize (quotientMant n d) (quotientExp n d)).2 ≤ 127) :
    expField (divideRatio sg n d) ≠ 255 ∧
      absVal (divideRatio sg n d) = normalVal (quotientMant n d) (quotientExp n d) ∧
      (quotientMant n d % 2 = 0 → fracField (divideRatio sg n d) % 2 = 0) := by
  have hlt := (nearestInt_quotientMant hd).renormalize_lt (quotient_lt hn hd)
  have hexp : -126 ≤ quotientExp n d := le_max_right _ _
  rw [divideRatio_eq hn, if_neg (not_lt.2 h)]
  split_ifs with hsub
  case pos =>
    have hk : quotientMant n d ≠ 2 ^ 24 := fun hk => by
      rw [renormalize, if_pos hk] at hsub
      exact lt_irrefl _ hsub
    rw [renormalize, if_neg hk] at hsub ⊢
    have hfrac := (fracField_packWord sg 0 (quotientMant n d)).trans (Nat.mod_eq_of_lt hsub)
    refine ⟨?_, ?_, fun heven => hfrac.symm ▸ heven⟩
    · rw [expField_packWord (by decide)]
      decide
    · rw [absVal_packWord_subnormal hsub, quotientExp_of_subnormal hn hd hsub]
  case neg =>
    have hnormal : Triple.Normal { sign := sg, exp := (renormalize (quotientMant n d) (quotientExp n d)).2,
                                   mant := (renormalize (quotientMant n d) (quotientExp n d)).1 } :=
      ⟨⟨hexp.trans (le_renormalize_exp _ _), h⟩, Nat.not_lt.1 hsub, hlt⟩
    obtain ⟨-, hexp', hfrac⟩ := recompose_fields hnormal
    dsimp only at hexp' hfrac
    rw [← recompose_normal hnormal.1.1 hnormal.1.2]
    refine ⟨by omega, (absVal_recompose hnormal).trans (normalVal_renormalize _ _), fun heven => ?_⟩
    have := renormalize_even (quotientExp n d) heven
    omega

omit hd in
/-- The quotient's word is an Infinity when its rounded exponent is past that of the finite words. -/
theorem divideRatio_infinite (sg : Bool) (h : 127 < (renormalize (quotientMant n d) (quotientExp n d)).2) :
    divideRatio sg n d = packWord sg 255 0 := by
  rw [divideRatio_eq hn, if_pos h]

/-- The quotient's word is the nearest finite one, ties to even. -/
theorem nearestFinite_divideRatio (sg : Bool) (h : (renormalize (quotientMant n d) (quotientExp n d)).2 ≤ 127) :
    NearestFinite (n / d) (divideRatio sg n d) := by
  obtain ⟨hexp, hval, heven⟩ := divideRatio_finite hn hd sg h
  refine ⟨hexp, fun z _ => ?_⟩
  have hscale : 1 ≤ scaleExp z := by
    unfold scaleExp
    split_ifs <;> omega
  have hfar : quotientExp n d ≤ (scaleExp z : ℤ) - 127 ∨ (2 : ℚ) ^ quotientExp n d ≤ n / d :=
    (eq_or_ne (quotientExp n d) (-126)).imp (fun he => by omega) (le_quotient hn hd)
  rw [hval, absVal_eq z]
  exact ((nearestInt_quotientMant hd).normalVal_le (magnitude_lt z) hfar).imp_right fun htie heq =>
    (htie heq).imp_right heven

end quotient

/-! ### FDIV -/

theorem header_fdiv (x y : Word) : (Instr.fdiv x y).header = 0x13000000#32 :=
  (by decide : mkHeader 0x13 0 0 = 0x13000000#32)

/-- FDIV of finite operands and a divisor other than ±0 is R106's word of the ratio of two integers. -/
theorem exec_fdiv_of_finite {x y : Word} (s : State) (hx : expField x ≠ 255) (hy : expField y ≠ 255)
    (hy0 : y.extractLsb' 0 31 ≠ 0#31) :
    exec (.fdiv x y) s = .next { s with
      res0 := divideRatio (signBit x ^^ signBit y) (magnitude x * 2 ^ (scaleExp x - scaleExp y))
        (magnitude y * 2 ^ (scaleExp y - scaleExp x))
      cmdcnt := s.cmdcnt + 1#32 } := by
  rw [exec_fdiv, execFdiv, divide, if_neg (not_or.2 ⟨hx, hy⟩), if_neg hy0]
  rfl

/-- The exact quotient is the ratio of the two integers. -/
theorem absVal_div (x y : Word) :
    absVal x / absVal y =
      ((magnitude x * 2 ^ (scaleExp x - scaleExp y) : ℕ) : ℚ) / (magnitude y * 2 ^ (scaleExp y - scaleExp x) : ℕ) := by
  have hratio : (2 : ℚ) ^ ((scaleExp x : ℤ) - 150) / 2 ^ ((scaleExp y : ℤ) - 150) =
      2 ^ (scaleExp x - scaleExp y) / 2 ^ (scaleExp y - scaleExp x) := by
    rw [← zpow_sub₀ two_ne_zero, sub_sub_sub_cancel_right, two_zpow_eq_div, neg_sub, Int.toNat_sub, Int.toNat_sub]
  rw [absVal, absVal, mul_div_mul_comm, hratio]
  push_cast
  rw [mul_div_mul_comm]

theorem magnitude_ne_zero {y : Word} (h : y.extractLsb' 0 31 ≠ 0#31) : magnitude y ≠ 0 := by
  rw [Ne, extractLsb'_eq_zero_iff] at h
  unfold magnitude
  split_ifs <;> omega

/-- The sign of R106's word. -/
theorem signBit_divideRatio (sg : Bool) (n d : ℕ) : signBit (divideRatio sg n d) = sg := by
  unfold divideRatio
  dsimp only
  split_ifs <;> exact signBit_packWord ..

/-- The bound of R106 below which the rounded exponent is that of a finite word. -/
theorem quotient_exp_le_iff {n d : ℕ} (hn : n ≠ 0) (hd : d ≠ 0) :
    (renormalize (quotientMant n d) (quotientExp n d)).2 ≤ 127 ↔ (n / d : ℚ) < 2 ^ 128 - 2 ^ 103 := by
  have hiff := (nearestInt_quotientMant hd).renormalize_exp_le_iff (E := 127) (quotient_lt hn hd) fun hlt =>
    le_quotient hn hd (by omega)
  have hhigh : (2 : ℚ) ^ ((127 : ℤ) + 1) - 2 ^ ((127 : ℤ) - 24) = 2 ^ 128 - 2 ^ 103 := by
    rw [← zpow_ofNat, ← zpow_ofNat]
    rfl
  rw [hiff, hhigh]

/-- A quotient of 0 is its own nearest word. -/
theorem nearestFinite_zero (sg : Bool) : NearestFinite 0 (packWord sg 0 0) := by
  have hval : absVal (packWord sg 0 0) = 0 := by
    rw [absVal_packWord_subnormal (by decide), normalVal_eq, Nat.cast_zero, zero_mul]
  refine ⟨?_, fun z _ => ⟨?_, fun _ => .inr ?_⟩⟩
  · rw [expField_packWord (by decide)]
    decide
  · rw [hval, sub_zero, abs_zero]
    exact abs_nonneg _
  · rw [fracField_packWord]
    rfl

/-- Settles O12: FDIV's word is that of a ratio of integers (`absVal_div`), which is nearest while it is finite
(`nearestFinite_divideRatio`), and it is finite up to the bound (`quotient_exp_le_iff`). -/
theorem fdivRoundsToNearestEvenOrRaises : Obligations.FdivRoundsToNearestEvenOrRaises := by
  intro x y s
  refine ⟨fun hx hy hy0 => ⟨_, exec_fdiv_of_finite s hx hy hy0, signBit_divideRatio .., ?value⟩, fun h => ?domain⟩
  case domain =>
    have hnone : divide x y = none := by
      unfold divide
      split_ifs with h1 h2
      · rfl
      · rfl
      · exact absurd h (by tauto)
    rw [exec_fdiv, execFdiv, hnone]
    exact raise_of_header (header_fdiv x y) _ s
  case value =>
    rw [absVal_div]
    have hd : magnitude y * 2 ^ (scaleExp y - scaleExp x) ≠ 0 :=
      Nat.mul_ne_zero (magnitude_ne_zero hy0) (Nat.two_pow_pos _).ne'
    generalize magnitude x * 2 ^ (scaleExp x - scaleExp y) = n
    generalize magnitude y * 2 ^ (scaleExp y - scaleExp x) = d at hd
    by_cases hn : n = 0
    · rw [hn, Nat.cast_zero, zero_div, divideRatio, if_pos rfl]
      exact ⟨fun _ => nearestFinite_zero _, fun hge => absurd hge (by norm_num)⟩
    · have hfinite := quotient_exp_le_iff hn hd
      refine ⟨fun hlt => nearestFinite_divideRatio hn hd _ (hfinite.2 hlt), fun hge => ?_⟩
      rw [divideRatio_infinite hn _ (not_le.1 (mt hfinite.1 (not_lt.2 hge)))]
      exact ⟨expField_packWord (by decide) .., fracField_packWord ..⟩

end Sys2Proof.Machine
end
